-- ==== Sys2Proof/Word.lean ====
section
/-! DEFINITION. Word.lean: the machine's word and byte types. -/

namespace Sys2Proof

/-- A word of the host bus, of every register and of the command format: 32 bits (R15, R26, R70). -/
abbrev Word := BitVec 32

/-- A byte lane of a word (R56), and a slot field of a command (R71). -/
abbrev Byte := BitVec 8

end Sys2Proof
end

