-- ==== Sys2Proof/Syntax.lean ====
section
/-! DEFINITION. Syntax.lean: the seventeen commands of PDL-CMD version 1 (30_encoding R74), one
constructor per row of the opcode table, with the slot fields the row uses in the order RD, RS1, RS2
(R79). A slot number is a plain number here; WellFormed.lean bounds it by the field's eight bits. -/

namespace Sys2Proof

/-- A command, as 30_encoding R74 lists it. -/
inductive Instr where
  /-- NOP: no operation (R92). -/
  | nop
  /-- PZERO: write the zero element (R93). -/
  | pzero (rd : Nat)
  /-- PCONST: write a constant element, the scalar being ARG (R94). -/
  | pconst (rd : Nat)
  /-- PCOPY: copy a slot (R95). -/
  | pcopy (rd rs1 : Nat)
  /-- PADD: ring addition (R96). -/
  | padd (rd rs1 rs2 : Nat)
  /-- PSUB: ring subtraction, RS1 minus RS2 (R97). -/
  | psub (rd rs1 rs2 : Nat)
  /-- PNEG: ring negation (R98). -/
  | pneg (rd rs1 : Nat)
  /-- PSCALE: multiply by a scalar of Z_q, the scalar being ARG (R99). -/
  | pscale (rd rs1 : Nat)
  /-- PMUL: ring multiplication modulo X^N + 1 (R100). -/
  | pmul (rd rs1 rs2 : Nat)
  /-- PEQ: compare two slots into the EQ flag (R101). -/
  | peq (rs1 rs2 : Nat)
  /-- SUNIF: sample a uniform ring element (R111). -/
  | sunif (rd : Nat)
  /-- SNOISE: sample a small-noise ring element (R112). -/
  | snoise (rd : Nat)
  /-- CENC: encode the message register into a slot (R120). -/
  | cenc (rd : Nat)
  /-- CDEC: decode a slot into the message register (R121). -/
  | cdec (rs1 : Nat)
  /-- KEYGEN: generate a key pair; operands from the layout registers (R131). -/
  | keygen
  /-- ENCRYPT: encrypt the message register; operands from the layout registers (R133). -/
  | encrypt
  /-- DECRYPT: decrypt into the message register; operands from the layout registers (R134). -/
  | decrypt
deriving DecidableEq, Repr

end Sys2Proof
end

