-- ==== Sys2Proof/WellFormed.lean ====
section
/-! DEFINITION. WellFormed.lean: which commands the 32-bit format can hold. Every slot field has eight
bits (30_encoding R70, R71). A slot number that fits its field but is `>= NSLOT` is well formed: the
unit accepts the word and fails it with SHAPE when it runs (R78). -/

namespace Sys2Proof

/-- A number that an eight-bit slot field holds (R71). -/
def fieldFits (slot : Nat) : Bool := decide (slot < 256)

/-- The slot fields of a command, in the order RD, RS1, RS2 (R74, R79). -/
def Instr.slots : Instr → List Nat
  | .nop | .keygen | .encrypt | .decrypt => []
  | .pzero rd | .pconst rd | .sunif rd | .snoise rd | .cenc rd => [rd]
  | .pcopy rd rs1 | .pneg rd rs1 | .pscale rd rs1 => [rd, rs1]
  | .padd rd rs1 rs2 | .psub rd rs1 rs2 | .pmul rd rs1 rs2 => [rd, rs1, rs2]
  | .peq rs1 rs2 => [rs1, rs2]
  | .cdec rs1 => [rs1]

/-- Every slot field of the command fits its eight bits. -/
def Instr.wellFormed (i : Instr) : Bool := i.slots.all fieldFits

end Sys2Proof
end

