-- ==== Sys2Proof/Decode.lean ====
section
/-! DEFINITION. Decode.lean: steps 1 and 2 of the validation of a command word (30_encoding R78), total
on every word and rejecting by name, and the encoder written from the same table (R70, R74, R75). -/

namespace Sys2Proof

/-- Why a word is no command: step 1 or step 2 of R78. -/
inductive DecodeError where
  /-- The opcode is none of R74's: R76. -/
  | illegalOpcode
  /-- A field the command does not use is not zero: R77. -/
  | reservedField
deriving DecidableEq, Repr

/-- The field of eight bits from bit `lo` up (R15, R70). -/
def byteField (w : Word) (lo : Nat) : Byte := w.extractLsb' lo 8

/-- OPC, bits 7:0 (R70). -/
def opcOf (w : Word) : Byte := byteField w 0

/-- RD, bits 15:8, an unsigned slot number (R70, R71). -/
def rdOf (w : Word) : Nat := (byteField w 8).toNat

/-- RS1, bits 23:16, an unsigned slot number (R70, R71). -/
def rs1Of (w : Word) : Nat := (byteField w 16).toNat

/-- RS2, bits 31:24, an unsigned slot number (R70, R71). -/
def rs2Of (w : Word) : Nat := (byteField w 24).toNat

/-- Step 2 of R78: the command `i`, if every reserved field (given by the list) is 0 (R77). -/
def needZero (reserved : List Nat) (i : Instr) : Except DecodeError Instr :=
  if reserved.all (· == 0) then .ok i else .error .reservedField

/-- The command a word stands for: step 1 of R78, the opcode map of R74, then step 2. -/
def decode (w : Word) : Except DecodeError Instr :=
  let rd := rdOf w
  let rs1 := rs1Of w
  let rs2 := rs2Of w
  match (opcOf w).toNat with
  | 0x00 => needZero [rd, rs1, rs2] .nop
  | 0x01 => needZero [rs1, rs2] (.pzero rd)
  | 0x02 => needZero [rs1, rs2] (.pconst rd)
  | 0x03 => needZero [rs2] (.pcopy rd rs1)
  | 0x10 => needZero [] (.padd rd rs1 rs2)
  | 0x11 => needZero [] (.psub rd rs1 rs2)
  | 0x12 => needZero [rs2] (.pneg rd rs1)
  | 0x13 => needZero [rs2] (.pscale rd rs1)
  | 0x14 => needZero [] (.pmul rd rs1 rs2)
  | 0x18 => needZero [rd] (.peq rs1 rs2)
  | 0x20 => needZero [rs1, rs2] (.sunif rd)
  | 0x21 => needZero [rs1, rs2] (.snoise rd)
  | 0x30 => needZero [rs1, rs2] (.cenc rd)
  | 0x31 => needZero [rd, rs2] (.cdec rs1)
  | 0x40 => needZero [rd, rs1, rs2] .keygen
  | 0x41 => needZero [rd, rs1, rs2] .encrypt
  | 0x42 => needZero [rd, rs1, rs2] .decrypt
  | _ => .error .illegalOpcode

/-- The word of four bytes, the lowest-addressed byte in bits 7:0 (20_memory R56). -/
def wordOfBytes (b0 b1 b2 b3 : Byte) : Word := b3 ++ b2 ++ b1 ++ b0

/-- The command that a host's bytes of one CMD word stand for, lowest address first (R56); none where
the bytes are not exactly one word, which the bus cannot deliver (R55). -/
def decodeBytes : List Byte → Option (Except DecodeError Instr)
  | [b0, b1, b2, b3] => some (decode (wordOfBytes b0 b1 b2 b3))
  | _ => none

/-- The opcode of each command (R74). -/
def Instr.opcode : Instr → Byte
  | .nop => 0x00#8
  | .pzero _ => 0x01#8
  | .pconst _ => 0x02#8
  | .pcopy _ _ => 0x03#8
  | .padd _ _ _ => 0x10#8
  | .psub _ _ _ => 0x11#8
  | .pneg _ _ => 0x12#8
  | .pscale _ _ => 0x13#8
  | .pmul _ _ _ => 0x14#8
  | .peq _ _ => 0x18#8
  | .sunif _ => 0x20#8
  | .snoise _ => 0x21#8
  | .cenc _ => 0x30#8
  | .cdec _ => 0x31#8
  | .keygen => 0x40#8
  | .encrypt => 0x41#8
  | .decrypt => 0x42#8

/-- The command word `{RS2, RS1, RD, OPC}` (R70). -/
def packWord (opc : Byte) (rd rs1 rs2 : Nat) : Word :=
  BitVec.ofNat 8 rs2 ++ BitVec.ofNat 8 rs1 ++ BitVec.ofNat 8 rd ++ opc

/-- The word of a command; an unused field is 0 (R70, R74, R77). -/
def encode (i : Instr) : Word :=
  match i with
  | .nop | .keygen | .encrypt | .decrypt => packWord i.opcode 0 0 0
  | .pzero rd | .pconst rd | .sunif rd | .snoise rd | .cenc rd => packWord i.opcode rd 0 0
  | .pcopy rd rs1 | .pneg rd rs1 | .pscale rd rs1 => packWord i.opcode rd rs1 0
  | .padd rd rs1 rs2 | .psub rd rs1 rs2 | .pmul rd rs1 rs2 => packWord i.opcode rd rs1 rs2
  | .peq rs1 rs2 => packWord i.opcode 0 rs1 rs2
  | .cdec rs1 => packWord i.opcode 0 rs1 0

/-- The mask of a command's row (R75): a word `w` selects the row exactly when `w &&& mask` is the
row's match. -/
def Instr.rowMask : Instr → Word
  | .nop | .keygen | .encrypt | .decrypt => 0xFFFFFFFF#32
  | .pzero _ | .pconst _ | .sunif _ | .snoise _ | .cenc _ => 0xFFFF00FF#32
  | .pcopy _ _ | .pneg _ _ | .pscale _ _ => 0xFF0000FF#32
  | .padd _ _ _ | .psub _ _ _ | .pmul _ _ _ => 0x000000FF#32
  | .peq _ _ => 0x0000FFFF#32
  | .cdec _ => 0xFF00FFFF#32

/-- The match of a command's row (R75): the opcode, zero-extended. -/
def Instr.rowMatch (i : Instr) : Word := i.opcode.setWidth 32

/-- The word the opcode table's bit numbers mean: the low `nbits` bits of `w`, every bit above them 0.
A command is one word, so there is no further word to lay out (R70). -/
def tableWord (nbits w : Nat) : Word := BitVec.ofNat 32 (w % 2 ^ nbits)

/-- The command the decoder reads from the word that the opcode table numbers. -/
def decodeTableWord (nbits w : Nat) : Option Instr :=
  match decode (tableWord nbits w) with
  | .ok i => some i
  | .error _ => none

end Sys2Proof
end

