-- ==== Sys2Proof/Config.lean ====
section
/-! DEFINITION. Config.lean: the build-time parameters as one configuration value (00_scope R3), the
configurations a model accepts (R6 to R10), and the free values: what the spec leaves open, as
constants with no body, so that nothing can be proved of their values. -/

namespace Sys2Proof

/-- The build-time parameters (00_scope R6 to R11) and the two parameters the platform sets (20_memory
R53, 60_exceptions R162). -/
structure Params where
  /-- `Q`, the prime modulus (R6). -/
  q : Nat
  /-- `N`, the number of coefficients of a ring element (R7). -/
  n : Nat
  /-- `K`, the rank of vectors and of the public matrix (R8). -/
  k : Nat
  /-- `ETA`, the parameter of the centred binomial noise (R9). -/
  eta : Nat
  /-- `NSLOT`, the number of slots (R10). -/
  nslot : Nat
  /-- `DEC_TIE`, the bit decoded at `(3Q-1)/4` when `Q mod 4 = 3` (R11). -/
  decTie : Bool
  /-- `UNIT_BASE`, where the platform places the window (R53). -/
  unitBase : Nat
  /-- `IRQ_LINE`, the platform's line that IRQ drives (R162). -/
  irqLine : Nat
deriving DecidableEq, Repr

/-- `d` is no proper divisor of `q`. -/
def noDivisor (q d : Nat) : Bool := decide (d < 2) || decide (q ≤ d) || (q % d != 0)

/-- Primality of a number below `2^16`: at least 2 and with no proper divisor below 256 (each written
`16*a + b`). The law `isPrime_iff` (Laws/Config.lean) says that this is primality. -/
def isPrime (q : Nat) : Bool :=
  decide (2 ≤ q) && (List.range 16).all fun a => (List.range 16).all fun b => noDivisor q (16 * a + b)

/-- The configurations the model accepts: the legal ranges of R6 to R10, and `UNIT_BASE` a multiple of
`2^22` (R53). -/
def Params.legal (p : Params) : Bool :=
  decide (p.q ≤ 65521) && (isPrime p.q && (
    decide (1 ≤ p.n) && (decide (p.n ≤ 1024) && (
    decide (1 ≤ p.k) && (decide (p.k ≤ 16) && (
    decide (1 ≤ p.eta) && (decide (p.eta ≤ 16) && (decide (2 * p.eta < p.q) && (
    decide (1 ≤ p.nslot) && (decide (p.nslot ≤ 256) && decide (p.unitBase % 4194304 = 0)))))))))))

/-- The reference configuration (R12). DESIGN CHOICE (log 4): `UNIT_BASE` and `IRQ_LINE` are OPEN and
stand at 0 here. -/
def Params.reference : Params where
  q := 97
  n := 4
  k := 2
  eta := 1
  nslot := 16
  decTie := true
  unitBase := 0
  irqLine := 0

/-- `HALF = floor(Q/2)` (R13). -/
def Params.half (p : Params) : Nat := p.q / 2

/-- `MSGW = ceil(N/32)`, the number of words of the MSG window (R13). -/
def Params.msgw (p : Params) : Nat := (p.n + 31) / 32

/-- Free value (log 7): what the entropy source answers to its m-th draw when that draw is a
`DrawUniform()`; the sampler keeps the limit `0 <= u < Q` of 41_sampler R102 by reducing it mod Q. -/
opaque Config.freeUniform : Nat → Nat

/-- Free value (log 7): what the entropy source answers to its m-th draw when that draw is a
`DrawCoin()` (41_sampler R103). -/
opaque Config.freeCoin : Nat → Bool

/-- Free value (log 8): the m-th unspecified word a host read returns (44_host_access R143,
60_exceptions R159 (b)). -/
opaque Config.freeWord : Nat → Word

end Sys2Proof
end

