-- ==== Sys2Proof/Machine/State.lean ====
section
/-! DEFINITION. Machine/State.lean: everything the spec gives the machine (10_state R21 to R49), the
model's own fields beside it, the state after reset (R52), and the reasons a step can stop. -/

namespace Sys2Proof.Machine

/-- A ring element: its coefficients, the constant term first (00_scope R17). -/
abbrev Elt := List Nat

/-- Where an unwritten value was read: a slot cell or a message bit (60_exceptions R159). -/
inductive Uninit where
  | cell (slot coeff : Nat)
  | bit (j : Nat)
deriving DecidableEq, Repr

/-- The codes of `STATUS.ERRCODE` (60_exceptions R155). Codes 6 to 15 are never reported and have no
name here (log 17). -/
inductive ErrCode where
  /-- 0: no error since the last clear. -/
  | noError
  /-- 1: the opcode is not defined. -/
  | illegalOpcode
  /-- 2: a field the command does not use is not 0. -/
  | reservedField
  /-- 3: a slot of the command is not below NSLOT. -/
  | shape
  /-- 4: a host write that was dropped because the unit was busy. -/
  | busy
  /-- 5: an engine's output runs overlap. -/
  | overlap
deriving DecidableEq, Repr

/-- One host access, before the unit decides it (44_host_access R138). `addr` is a host address, `size`
a number of bytes; a write has its four byte lanes and its data (20_memory R53, R55). -/
inductive Access where
  | read (addr size : Nat)
  | write (addr size : Nat) (lanes : BitVec 4) (v : Word)
deriving DecidableEq, Repr

/-- What the bus answers to a host access (44_host_access R138, 60_exceptions R158). -/
inductive Answer where
  /-- The data of a read. -/
  | data (w : Word)
  /-- The acknowledgement of a write, a dropped one included (R142). -/
  | ack
  /-- `raise BusError(addr)`, with the offset. -/
  | busError (addr : Nat)
deriving DecidableEq, Repr

/-- The events of the one total order the bus chooses (20_memory R64), and the platform's reset
input. -/
inductive BusEvent where
  /-- The bus delivers a host access. -/
  | host (a : Access)
  /-- The unit takes its step here, if a command is pending (10_state R50). -/
  | unit
  /-- The platform asserts and releases the reset input: one atomic reset (70_reset R174). -/
  | reset
  /-- A host access while the reset input is asserted, which the platform must not make (R176). -/
  | hostInReset (a : Access)
deriving DecidableEq, Repr

/-- The five layout registers, each an eight-bit slot number (10_state R31). -/
structure Layout where
  abase : Byte
  tbase : Byte
  sbase : Byte
  ubase : Byte
  vslot : Byte
deriving DecidableEq, Repr

/-- The machine. A slot cell or message bit that a list does not name is *unwritten* (10_state R23,
R25), which is the spec's own reset value for it. -/
structure State where
  /-- The build-time configuration, which the PARAM registers show (R28); no step writes it. -/
  cfg : Params
  /-- The written cells of the slot file, as ((slot, coefficient), value), keys strictly rising (R21). -/
  cells : List ((Nat × Nat) × Nat)
  /-- The written bits of the message register, as (index, bit), keys strictly rising (R25). -/
  msg : List (Nat × Bool)
  /-- The pending-command latch; BUSY is "a word is present" (R33, R46). -/
  pending : Option Word
  /-- CMD: the last accepted command word (R29). -/
  cmd : Word
  /-- ARG: the scalar operand (R30). -/
  arg : Word
  /-- STATUS.DONE (R34). -/
  done : Bool
  /-- STATUS.ERR (R35). -/
  err : Bool
  /-- STATUS.EQ (R36). -/
  eq : Bool
  /-- STATUS.ERRCODE (R37). -/
  errcode : ErrCode
  /-- CTRL.IE (R39). -/
  ie : Bool
  /-- ABASE, TBASE, SBASE, UBASE and VSLOT (R31). -/
  layout : Layout
  /-- The fault record, oldest first: model-only by the spec (R49). -/
  faults : List Uninit
  /-- Model's own (log 1): the events still to come, oldest first (20_memory R64). -/
  bus : List BusEvent
  /-- Model's own (log 9): the bus's answer to the last host access. -/
  answer : Option Answer
  /-- Model's own (log 7): how many draws the entropy source has answered. -/
  draws : Nat
  /-- Model's own (log 8): how many unspecified words host reads have returned. -/
  freeReads : Nat
deriving DecidableEq, Repr

/-- Why the machine stops. -/
inductive Fault where
  /-- Raised by a turn on a host access made while the reset input is asserted: the spec's treatment
  is "stuck" (70_reset R176, 93 #17). Safe: the platform must not make such an access. -/
  | accessDuringReset
deriving DecidableEq, Repr

/-- Why a step has no meaning. -/
inductive Refusal where
  /-- Raised by an arm of `exec` whose command has no meaning yet; no arm does. Safe. -/
  | notModelled (mnemonic : String)
  /-- Raised by a turn of a machine whose configuration is outside the legal ranges (00_scope R6 to
  R10, 93 #11: "refuse"; the chip is not built). Safe. -/
  | illegalConfig
deriving DecidableEq, Repr

/-- What a step, or a command, answers. -/
abbrev Result := Host.Outcome State Fault Refusal

/-- The reset state of a machine of a given configuration (10_state R52, 70_reset R174). The model's
own fields start empty (DESIGN CHOICE, log 10). -/
def State.resetOf (p : Params) : State where
  cfg := p
  cells := []
  msg := []
  pending := none
  cmd := 0#32
  arg := 0#32
  done := false
  err := false
  eq := false
  errcode := .noError
  ie := false
  layout := ⟨0#8, 0#8, 0#8, 0#8, 0#8⟩
  faults := []
  bus := []
  answer := none
  draws := 0
  freeReads := 0

/-- The machine right after reset, in the reference configuration (00_scope R12, 10_state R52). -/
def State.reset : State := State.resetOf Params.reference

end Sys2Proof.Machine
end

