-- ==== Sys2Proof/Machine/Ops.lean ====
section
/-! DEFINITION. Machine/Ops.lean: the named operations over the storage and the registers, how a
command ends (10_state R50), and the shared failures. The unit takes no traps and returns from none
(60_exceptions R165, R166): what it does instead of taking an exception is `State.reportError` (R156),
and the acknowledgement of R164 is `State.clearFlags`. -/

namespace Sys2Proof.Machine

/-! ### Sparse storage: a list of (key, value) pairs whose keys rise strictly; an unlisted key holds no
value (10_state R23). -/

/-- The value at a key, if the key is written. -/
def Sparse.get {κ ν : Type} [DecidableEq κ] : List (κ × ν) → κ → Option ν
  | [], _ => none
  | (k', v) :: rest, k => if k' = k then some v else Sparse.get rest k

/-- Write one key, keeping the keys in rising order. -/
def Sparse.set {κ ν : Type} [DecidableEq κ] (lt : κ → κ → Bool) :
    List (κ × ν) → κ → ν → List (κ × ν)
  | [], k, v => [(k, v)]
  | (k', v') :: rest, k, v =>
    if k' = k then (k, v) :: rest
    else if lt k k' then (k, v) :: (k', v') :: rest
    else (k', v') :: Sparse.set lt rest k v

/-- The canonical form: keys rise strictly, so that equal contents are equal lists. -/
def Sparse.sorted {κ ν : Type} (lt : κ → κ → Bool) : List (κ × ν) → Bool
  | [] => true
  | [_] => true
  | a :: b :: rest => lt a.1 b.1 && Sparse.sorted lt (b :: rest)

/-- The order of slot cells: by slot, then by coefficient (the order of the PMEM window, 20_memory
R54). -/
def cellLt (a b : Nat × Nat) : Bool := decide (a.1 < b.1) || (decide (a.1 = b.1) && decide (a.2 < b.2))

/-- The order of message bits (20_memory R59). -/
def bitLt (a b : Nat) : Bool := decide (a < b)

/-- The canonical form of all storage. -/
def Memory.wf (s : State) : Bool := Sparse.sorted cellLt s.cells && Sparse.sorted bitLt s.msg

/-- Coefficient `j` of a ring element (00_scope R17). -/
def coef (a : Elt) (j : Nat) : Nat := a.getD j 0

/-! ### Reads and writes of the slot file and the message register -/

/-- `x[i][j]`: the cell's value, if it is written (R18, R23). -/
def State.cell (s : State) (i j : Nat) : Option Nat := Sparse.get s.cells (i, j)

/-- `msg[j]`: the bit's value, if it is written (R18, R25). -/
def State.msgBit (s : State) (j : Nat) : Option Bool := Sparse.get s.msg j

/-- Replace the slot file. -/
def State.setCells (s : State) (c : List ((Nat × Nat) × Nat)) : State := { s with cells := c }

/-- Replace the message register. -/
def State.setMsg (s : State) (m : List (Nat × Bool)) : State := { s with msg := m }

/-- `x[i][j] <- c` (R18). -/
def State.writeCell (s : State) (i j c : Nat) : State :=
  s.setCells (Sparse.set cellLt s.cells (i, j) c)

/-- `x[i][j] <- a[j]` for the listed coefficients, in order. -/
def writeCoeffs (cells : List ((Nat × Nat) × Nat)) (i : Nat) (a : Elt) :
    List Nat → List ((Nat × Nat) × Nat)
  | [] => cells
  | j :: js => writeCoeffs (Sparse.set cellLt cells (i, j) (coef a j)) i a js

/-- `x[i] <- a`: a slot is written whole, all N cells (R18, 40_ring R90). -/
def State.writeSlot (s : State) (i : Nat) (a : Elt) : State :=
  s.setCells (writeCoeffs s.cells i a (List.range s.cfg.n))

/-- Write consecutive slots from `base` up (10_state R31). -/
def State.writeRun (s : State) (base : Nat) : List Elt → State
  | [] => s
  | a :: rest => (s.writeSlot base a).writeRun (base + 1) rest

/-- `msg[j] <- f j` for the listed bits, in order. -/
def writeBits (msg : List (Nat × Bool)) (f : Nat → Bool) : List Nat → List (Nat × Bool)
  | [] => msg
  | j :: js => writeBits (Sparse.set bitLt msg j (f j)) f js

/-- `msg[j] <- bits[j]` for every `j in 0..N-1`: the register is written whole. -/
def State.writeMsg (s : State) (bits : List Bool) : State :=
  s.setMsg (writeBits s.msg (fun j => bits.getD j false) (List.range s.cfg.n))

/-- Perform reads in order and stop at the first unwritten place (60_exceptions R159). -/
def readEach {α β : Type} (f : α → Except Uninit β) : List α → Except Uninit (List β)
  | [] => .ok []
  | a :: rest =>
    match f a with
    | .error w => .error w
    | .ok b =>
      match readEach f rest with
      | .error w => .error w
      | .ok bs => .ok (b :: bs)

/-- Read one cell (R159). -/
def State.readCell (s : State) (i j : Nat) : Except Uninit Nat :=
  match s.cell i j with
  | some c => .ok c
  | none => .error (.cell i j)

/-- Read one message bit (R159). -/
def State.readBit (s : State) (j : Nat) : Except Uninit Bool :=
  match s.msgBit j with
  | some b => .ok b
  | none => .error (.bit j)

/-- `x[i]`: a slot is read whole, coefficient 0 first (R18, 40_ring R90). -/
def State.readSlot (s : State) (i : Nat) : Except Uninit Elt :=
  readEach (s.readCell i) (List.range s.cfg.n)

/-- `(msg[0], ..., msg[N-1])` (42_codec R120). -/
def State.readMsg (s : State) : Except Uninit (List Bool) :=
  readEach s.readBit (List.range s.cfg.n)

/-- Two slots, the first one first. -/
def State.readPair (s : State) (ij : Nat × Nat) : Except Uninit (Elt × Elt) :=
  match s.readSlot ij.1 with
  | .error w => .error w
  | .ok a =>
    match s.readSlot ij.2 with
    | .error w => .error w
    | .ok b => .ok (a, b)

/-! ### Flags and records -/

/-- `STATUS.DONE <- b` (R34). -/
def State.setDone (s : State) (b : Bool) : State := { s with done := b }

/-- `STATUS.EQ <- b` (R36). -/
def State.setEq (s : State) (b : Bool) : State := { s with eq := b }

/-- To report error c: ERRCODE takes the code only where ERR is 0, then ERR is set (60_exceptions
R156). This is what the unit does in place of taking an exception. -/
def State.reportError (s : State) (c : ErrCode) : State :=
  { s with errcode := if s.err then s.errcode else c, err := true }

/-- `CTRL.CLR`: clear DONE, ERR and ERRCODE (10_state R40); the acknowledgement of 60_exceptions R164
and the unit's only return-like action (R166). -/
def State.clearFlags (s : State) : State :=
  { s with done := false, err := false, errcode := .noError }

/-- The model fault `UninitRead`: appended to the fault record, nothing else (R49, R159). -/
def State.recordFault (s : State) (w : Uninit) : State := { s with faults := s.faults ++ [w] }

/-- The entropy source has answered `m` draws (10_state R47). -/
def State.takeDraws (s : State) (m : Nat) : State := { s with draws := s.draws + m }

/-- One unspecified word has been given to a host (44_host_access R143). -/
def State.takeFreeRead (s : State) : State := { s with freeReads := s.freeReads + 1 }

/-- `pending <- empty` (10_state R50). -/
def State.emptyPending (s : State) : State := { s with pending := none }

/-- The bus has delivered its next event. -/
def State.dropEvent (s : State) : State := { s with bus := s.bus.tail }

/-- The bus answers a host access. -/
def State.setAnswer (s : State) (a : Answer) : State := { s with answer := some a }

/-- The one reset action, of the reset input and of `CTRL.SRST` (70_reset R174): the configuration and
the fault record are kept, and so are the model's own fields (log 10). -/
def State.resetUnit (s : State) : State :=
  { State.resetOf s.cfg with
    faults := s.faults, bus := s.bus, answer := s.answer, draws := s.draws,
    freeReads := s.freeReads }

/-! ### How a command runs and ends (10_state R50, 60_exceptions R157, R159) -/

/-- `r = ok`: DONE is set (R50). -/
def complete (s : State) : Result := .next (s.setDone true)

/-- `raise CmdError(c)`: the error is reported and DONE stays as it is, which is 0 since the command
was accepted (R50, R157). -/
def failCommand (s : State) (c : ErrCode) : Result := .next (s.reportError c)

/-- `fault UninitRead(where)` in a unit step: recorded, nothing else changes (R159 (a)). -/
def faultCommand (s : State) (w : Uninit) : Result := .next (s.recordFault w)

/-- Step 3 of R78 for slot fields: each lies below NSLOT, else SHAPE. -/
def requireSlots (s : State) (slots : List Nat) (k : Result) : Result :=
  if slots.all fun i => decide (i < s.cfg.nslot) then k else failCommand s .shape

/-- Go on with what was read, or fault at the first unwritten place (R90, R159). -/
def withRead {α : Type} (s : State) (r : Except Uninit α) (k : α → Result) : Result :=
  match r with
  | .ok a => k a
  | .error w => faultCommand s w

end Sys2Proof.Machine
end

