-- ==== Sys2Proof/Machine/Operands.lean ====
section
/-! DEFINITION. Machine/Operands.lean: every operand form of the commands: the scalar in ARG
(30_encoding R72), a slot field (R71), the message register, and the engines' slot runs with their
checks (43_pke R126 to R128). -/

namespace Sys2Proof.Machine

/-- The scalar operand: ARG as an unsigned integer, reduced mod Q (R72). -/
def State.scalar (s : State) : Nat := s.arg.toNat % s.cfg.q

/-- A slot field: the slot it names, read whole (R71, R90). -/
def withSlot (s : State) (i : Nat) (k : Elt → Result) : Result := withRead s (s.readSlot i) k

/-- Consecutive slots, read in order. -/
def withSlots (s : State) (is : List Nat) (k : List Elt → Result) : Result :=
  withRead s (readEach s.readSlot is) k

/-- The message register, read whole (42_codec R120). -/
def withMsg (s : State) (k : List Bool → Result) : Result := withRead s s.readMsg k

/-- A run of consecutive slots, with no wrap at 256 (43_pke R126). -/
structure SlotRun where
  base : Nat
  len : Nat
deriving DecidableEq, Repr

/-- The end of a run, exclusive. -/
def SlotRun.stop (r : SlotRun) : Nat := r.base + r.len

/-- The slots of a run, in order. -/
def SlotRun.slots (r : SlotRun) : List Nat := (List.range r.len).map fun m => r.base + m

/-- The run ends at or below NSLOT (R127). -/
def SlotRun.fits (r : SlotRun) (p : Params) : Bool := decide (r.stop ≤ p.nslot)

/-- No slot lies in both runs (R128). -/
def SlotRun.disjoint (a b : SlotRun) : Bool := a.slots.all fun i => !b.slots.contains i

/-- `RA = [ABASE, ABASE + K*K)` (R126). -/
def State.runA (s : State) : SlotRun := ⟨s.layout.abase.toNat, s.cfg.k * s.cfg.k⟩

/-- `RT = [TBASE, TBASE + K)` (R126). -/
def State.runT (s : State) : SlotRun := ⟨s.layout.tbase.toNat, s.cfg.k⟩

/-- `RS = [SBASE, SBASE + K)` (R126). -/
def State.runS (s : State) : SlotRun := ⟨s.layout.sbase.toNat, s.cfg.k⟩

/-- `RU = [UBASE, UBASE + K)` (R126). -/
def State.runU (s : State) : SlotRun := ⟨s.layout.ubase.toNat, s.cfg.k⟩

/-- `RV = [VSLOT, VSLOT + 1)` (R126). -/
def State.runV (s : State) : SlotRun := ⟨s.layout.vslot.toNat, 1⟩

/-- Step 3 of 30_encoding R78 for an engine: every run it uses fits, else SHAPE (R127). -/
def requireRuns (s : State) (runs : List SlotRun) (k : Result) : Result :=
  if runs.all fun r => r.fits s.cfg then k else failCommand s .shape

/-- The runs are pairwise disjoint. -/
def pairwiseDisjoint : List SlotRun → Bool
  | [] => true
  | r :: rest => rest.all r.disjoint && pairwiseDisjoint rest

/-- Step 4 of R78: the output runs are pairwise disjoint, else OVERLAP (R128). -/
def requireDisjoint (s : State) (outs : List SlotRun) (k : Result) : Result :=
  if pairwiseDisjoint outs then k else failCommand s .overlap

/-- The slot pairs of DECRYPT's reading loop, `(SBASE + i, UBASE + i)` for `i in 0..K-1` (R134). -/
def State.decryptPairs (s : State) : List (Nat × Nat) :=
  (List.range s.cfg.k).map fun i => (s.layout.sbase.toNat + i, s.layout.ubase.toNat + i)

end Sys2Proof.Machine
end

