-- ==== Sys2Proof/Machine/Codec.lean ====
section
/-! DEFINITION. Machine/Codec.lean: the block functions of 42_codec section 1 and the codec commands. -/

namespace Sys2Proof.Machine

/-- Bit `i` of a block. -/
def blockBit (m : List Bool) (i : Nat) : Bool := m.getD i false

/-- `encode(m)`: HALF where the bit is 1, else 0 (R113). -/
def encodeBlock (p : Params) (m : List Bool) : Elt :=
  (List.range p.n).map fun i => if blockBit m i then p.half else 0

/-- `decbit(c)` (R114): the disputed value first, then the interval `(Q/4, 3Q/4]`. -/
def decbit (p : Params) (c : Nat) : Bool :=
  if p.q % 4 = 3 ∧ 4 * c + 1 = 3 * p.q then p.decTie
  else decide (p.q < 4 * c ∧ 4 * c ≤ 3 * p.q)

/-- `decode(r)` (R115). -/
def decodeBlock (p : Params) (r : Elt) : List Bool :=
  (List.range p.n).map fun i => decbit p (coef r i)

/-- CENC (R120). -/
def execCenc (rd : Nat) (s : State) : Result :=
  requireSlots s [rd] (withMsg s fun m => complete (s.writeSlot rd (encodeBlock s.cfg m)))

/-- CDEC (R121). -/
def execCdec (rs1 : Nat) (s : State) : Result :=
  requireSlots s [rs1] (withSlot s rs1 fun r => complete (s.writeMsg (decodeBlock s.cfg r)))

end Sys2Proof.Machine
end

