-- ==== Sys2Proof/Machine/RingArith.lean ====
section
/-! DEFINITION. Machine/RingArith.lean: the ring functions of 40_ring section 1, exactly: integers
first, one reduction at the end (00_scope R16, 40_ring R86). Each answers N coefficients. -/

namespace Sys2Proof.Machine

/-- `x mod Q`, the residue in `[0, Q)` (00_scope R16). -/
def zmod (q : Nat) (x : Int) : Nat := (x % (q : Int)).toNat

/-- `sum_{i in 0..m-1} f(i)` of integers (00_scope R18). -/
def sumTo : Nat → (Nat → Int) → Int
  | 0, _ => 0
  | m + 1, f => sumTo m f + f m

/-- The element whose coefficient `j` is `f j mod Q`, for `j in 0..N-1`. -/
def eltOf (p : Params) (f : Nat → Int) : Elt := (List.range p.n).map fun j => zmod p.q (f j)

/-- `zero = [0, ..., 0]` (R89). -/
def rzero (p : Params) : Elt := eltOf p fun _ => 0

/-- The constant element `[c, 0, ..., 0]` (R85, R94). -/
def rconst (p : Params) (c : Nat) : Elt := eltOf p fun j => if j = 0 then (c : Int) else 0

/-- `one = [1, 0, ..., 0]` (R89). -/
def rone (p : Params) : Elt := rconst p 1

/-- `radd` (R82). -/
def radd (p : Params) (a b : Elt) : Elt := eltOf p fun j => (coef a j : Int) + coef b j

/-- `rsub` (R83). -/
def rsub (p : Params) (a b : Elt) : Elt := eltOf p fun j => (coef a j : Int) - coef b j

/-- `rneg` (R84). -/
def rneg (p : Params) (a : Elt) : Elt := eltOf p fun j => -(coef a j : Int)

/-- `rscale` (R85). -/
def rscale (p : Params) (c : Nat) (a : Elt) : Elt := eltOf p fun j => (c : Int) * coef a j

/-- The sum of `a[i] * b[j]` over `i, j in 0..N-1` with `i + j = d` (R86). -/
def convAt (p : Params) (a b : Elt) (d : Nat) : Int :=
  sumTo p.n fun i => sumTo p.n fun j => if i + j = d then (coef a i : Int) * coef b j else 0

/-- `rmul`: the product modulo `X^N + 1`; the terms of degree `m + N` fold back negated (R86). -/
def rmul (p : Params) (a b : Elt) : Elt := eltOf p fun m => convAt p a b m - convAt p a b (m + p.n)

end Sys2Proof.Machine
end

