-- ==== Sys2Proof/Machine/Sampler.lean ====
section
/-! DEFINITION. Machine/Sampler.lean: the sampling functions of 41_sampler section 2, each a function of
the oracle's answers from draw number `c` on (R110), and the sampler commands. The oracle's answers in
the machine are the free values of Config.lean (log 7). -/

namespace Sys2Proof.Machine

/-- `DrawUniform()`: the answer of draw `c`, with `0 <= u < Q` (R102). -/
def drawUniform (p : Params) (u : Nat → Nat) (c : Nat) : Nat := u c % p.q

/-- `uniformElt()`: N uniform draws from number `c` on, coefficient 0 first (R107). -/
def uniformElt (p : Params) (u : Nat → Nat) (c : Nat) : Elt :=
  (List.range p.n).map fun j => drawUniform p u (c + j)

/-- `m` coins from draw number `c` on (R103). -/
def drawCoins (coin : Nat → Bool) (c m : Nat) : List Bool := (List.range m).map fun i => coin (c + i)

/-- How many of the coins are 1. -/
def ones (bits : List Bool) : Nat := bits.count true

/-- `cbd(a_1..a_ETA, b_1..b_ETA)` (R108). -/
def cbd (p : Params) (a b : List Bool) : Nat := zmod p.q ((ones a : Int) - ones b)

/-- How many coins one noise element takes (R109). -/
def noiseCoins (p : Params) : Nat := 2 * p.eta * p.n

/-- `noiseElt()`: for each coefficient ETA coins `a`, then ETA coins `b` (R109). -/
def noiseElt (p : Params) (coin : Nat → Bool) (c : Nat) : Elt :=
  (List.range p.n).map fun j =>
    cbd p (drawCoins coin (c + 2 * p.eta * j) p.eta) (drawCoins coin (c + 2 * p.eta * j + p.eta) p.eta)

/-- `m` uniform elements in order, each taking its N draws after the one before. -/
def uniformElts (p : Params) (u : Nat → Nat) (c m : Nat) : List Elt :=
  (List.range m).map fun i => uniformElt p u (c + i * p.n)

/-- `m` noise elements in order, each taking its coins after the one before. -/
def noiseElts (p : Params) (coin : Nat → Bool) (c m : Nat) : List Elt :=
  (List.range m).map fun i => noiseElt p coin (c + i * noiseCoins p)

/-- SUNIF (R111). -/
def execSunif (rd : Nat) (s : State) : Result :=
  requireSlots s [rd]
    (complete ((s.writeSlot rd (uniformElt s.cfg Config.freeUniform s.draws)).takeDraws s.cfg.n))

/-- SNOISE (R112). -/
def execSnoise (rd : Nat) (s : State) : Result :=
  requireSlots s [rd]
    (complete ((s.writeSlot rd (noiseElt s.cfg Config.freeCoin s.draws)).takeDraws
      (noiseCoins s.cfg)))

end Sys2Proof.Machine
end

