-- ==== Sys2Proof/Machine/Pke.lean ====
section
/-! DEFINITION. Machine/Pke.lean: the vector and matrix functions of 43_pke section 1 and the three
engines. A vector is a list of K elements; a matrix is a list of K*K elements, row-major (10_state
R31). The engines' intermediates are not kept (10_state R48). -/

namespace Sys2Proof.Machine

/-- Element `i` of a vector. -/
def vecAt (v : List Elt) (i : Nat) : Elt := v.getD i []

/-- `A[i][j]` of a row-major matrix. -/
def matAt (p : Params) (A : List Elt) (i j : Nat) : Elt := A.getD (i * p.k + j) []

/-- A sum of K elements, by `radd` starting from `zero` (R125). -/
def rsum (p : Params) (f : Nat → Elt) : Elt :=
  ((List.range p.k).map f).foldl (radd p) (rzero p)

/-- `matvec(A, s)` (R125). -/
def matvec (p : Params) (A s : List Elt) : List Elt :=
  (List.range p.k).map fun i => rsum p fun j => rmul p (matAt p A i j) (vecAt s j)

/-- `matTvec(A, r)` (R125). -/
def matTvec (p : Params) (A r : List Elt) : List Elt :=
  (List.range p.k).map fun i => rsum p fun j => rmul p (matAt p A j i) (vecAt r j)

/-- `dot(a, b)` (R125). -/
def dot (p : Params) (a b : List Elt) : Elt := rsum p fun i => rmul p (vecAt a i) (vecAt b i)

/-- `vadd(a, b)` (R125). -/
def vadd (p : Params) (a b : List Elt) : List Elt :=
  (List.range p.k).map fun i => radd p (vecAt a i) (vecAt b i)

/-- `t = A s + e` (R131). -/
def keyT (p : Params) (A s e : List Elt) : List Elt := vadd p (matvec p A s) e

/-- `u = A^T r + e1` (R133). -/
def cipherU (p : Params) (A r e1 : List Elt) : List Elt := vadd p (matTvec p A r) e1

/-- `v = (t r) + e2 + encode(m)` (R133). -/
def cipherV (p : Params) (t r : List Elt) (e2 : Elt) (m : List Bool) : Elt :=
  radd p (radd p (dot p t r) e2) (encodeBlock p m)

/-- `d = v - (s u)` (R134). -/
def plainD (p : Params) (s u : List Elt) (v : Elt) : Elt := rsub p v (dot p s u)

/-! ### The draws of an engine, each group after the one before it (R130, R132) -/

/-- KEYGEN's `A`, row-major: the first `K*K*N` draws (R130). -/
def State.keyA (s : State) : List Elt :=
  uniformElts s.cfg Config.freeUniform s.draws (s.cfg.k * s.cfg.k)

/-- KEYGEN's `s`: the coins after `A` (R130). -/
def State.keyS (s : State) : List Elt :=
  noiseElts s.cfg Config.freeCoin (s.draws + s.cfg.k * s.cfg.k * s.cfg.n) s.cfg.k

/-- KEYGEN's `e`: the coins after `s` (R130). -/
def State.keyE (s : State) : List Elt :=
  noiseElts s.cfg Config.freeCoin
    (s.draws + s.cfg.k * s.cfg.k * s.cfg.n + s.cfg.k * noiseCoins s.cfg) s.cfg.k

/-- ENCRYPT's `r`: the first coins (R132). -/
def State.encR (s : State) : List Elt := noiseElts s.cfg Config.freeCoin s.draws s.cfg.k

/-- ENCRYPT's `e1`: the coins after `r` (R132). -/
def State.encE1 (s : State) : List Elt :=
  noiseElts s.cfg Config.freeCoin (s.draws + s.cfg.k * noiseCoins s.cfg) s.cfg.k

/-- ENCRYPT's `e2`: the coins after `e1` (R132). -/
def State.encE2 (s : State) : Elt :=
  noiseElt s.cfg Config.freeCoin
    (s.draws + s.cfg.k * noiseCoins s.cfg + s.cfg.k * noiseCoins s.cfg)

/-! ### The engines -/

/-- What KEYGEN writes: A, t and s, and the draws it took (R130, R131). -/
def State.afterKeygen (s : State) : State :=
  (((s.writeRun s.runA.base s.keyA).writeRun s.runT.base (keyT s.cfg s.keyA s.keyS s.keyE)).writeRun
    s.runS.base s.keyS).takeDraws (s.cfg.k * s.cfg.k * s.cfg.n + 2 * s.cfg.k * noiseCoins s.cfg)

/-- What ENCRYPT writes for the inputs it read: u and v, and the draws it took (R132, R133). -/
def State.afterEncrypt (s : State) (A t : List Elt) (m : List Bool) : State :=
  ((s.writeRun s.runU.base (cipherU s.cfg A s.encR s.encE1)).writeSlot s.runV.base
    (cipherV s.cfg t s.encR s.encE2 m)).takeDraws ((2 * s.cfg.k + 1) * noiseCoins s.cfg)

/-- KEYGEN (R131): SHAPE, then OVERLAP; it reads nothing. -/
def execKeygen (st : State) : Result :=
  requireRuns st [st.runA, st.runT, st.runS] (requireDisjoint st [st.runA, st.runT, st.runS]
    (complete st.afterKeygen))

/-- ENCRYPT (R133): SHAPE, then OVERLAP, then A, t and the message are read, in that order. -/
def execEncrypt (st : State) : Result :=
  requireRuns st [st.runA, st.runT, st.runU, st.runV] (requireDisjoint st [st.runU, st.runV]
    (withSlots st st.runA.slots fun A => withSlots st st.runT.slots fun t => withMsg st fun m =>
      complete (st.afterEncrypt A t m)))

/-- DECRYPT (R134): no overlap check, no draw, no slot written. -/
def execDecrypt (st : State) : Result :=
  requireRuns st [st.runS, st.runU, st.runV]
    (withRead st (readEach st.readPair st.decryptPairs) fun su => withSlot st st.runV.base fun v =>
      complete (st.writeMsg (decodeBlock st.cfg
        (plainD st.cfg (su.map Prod.fst) (su.map Prod.snd) v))))

end Sys2Proof.Machine
end

