-- ==== Sys2Proof/Machine/Flags.lean ====
section
/-! DEFINITION. Machine/Flags.lean: BUSY, the STATUS and CTRL words (10_state R32 to R42), the error
code numbers (60_exceptions R155) and the interrupt output (R162). -/

namespace Sys2Proof.Machine

/-- `STATUS.BUSY`: a command is pending (10_state R33). -/
def State.busy (s : State) : Bool := s.pending.isSome

/-- The number of an error code (R155). -/
def ErrCode.number : ErrCode → Nat
  | .noError => 0
  | .illegalOpcode => 1
  | .reservedField => 2
  | .shape => 3
  | .busy => 4
  | .overlap => 5

/-- STATUS as a word: BUSY, DONE, ERR and EQ in bits 0 to 3, ERRCODE in bits 11:8, every other bit 0
(R32, R37). -/
def State.statusWord (s : State) : Word :=
  BitVec.ofNat 32 (s.busy.toNat + 2 * s.done.toNat + 4 * s.err.toNat + 8 * s.eq.toNat
    + 256 * s.errcode.number)

/-- CTRL as read: `zext_32(IE)` (R42). -/
def State.ctrlWord (s : State) : Word := BitVec.ofNat 32 s.ie.toNat

/-- The interrupt output: `IRQ = CTRL.IE and (STATUS.DONE or STATUS.ERR)` (R162). -/
def State.irq (s : State) : Bool := s.ie && (s.done || s.err)

/-- The level of the platform's line `line` as this unit drives it: IRQ on `IRQ_LINE`, nothing on any
other (R162). -/
def State.irqOnLine (s : State) (line : Nat) : Bool := decide (line = s.cfg.irqLine) && s.irq

/-- `PEQ`'s flag: `req(a, b)`, 1 when every coefficient agrees (40_ring R87). -/
def req (p : Params) (a b : Elt) : Bool := (List.range p.n).all fun j => coef a j == coef b j

end Sys2Proof.Machine
end

