-- ==== Sys2Proof/Machine/Ring.lean ====
section
/-! DEFINITION. Machine/Ring.lean: the commands of 40_ring section 3. Each checks its slot fields
(30_encoding R78 step 3), reads its sources whole, RS1 first, then writes (40_ring R90). -/

namespace Sys2Proof.Machine

/-- NOP (R92). -/
def execNop (s : State) : Result := complete s

/-- PZERO (R93). -/
def execPzero (rd : Nat) (s : State) : Result :=
  requireSlots s [rd] (complete (s.writeSlot rd (rzero s.cfg)))

/-- PCONST (R94). -/
def execPconst (rd : Nat) (s : State) : Result :=
  requireSlots s [rd] (complete (s.writeSlot rd (rconst s.cfg s.scalar)))

/-- PCOPY (R95). -/
def execPcopy (rd rs1 : Nat) (s : State) : Result :=
  requireSlots s [rd, rs1] (withSlot s rs1 fun a => complete (s.writeSlot rd a))

/-- PADD (R96). -/
def execPadd (rd rs1 rs2 : Nat) (s : State) : Result :=
  requireSlots s [rd, rs1, rs2] (withSlot s rs1 fun a => withSlot s rs2 fun b =>
    complete (s.writeSlot rd (radd s.cfg a b)))

/-- PSUB (R97). -/
def execPsub (rd rs1 rs2 : Nat) (s : State) : Result :=
  requireSlots s [rd, rs1, rs2] (withSlot s rs1 fun a => withSlot s rs2 fun b =>
    complete (s.writeSlot rd (rsub s.cfg a b)))

/-- PNEG (R98). -/
def execPneg (rd rs1 : Nat) (s : State) : Result :=
  requireSlots s [rd, rs1] (withSlot s rs1 fun a => complete (s.writeSlot rd (rneg s.cfg a)))

/-- PSCALE (R99). -/
def execPscale (rd rs1 : Nat) (s : State) : Result :=
  requireSlots s [rd, rs1] (withSlot s rs1 fun a =>
    complete (s.writeSlot rd (rscale s.cfg s.scalar a)))

/-- PMUL (R100). -/
def execPmul (rd rs1 rs2 : Nat) (s : State) : Result :=
  requireSlots s [rd, rs1, rs2] (withSlot s rs1 fun a => withSlot s rs2 fun b =>
    complete (s.writeSlot rd (rmul s.cfg a b)))

/-- PEQ: the result goes to STATUS.EQ and no slot is written (R101). -/
def execPeq (rs1 rs2 : Nat) (s : State) : Result :=
  requireSlots s [rs1, rs2] (withSlot s rs1 fun a => withSlot s rs2 fun b =>
    complete (s.setEq (req s.cfg a b)))

end Sys2Proof.Machine
end

