-- ==== Sys2Proof/Machine/Dispatch.lean ====
section
/-! DEFINITION. Machine/Dispatch.lean: one arm per command. `exec` is steps 3 to 5 of 30_encoding R78
and the outcome of 10_state R50, for a state whose latch the unit step has emptied. -/

namespace Sys2Proof.Machine

def exec (i : Instr) (s : State) : Host.Outcome State Fault Refusal :=
  match i with
  | .nop => Sys2Proof.Machine.execNop s
  | .pzero rd => Sys2Proof.Machine.execPzero rd s
  | .pconst rd => Sys2Proof.Machine.execPconst rd s
  | .pcopy rd rs1 => Sys2Proof.Machine.execPcopy rd rs1 s
  | .padd rd rs1 rs2 => Sys2Proof.Machine.execPadd rd rs1 rs2 s
  | .psub rd rs1 rs2 => Sys2Proof.Machine.execPsub rd rs1 rs2 s
  | .pneg rd rs1 => Sys2Proof.Machine.execPneg rd rs1 s
  | .pscale rd rs1 => Sys2Proof.Machine.execPscale rd rs1 s
  | .pmul rd rs1 rs2 => Sys2Proof.Machine.execPmul rd rs1 rs2 s
  | .peq rs1 rs2 => Sys2Proof.Machine.execPeq rs1 rs2 s
  | .sunif rd => Sys2Proof.Machine.execSunif rd s
  | .snoise rd => Sys2Proof.Machine.execSnoise rd s
  | .cenc rd => Sys2Proof.Machine.execCenc rd s
  | .cdec rs1 => Sys2Proof.Machine.execCdec rs1 s
  | .keygen => Sys2Proof.Machine.execKeygen s
  | .encrypt => Sys2Proof.Machine.execEncrypt s
  | .decrypt => Sys2Proof.Machine.execDecrypt s

end Sys2Proof.Machine
end

