-- ==== Sys2Proof/Machine/HostAccess.lean ====
section
/-! DEFINITION. Machine/HostAccess.lean: every host load and store (44_host_access): the dispatch order
(R138), the map (10_state R26, 20_memory R54), the busy rules (R142, R143) and each register's and
window's own rule. A host access is always answered; it never stops the machine. -/

namespace Sys2Proof.Machine

/-- The control and parameter registers of 10_state R26. -/
inductive Reg where
  | id | paramQ | paramN | paramK | paramEta | paramNslot | paramDec
  | cmd | arg | status | ctrl | abase | tbase | sbase | ubase | vslot
deriving DecidableEq, Repr

/-- What an offset of the window names (R26). -/
inductive Target where
  | reg (r : Reg)
  | msg (w : Nat)
  | pmem (s j : Nat)
  | pmems (s j : Nat)
deriving DecidableEq, Repr

/-- ID's constant (10_state R27). -/
def idWord : Word := 0x50444C01#32

/-- The window's size, `2^22` bytes (20_memory R53). -/
def windowBytes : Nat := 4194304

/-- A register's offset (R26). -/
def Reg.offset : Reg → Nat
  | .id => 0x000
  | .paramQ => 0x004
  | .paramN => 0x008
  | .paramK => 0x00C
  | .paramEta => 0x010
  | .paramNslot => 0x014
  | .paramDec => 0x018
  | .cmd => 0x020
  | .arg => 0x024
  | .status => 0x028
  | .ctrl => 0x02C
  | .abase => 0x030
  | .tbase => 0x034
  | .sbase => 0x038
  | .ubase => 0x03C
  | .vslot => 0x040

/-- The offset of a target (R26). -/
def Target.offset : Target → Nat
  | .reg r => r.offset
  | .msg w => 0x200 + 4 * w
  | .pmem s j => 0x100000 + 0x1000 * s + 4 * j
  | .pmems s j => 0x200000 + 0x1000 * s + 4 * j

/-- The register at an offset below `0x200`; the gaps are unmapped (R26, R140). -/
def regAt (off : Nat) : Option Reg :=
  match off with
  | 0x000 => some .id
  | 0x004 => some .paramQ
  | 0x008 => some .paramN
  | 0x00C => some .paramK
  | 0x010 => some .paramEta
  | 0x014 => some .paramNslot
  | 0x018 => some .paramDec
  | 0x020 => some .cmd
  | 0x024 => some .arg
  | 0x028 => some .status
  | 0x02C => some .ctrl
  | 0x030 => some .abase
  | 0x034 => some .tbase
  | 0x038 => some .sbase
  | 0x03C => some .ubase
  | 0x040 => some .vslot
  | _ => none

/-- Slot `addr[19:12]` of a window offset (20_memory R54). -/
def slotOf (off : Nat) : Nat := off / 0x1000 % 256

/-- Coefficient `addr[11:2]` of a window offset (20_memory R54). -/
def coeffOf (off : Nat) : Nat := off / 4 % 1024

/-- The map of an aligned offset (R26, R54); none is unmapped (R140). -/
def mapOffset (p : Params) (off : Nat) : Option Target :=
  if off < 0x200 then (regAt off).map Target.reg
  else if off < 0x280 then
    if (off - 0x200) / 4 < p.msgw then some (.msg ((off - 0x200) / 4)) else none
  else if off < 0x100000 then none
  else if off < 0x200000 then
    if slotOf off < p.nslot ∧ coeffOf off < p.n then some (.pmem (slotOf off) (coeffOf off)) else none
  else if off < 0x300000 then
    if slotOf off < p.nslot ∧ coeffOf off < p.n then some (.pmems (slotOf off) (coeffOf off)) else none
  else none

/-- The read-only registers (R26, R141). -/
def Target.readOnly : Target → Bool
  | .reg .id | .reg .paramQ | .reg .paramN | .reg .paramK | .reg .paramEta | .reg .paramNslot
  | .reg .paramDec | .reg .status => true
  | _ => false

/-- What a write while BUSY is dropped for: every writable target but CTRL (R26's RWB, R142). -/
def Target.busyDrops : Target → Bool
  | .reg .ctrl => false
  | _ => true

/-- What a read while BUSY returns an unspecified word for: the windows (R143). -/
def Target.isWindow : Target → Bool
  | .reg _ => false
  | .msg _ | .pmem _ _ | .pmems _ _ => true

/-! ### Reads -/

/-- A register's current value (R144). -/
def State.readReg (s : State) : Reg → Word
  | .id => idWord
  | .paramQ => BitVec.ofNat 32 s.cfg.q
  | .paramN => BitVec.ofNat 32 s.cfg.n
  | .paramK => BitVec.ofNat 32 s.cfg.k
  | .paramEta => BitVec.ofNat 32 s.cfg.eta
  | .paramNslot => BitVec.ofNat 32 s.cfg.nslot
  | .paramDec => BitVec.ofNat 32 s.cfg.decTie.toNat
  | .cmd => s.cmd
  | .arg => s.arg
  | .status => s.statusWord
  | .ctrl => s.ctrlWord
  | .abase => s.layout.abase.setWidth 32
  | .tbase => s.layout.tbase.setWidth 32
  | .sbase => s.layout.sbase.setWidth 32
  | .ubase => s.layout.ubase.setWidth 32
  | .vslot => s.layout.vslot.setWidth 32

/-- The message bits that MSG word `w` maps (R149). -/
def msgWordBits (p : Params) (w : Nat) : List Nat :=
  ((List.range 32).map fun i => 32 * w + i).filter fun j => decide (j < p.n)

/-- The word whose bit `i` is `bits[i]`, and 0 beyond them. -/
def wordOfBits (bits : List Bool) : Word := (BitVec.ofBoolListLE bits).setWidth 32

/-- MSG word `w`: the mapped bits, in order, and 0 above them (R59, R149). -/
def State.readMsgWord (s : State) (w : Nat) : Except Uninit Word :=
  match readEach s.readBit (msgWordBits s.cfg w) with
  | .ok bits => .ok (wordOfBits bits)
  | .error u => .error u

/-- The centred integer of a coefficient: `c` up to HALF, else `c - Q` (R152). -/
def centred (p : Params) (c : Nat) : Int := if c ≤ p.half then (c : Int) else (c : Int) - p.q

/-- What a target holds, as the word a host reads while the unit is idle (R144, R149, R150, R152). -/
def State.readTarget (s : State) : Target → Except Uninit Word
  | .reg r => .ok (s.readReg r)
  | .msg w => s.readMsgWord w
  | .pmem i j =>
    match s.readCell i j with
    | .ok c => .ok (BitVec.ofNat 32 c)
    | .error u => .error u
  | .pmems i j =>
    match s.readCell i j with
    | .ok c => .ok (BitVec.ofInt 32 (centred s.cfg c))
    | .error u => .error u

/-- An unspecified word, fresh at every read (R143; log 8). -/
def State.answerFree (s : State) : State :=
  (s.setAnswer (.data (Config.freeWord s.freeReads))).takeFreeRead

/-- A mapped read (R138 steps 4 and 5): a window read while BUSY is unspecified (R143); an unwritten
place is recorded and the word is unspecified (60_exceptions R159 (b)). -/
def State.hostRead (s : State) (t : Target) : State :=
  if s.busy && t.isWindow then s.answerFree
  else
    match s.readTarget t with
    | .ok v => s.setAnswer (.data v)
    | .error u => (s.recordFault u).answerFree

/-! ### Writes -/

/-- Write to CMD while idle: issue a command (R145). -/
def State.issue (s : State) (v : Word) : State := { s with cmd := v, pending := some v, done := false }

/-- Write to ARG while idle (R146). -/
def State.setArg (s : State) (v : Word) : State := { s with arg := v }

/-- Write the layout registers (R147). -/
def State.setLayout (s : State) (l : Layout) : State := { s with layout := l }

/-- `CTRL.IE <- b` (R148). -/
def State.setIe (s : State) (b : Bool) : State := { s with ie := b }

/-- Bits 7:0 of a word (R147). -/
def lowByte (v : Word) : Byte := v.extractLsb' 0 8

/-- Write to CTRL: SRST resets and the other bits are not applied; else IE is written and CLR clears
(R148, 10_state R40, R41, R42). -/
def State.writeCtrl (s : State) (v : Word) : State :=
  if v.getLsbD 31 then s.resetUnit
  else if v.getLsbD 1 then (s.setIe (v.getLsbD 0)).clearFlags
  else s.setIe (v.getLsbD 0)

/-- Write to a register (R145 to R148). A read-only register is never reached (R141). -/
def State.writeReg (s : State) (r : Reg) (v : Word) : State :=
  match r with
  | .cmd => s.issue v
  | .arg => s.setArg v
  | .ctrl => s.writeCtrl v
  | .abase => s.setLayout { s.layout with abase := lowByte v }
  | .tbase => s.setLayout { s.layout with tbase := lowByte v }
  | .sbase => s.setLayout { s.layout with sbase := lowByte v }
  | .ubase => s.setLayout { s.layout with ubase := lowByte v }
  | .vslot => s.setLayout { s.layout with vslot := lowByte v }
  | .id | .paramQ | .paramN | .paramK | .paramEta | .paramNslot | .paramDec | .status => s

/-- Write to MSG word `w`: the mapped bits take the word's bits, the others are ignored (R149). -/
def State.writeMsgWord (s : State) (w : Nat) (v : Word) : State :=
  s.setMsg (writeBits s.msg (fun j => v.getLsbD (j - 32 * w)) (msgWordBits s.cfg w))

/-- A target's own write rule (R145 to R149, R151, R153): PMEM reduces the unsigned word, PMEMS the
signed word. -/
def State.writeTarget (s : State) (t : Target) (v : Word) : State :=
  match t with
  | .reg r => s.writeReg r v
  | .msg w => s.writeMsgWord w v
  | .pmem i j => s.writeCell i j (zmod s.cfg.q v.toNat)
  | .pmems i j => s.writeCell i j (zmod s.cfg.q v.toInt)

/-- A mapped write (R138 steps 3 to 5): a read-only register is a bus error (R141); while BUSY the
write is dropped, acknowledged and reported as error BUSY (R142). -/
def State.hostWrite (s : State) (off : Nat) (t : Target) (v : Word) : State :=
  if t.readOnly then s.setAnswer (.busError off)
  else if s.busy && t.busyDrops then (s.reportError .busy).setAnswer .ack
  else (s.writeTarget t v).setAnswer .ack

/-! ### The access -/

/-- An access at an offset of the window, decided in the order of R138. -/
def State.windowAccess (s : State) (off : Nat) (a : Access) : State :=
  match a with
  | .read _ size =>
    if size ≠ 4 ∨ off % 4 ≠ 0 then s.setAnswer (.busError off)
    else
      match mapOffset s.cfg off with
      | none => s.setAnswer (.busError off)
      | some t => s.hostRead t
  | .write _ size lanes v =>
    if size ≠ 4 ∨ off % 4 ≠ 0 ∨ lanes ≠ 0xF#4 then s.setAnswer (.busError off)
    else
      match mapOffset s.cfg off with
      | none => s.setAnswer (.busError off)
      | some t => s.hostWrite off t v

/-- The host address of an access. -/
def Access.addr : Access → Nat
  | .read addr _ => addr
  | .write addr _ _ _ => addr

/-- A host access: at an address outside the window it never reaches the unit (20_memory R53). -/
def hostAccess (a : Access) (s : State) : State :=
  if s.cfg.unitBase ≤ a.addr ∧ a.addr < s.cfg.unitBase + windowBytes then
    s.windowAccess (a.addr - s.cfg.unitBase) a
  else s

end Sys2Proof.Machine
end

