-- ==== Sys2Proof/Machine/Turn.lean ====
section
/-! DEFINITION. Machine/Turn.lean: the unit step (10_state R50) and one turn of the whole machine: the
next event of the bus's total order (20_memory R64). -/

namespace Sys2Proof.Machine

/-- The error code of a word that is no command: steps 1 and 2 of 30_encoding R78. -/
def decodeErrorCode : DecodeError → ErrCode
  | .illegalOpcode => .illegalOpcode
  | .reservedField => .reservedField

/-- The unit step (R50): the latch is emptied, then the word is validated and performed. With nothing
pending the unit has no step and nothing changes. -/
def unitStep (s : State) : Result :=
  match s.pending with
  | none => .next s
  | some w =>
    match decode w with
    | .ok i => exec i s.emptyPending
    | .error e => failCommand s.emptyPending (decodeErrorCode e)

/-- One turn: the oldest event of `bus`; with none left the unit moves if it can, so that a pending
command is always performed in the end (70_reset R186; log 1, log 3). -/
def turn (s : State) : Result :=
  match s.bus with
  | [] => unitStep s
  | .unit :: _ => unitStep s.dropEvent
  | .host a :: _ => .next (hostAccess a s.dropEvent)
  | .reset :: _ => .next s.dropEvent.resetUnit
  | .hostInReset _ :: _ => .fault .accessDuringReset

/-- A turn of a machine that can be built: an illegal configuration is refused (00_scope R6, 93 #11). -/
def legalTurn (s : State) : Result :=
  if s.cfg.legal then turn s else .refused .illegalConfig

/-- The latch holds `w` and the unit has the next turn: what an accepted CMD write and the bus's choice
of the unit leave for the unit step (R46, R145; log 2). -/
def placeCommand (s : State) (w : Word) : State :=
  { s with pending := some w, bus := .unit :: s.bus }

end Sys2Proof.Machine
end

