-- ==== Sys2Proof/Machine/Step.lean ====
section
/-! DEFINITION. Machine/Step.lean: one step of the machine, and the placing of a command word where the
next step performs it. -/

namespace Sys2Proof.Machine

/-- One step: one event of the total order of host accesses, unit steps and resets (20_memory R64). -/
def step (s : State) : Host.Outcome State Fault Refusal := legalTurn s

/-- The state whose very next step performs the command word that the opcode table numbers (log 2). -/
def State.withFetchWord (s : State) (nbits w : Nat) : State := placeCommand s (tableWord nbits w)

end Sys2Proof.Machine
end

