-- ==== Sys2Proof/Machine/HostProgram.lean ====
section
/-! DEFINITION. Machine/HostProgram.lean: what binds host programs, not the chip: the listing syntax
(30_encoding R79), the host operations and pseudo-operations as lists of bus events (R80, R81), and the
message-level codec of host software (42_codec R122 to R124). `step` uses none of it. -/

namespace Sys2Proof.Machine

/-- `s<number>` (R79). -/
def listSlot (i : Nat) : String := "s" ++ toString i

/-- A command as R79 lists it: the mnemonic, then the used fields in the order RD, RS1, RS2. -/
def listing : Instr → String
  | .nop => "NOP"
  | .pzero rd => "PZERO " ++ listSlot rd
  | .pconst rd => "PCONST " ++ listSlot rd
  | .pcopy rd rs1 => "PCOPY " ++ listSlot rd ++ ", " ++ listSlot rs1
  | .padd rd rs1 rs2 => "PADD " ++ listSlot rd ++ ", " ++ listSlot rs1 ++ ", " ++ listSlot rs2
  | .psub rd rs1 rs2 => "PSUB " ++ listSlot rd ++ ", " ++ listSlot rs1 ++ ", " ++ listSlot rs2
  | .pneg rd rs1 => "PNEG " ++ listSlot rd ++ ", " ++ listSlot rs1
  | .pscale rd rs1 => "PSCALE " ++ listSlot rd ++ ", " ++ listSlot rs1
  | .pmul rd rs1 rs2 => "PMUL " ++ listSlot rd ++ ", " ++ listSlot rs1 ++ ", " ++ listSlot rs2
  | .peq rs1 rs2 => "PEQ " ++ listSlot rs1 ++ ", " ++ listSlot rs2
  | .sunif rd => "SUNIF " ++ listSlot rd
  | .snoise rd => "SNOISE " ++ listSlot rd
  | .cenc rd => "CENC " ++ listSlot rd
  | .cdec rs1 => "CDEC " ++ listSlot rs1
  | .keygen => "KEYGEN"
  | .encrypt => "ENCRYPT"
  | .decrypt => "DECRYPT"

/-- `WR <target>, <value>` (R80): `MemWrite(offset, 4, value)` with every byte lane. -/
def wr (p : Params) (t : Target) (v : Word) : BusEvent :=
  .host (.write (p.unitBase + t.offset) 4 0xF#4 v)

/-- `RD <target>` (R80): `MemRead(offset, 4)`. -/
def rd (p : Params) (t : Target) : BusEvent := .host (.read (p.unitBase + t.offset) 4)

/-- `ISSUE <command>` (R81). -/
def issueCmd (p : Params) (i : Instr) : List BusEvent := [wr p (.reg .cmd) (encode i)]

/-- A run of `WAIT` (R81) in which the unit step comes after `m` polls that still read BUSY = 1. -/
def waitRun (p : Params) (m : Nat) : List BusEvent :=
  List.replicate m (rd p (.reg .status)) ++ [.unit, rd p (.reg .status)]

/-- `DO <command>` (R81): ISSUE, then WAIT. -/
def doCmd (p : Params) (i : Instr) (m : Nat) : List BusEvent := issueCmd p i ++ waitRun p m

/-- `PONE sD` (R81). -/
def pone (p : Params) (d m : Nat) : List BusEvent := wr p (.reg .arg) 1#32 :: doCmd p (.pconst d) m

/-- `ACK` (R81), keeping IE as given. -/
def ack (p : Params) (ie : Bool) : List BusEvent :=
  [wr p (.reg .ctrl) (BitVec.ofNat 32 ie.toNat ||| 2#32)]

/-- `LOADP sS, [c0, ...]` (R81). -/
def loadp (p : Params) (i : Nat) (a : List Word) : List BusEvent :=
  (List.range p.n).map fun j => wr p (.pmem i j) (a.getD j 0#32)

/-- `STOREP sS` (R81). -/
def storep (p : Params) (i : Nat) : List BusEvent := (List.range p.n).map fun j => rd p (.pmem i j)

/-- `LOADM [b0, ...]` (R81). -/
def loadm (p : Params) (m : List Bool) : List BusEvent :=
  (List.range p.msgw).map fun w => wr p (.msg w)
    (wordOfBits ((msgWordBits p w).map fun j => m.getD j false))

/-- The bit string of a message: bit `q` of byte `p` at `8*p + q` (42_codec R122). -/
def messageBits (bytes : List Byte) : List Bool :=
  bytes.flatMap fun b => (List.range 8).map fun q => b.getLsbD q

/-- `ceil(8*L/N)` (R122). -/
def blockCount (p : Params) (len : Nat) : Nat := (8 * len + p.n - 1) / p.n

/-- Block `b` of a message, zero-padded at the end (R122). -/
def messageBlock (p : Params) (bytes : List Byte) (b : Nat) : List Bool :=
  (List.range p.n).map fun i => (messageBits bytes).getD (b * p.n + i) false

/-- Every block of a message, in order (R122). -/
def splitMessage (p : Params) (bytes : List Byte) : List (List Bool) :=
  (List.range (blockCount p bytes.length)).map (messageBlock p bytes)

/-- `B = sum_{q in 0..7} bit[q] * 2^q` (R124). -/
def byteOfBits (bits : Nat → Bool) : Byte :=
  BitVec.ofNat 8 (((List.range 8).map fun q => (bits q).toNat * 2 ^ q).sum)

/-- Rejoin decrypted blocks into a message of `len` bytes; the padding bits are dropped (R124). -/
def joinMessage (blocks : List (List Bool)) (len : Nat) : List Byte :=
  (List.range len).map fun i => byteOfBits fun q => blocks.flatten.getD (8 * i + q) false

end Sys2Proof.Machine
end

