-- ==== Sys2Proof/Safety.lean ====
section
/-! DEFINITION. Safety.lean: what counts as a good state and a safe run, and the words the statements
use: what a slot or the message register holds, and what a command changed. -/

namespace Sys2Proof.Machine

/-- The invariant of the machine. -/
structure State.Inv (s : State) : Prop where
  /-- The configuration is one that is built (00_scope R6 to R10). -/
  legal : s.cfg.legal = true
  /-- The storage lists have their canonical form. -/
  wf : Memory.wf s = true
  /-- Every written cell is a cell of the slot file and holds a canonical coefficient (10_state R21,
  R22). -/
  cells : ∀ e ∈ s.cells, e.1.1 < s.cfg.nslot ∧ e.1.2 < s.cfg.n ∧ e.2 < s.cfg.q
  /-- Every written message bit is a bit of the register (10_state R25). -/
  msg : ∀ e ∈ s.msg, e.1 < s.cfg.n
  /-- ERRCODE is 0 exactly while ERR is 0 (10_state R35, R37; 60_exceptions R156). -/
  errcode : s.err = false ↔ s.errcode = .noError

/-- A safe run so far: no unwritten place has been read. A claim about a program takes this as a
premise (60_exceptions R159). -/
def State.noUninitRead (s : State) : Prop := s.faults = []

/-- Slot `i` is fully written and holds the coefficients `a`. -/
def State.SlotHolds (s : State) (i : Nat) (a : Nat → Nat) : Prop :=
  ∀ j, j < s.cfg.n → s.cell i j = some (a j)

/-- The run of `len` slots from `base` up is fully written: slot `base + i` holds `A i`. -/
def State.RunHolds (s : State) (base len : Nat) (A : Nat → Nat → Nat) : Prop :=
  ∀ i, i < len → s.SlotHolds (base + i) (A i)

/-- The message register is fully written and holds the bits `m`. -/
def State.MsgHolds (s : State) (m : Nat → Bool) : Prop :=
  ∀ j, j < s.cfg.n → s.msgBit j = some (m j)

/-- Every cell of slot `i` is written (10_state R23). -/
def State.SlotWritten (s : State) (i : Nat) : Prop := ∀ j, j < s.cfg.n → (s.cell i j).isSome = true

/-- Every cell of the `len` slots from `base` up is written. -/
def State.RunWritten (s : State) (base len : Nat) : Prop := ∀ i, i < len → s.SlotWritten (base + i)

/-- Coefficient `j` is the first unwritten cell of slot `i`. -/
def State.FirstUnwritten (s : State) (i j : Nat) : Prop :=
  j < s.cfg.n ∧ (∀ j', j' < j → (s.cell i j').isSome = true) ∧ s.cell i j = none

/-- Bit `j` is the first unwritten bit of the message register. -/
def State.FirstUnwrittenBit (s : State) (j : Nat) : Prop :=
  j < s.cfg.n ∧ (∀ j', j' < j → (s.msgBit j').isSome = true) ∧ s.msgBit j = none

/-- The ring element with the coefficients `a`. -/
def eltFrom (p : Params) (a : Nat → Nat) : Elt := (List.range p.n).map a

/-- The `m` ring elements with the coefficients `A`. -/
def eltsFrom (p : Params) (m : Nat) (A : Nat → Nat → Nat) : List Elt :=
  (List.range m).map fun i => eltFrom p (A i)

/-- The block with the bits `m`. -/
def blockFrom (p : Params) (m : Nat → Bool) : List Bool := (List.range p.n).map m

/-- From `s` to `t` a command wrote slot `rd` with the coefficients `f` and set DONE: no other cell
and no other field changed. -/
def WroteSlot (s t : State) (rd : Nat) (f : Nat → Nat) : Prop :=
  t = { s with cells := t.cells, done := true }
    ∧ (∀ j, j < s.cfg.n → t.cell rd j = some (f j))
    ∧ ∀ i j, (i ≠ rd ∨ s.cfg.n ≤ j) → t.cell i j = s.cell i j

/-- From `s` to `t` a command wrote the message register with the bits `f` and set DONE: no other
field changed. -/
def WroteMsg (s t : State) (f : Nat → Bool) : Prop :=
  t = { s with msg := t.msg, done := true }
    ∧ (∀ j, j < s.cfg.n → t.msgBit j = some (f j))
    ∧ ∀ j, s.cfg.n ≤ j → t.msgBit j = s.msgBit j

/-- The next event is the unit's turn: the bus chose it, or nothing else is left (20_memory R64, 70_reset
R186). -/
def State.unitTurn (s : State) : Prop := s.bus = [] ∨ ∃ rest, s.bus = .unit :: rest

/-- The error report c, and nothing else (60_exceptions R156). -/
def State.reported (s : State) (c : ErrCode) : State :=
  { s with err := true, errcode := if s.err = true then s.errcode else c }

/-- Coefficient `m` of the product of `a` and `b` modulo `X^n + 1`, as an integer: the products of
degree `m`, less those of degree `m + n` (40_ring R86). -/
def negacyclic (n : Nat) (a b : Nat → Nat) (m : Nat) : Int :=
  (∑ i ∈ Finset.range n, ∑ j ∈ Finset.range n, if i + j = m then (a i : Int) * b j else 0)
    - ∑ i ∈ Finset.range n, ∑ j ∈ Finset.range n, if i + j = m + n then (a i : Int) * b j else 0

/-- How many of the `m` coins from draw `c` on are 1. -/
def coinsUp (c m : Nat) : Nat := ((Finset.range m).filter fun i => Config.freeCoin (c + i) = true).card

/-- Coefficient `j` of the noise element drawn from draw `c` on: ETA coins less ETA coins, mod Q
(41_sampler R108, R109). -/
def noiseCoef (p : Params) (c j : Nat) : Nat :=
  zmod p.q ((coinsUp (c + 2 * p.eta * j) p.eta : Int) - coinsUp (c + 2 * p.eta * j + p.eta) p.eta)

/-- Coefficient `j` of the uniform element drawn from draw `c` on (41_sampler R107). -/
def uniformCoef (p : Params) (c j : Nat) : Nat := Config.freeUniform (c + j) % p.q

/-- The bit a coefficient decodes to (42_codec R114). -/
def decodedBit (p : Params) (c : Nat) : Bool :=
  if p.q % 4 = 3 ∧ 4 * c = 3 * p.q - 1 then p.decTie
  else decide (p.q < 4 * c) && decide (4 * c ≤ 3 * p.q)

/-- Two runs of slots, given by base and length, have a slot in common (43_pke R128). -/
def runsMeet (b1 l1 b2 l2 : Nat) : Prop := ∃ i, (b1 ≤ i ∧ i < b1 + l1) ∧ (b2 ≤ i ∧ i < b2 + l2)

/-- A ring element of the machine: N canonical coefficients (10_state R22, 00_scope R17). -/
def IsElt (p : Params) (a : Elt) : Prop := a.length = p.n ∧ ∀ j, coef a j < p.q

/-- A small-noise element (41_sampler R109): each coefficient is `x mod Q` for an integer
`-ETA <= x <= ETA`. -/
def IsNoise (p : Params) (a : Elt) : Prop :=
  a.length = p.n ∧ ∀ j, j < p.n → ∃ x : Int, -(p.eta : Int) ≤ x ∧ x ≤ p.eta ∧ coef a j = zmod p.q x

/-- A target of the window that the configuration has (10_state R26). -/
def Target.mapped (p : Params) : Target → Bool
  | .reg _ => true
  | .msg w => decide (w < p.msgw)
  | .pmem i j | .pmems i j => decide (i < p.nslot) && decide (j < p.n)

/-- The read of a target that a host makes (30_encoding R80). -/
def readOf (p : Params) (t : Target) : Access := .read (p.unitBase + t.offset) 4

/-- The write of a target that a host makes (30_encoding R80). -/
def writeOf (p : Params) (t : Target) (v : Word) : Access := .write (p.unitBase + t.offset) 4 0xF#4 v

end Sys2Proof.Machine
end

