-- ==== Sys2Proof/Certificates/Slice0/Obligations.lean ====
section
/-! DEFINITION. Certificates/Slice0/Obligations.lean: the statements, in the order of the spec's files:
encoding, the unit step, the commands, the errors and flags, the host's accesses, reset, the machine's
invariants, and the laws of the ring, the codec and the engines. -/

open Sys2Proof Sys2Proof.Machine

/-! ### Encoding (30_encoding) -/

/-- Decoding the word of a well-formed command gives the command back, with every operand at every value
its field admits (R70, R71, R74). -/
def Obligations.DecodeOfEncodeIsTheCommand : Prop :=
  ∀ i : Instr, i.wellFormed = true → decode (encode i) = .ok i

/-- Every accepted word is the word of the command it decodes to, and that command is well formed (R70,
R77): no bit of an accepted word is dropped. -/
def Obligations.EncodeOfDecodeIsTheWord : Prop :=
  ∀ (w : Word) (i : Instr), decode w = .ok i → encode i = w ∧ i.wellFormed = true

/-- R75: the table of match and mask, that a word selects a row exactly when `w & mask = match`, and
that no two rows overlap. -/
def Obligations.WordSelectsRowByMaskAndMatch : Prop :=
  ((([.nop, .pzero 0, .pconst 0, .pcopy 0 0, .padd 0 0 0, .psub 0 0 0, .pneg 0 0, .pscale 0 0] : List Instr)
      ++ ([.pmul 0 0 0, .peq 0 0, .sunif 0, .snoise 0, .cenc 0, .cdec 0, .keygen, .encrypt, .decrypt] :
        List Instr)).map fun i : Instr => (i.rowMatch, i.rowMask))
    = [(0x00000000#32, 0xFFFFFFFF#32), (0x00000001#32, 0xFFFF00FF#32), (0x00000002#32, 0xFFFF00FF#32),
        (0x00000003#32, 0xFF0000FF#32), (0x00000010#32, 0x000000FF#32), (0x00000011#32, 0x000000FF#32),
        (0x00000012#32, 0xFF0000FF#32), (0x00000013#32, 0xFF0000FF#32)]
      ++ [(0x00000014#32, 0x000000FF#32), (0x00000018#32, 0x0000FFFF#32), (0x00000020#32, 0xFFFF00FF#32),
        (0x00000021#32, 0xFFFF00FF#32), (0x00000030#32, 0xFFFF00FF#32), (0x00000031#32, 0xFF00FFFF#32),
        (0x00000040#32, 0xFFFFFFFF#32), (0x00000041#32, 0xFFFFFFFF#32), (0x00000042#32, 0xFFFFFFFF#32)]
  ∧ (∀ (w : Word) (i : Instr), w &&& i.rowMask = i.rowMatch ↔
      ∃ i', decode w = .ok i' ∧ i'.rowMatch = i.rowMatch ∧ i'.rowMask = i.rowMask)
  ∧ ∀ (w : Word) (i i' : Instr), w &&& i.rowMask = i.rowMatch → w &&& i'.rowMask = i'.rowMatch →
      i.opcode = i'.opcode

/-- R76: the illegal opcodes are exactly the listed 239, and a pending word with one of them ends in
ILLEGAL_OPCODE and changes nothing but STATUS (its latch is emptied and its turn is over). -/
def Obligations.IllegalOpcodeIsReported : Prop :=
  (∀ w : Word, decode w = .error .illegalOpcode ↔
    (let o := (opcOf w).toNat
     (0x04 ≤ o ∧ o ≤ 0x0F) ∨ (0x15 ≤ o ∧ o ≤ 0x17) ∨ (0x19 ≤ o ∧ o ≤ 0x1F) ∨ (0x22 ≤ o ∧ o ≤ 0x2F)
      ∨ (0x32 ≤ o ∧ o ≤ 0x3F) ∨ (0x43 ≤ o ∧ o ≤ 0xFF)))
  ∧ ((Finset.range 256).filter fun o => decode (BitVec.ofNat 32 o) = .error .illegalOpcode).card = 239
  ∧ ∀ (s : State) (w : Word), s.cfg.legal = true → s.unitTurn → s.pending = some w →
      decode w = .error .illegalOpcode →
      step s = .next { s.reported .illegalOpcode with pending := none, bus := s.bus.tail }

/-- R77: a defined opcode with `w & mask != match` is always RESERVED_FIELD, and changes nothing but
STATUS (its latch is emptied and its turn is over). -/
def Obligations.ReservedFieldIsReported : Prop :=
  (∀ (w : Word) (i : Instr), opcOf w = i.opcode → w &&& i.rowMask ≠ i.rowMatch →
    decode w = .error .reservedField)
  ∧ ∀ (s : State) (w : Word), s.cfg.legal = true → s.unitTurn → s.pending = some w →
      decode w = .error .reservedField →
      step s = .next { s.reported .reservedField with pending := none, bus := s.bus.tail }

/-- Words the spec writes out decode to the commands it names (95_test_vectors V-E1). -/
def Obligations.ListedWordsDecode : Prop :=
  decode 0x00000000#32 = .ok .nop ∧ decode 0x00000301#32 = .ok (.pzero 3)
  ∧ decode 0x00000103#32 = .ok (.pcopy 1 0) ∧ decode 0x0B0A0D11#32 = .ok (.psub 13 10 11)
  ∧ decode 0x01000214#32 = .ok (.pmul 2 0 1) ∧ decode 0x04030018#32 = .ok (.peq 3 4)
  ∧ decode 0x00000521#32 = .ok (.snoise 5) ∧ decode 0x00060031#32 = .ok (.cdec 6)
  ∧ decode 0x00000041#32 = .ok .encrypt

/-! ### The unit step (10_state R50) -/

/-- When the latch holds the word of a command and it is the unit's turn, the step empties the latch,
consumes the turn and performs exactly that command. The turn itself is the model's: whose it is stands in
the list of events (log 1). The second clause is the model's choice and no rule of the spec: where the unit
has no step because nothing is pending, its turn passes and nothing else changes (log 3). -/
def Obligations.StepRunsTheDecodedCommand : Prop :=
  ∀ s : State, s.cfg.legal = true → s.unitTurn →
    (∀ (w : Word) (i : Instr), s.pending = some w → decode w = .ok i →
      step s = exec i { s with pending := none, bus := s.bus.tail })
    ∧ (s.pending = none → step s = .next { s with bus := s.bus.tail })

/-! ### Ring commands (40_ring section 3): result, completion and frame -/

/-- NOP sets DONE and changes nothing else. -/
def Obligations.NopOnlySetsDone : Prop := ∀ s : State, exec .nop s = .next { s with done := true }

/-- PZERO writes the zero element and nothing else. -/
def Obligations.PzeroWritesZero : Prop :=
  ∀ (s : State) (rd : Nat), rd < s.cfg.nslot →
    ∃ t, exec (.pzero rd) s = .next t ∧ WroteSlot s t rd fun _ => 0

/-- PCONST writes `ARG mod Q`, ARG taken as unsigned, into coefficient 0 and zero elsewhere. -/
def Obligations.PconstWritesTheScalar : Prop :=
  ∀ (s : State) (rd : Nat), rd < s.cfg.nslot →
    ∃ t, exec (.pconst rd) s = .next t
      ∧ WroteSlot s t rd fun j => if j = 0 then s.arg.toNat % s.cfg.q else 0

/-- PCOPY writes the source's coefficients. -/
def Obligations.PcopyCopiesTheSlot : Prop :=
  ∀ (s : State) (rd rs1 : Nat) (a : Nat → Nat), rd < s.cfg.nslot → rs1 < s.cfg.nslot →
    s.SlotHolds rs1 a → ∃ t, exec (.pcopy rd rs1) s = .next t ∧ WroteSlot s t rd a

/-- PADD writes the coefficient-wise sum mod Q; the destination may be a source. -/
def Obligations.PaddWritesTheSum : Prop :=
  ∀ (s : State) (rd rs1 rs2 : Nat) (a b : Nat → Nat), rd < s.cfg.nslot → rs1 < s.cfg.nslot →
    rs2 < s.cfg.nslot → s.SlotHolds rs1 a → s.SlotHolds rs2 b →
    ∃ t, exec (.padd rd rs1 rs2) s = .next t ∧ WroteSlot s t rd fun j => (a j + b j) % s.cfg.q

/-- PSUB writes `RS1 - RS2` mod Q, never negative. -/
def Obligations.PsubWritesTheDifference : Prop :=
  ∀ (s : State) (rd rs1 rs2 : Nat) (a b : Nat → Nat), rd < s.cfg.nslot → rs1 < s.cfg.nslot →
    rs2 < s.cfg.nslot → s.SlotHolds rs1 a → s.SlotHolds rs2 b →
    ∃ t, exec (.psub rd rs1 rs2) s = .next t
      ∧ WroteSlot s t rd fun j => (((a j : Int) - b j) % (s.cfg.q : Int)).toNat

/-- PNEG writes 0 for a zero coefficient and `Q - a[j]` elsewhere, for canonical coefficients. -/
def Obligations.PnegWritesTheNegation : Prop :=
  ∀ (s : State) (rd rs1 : Nat) (a : Nat → Nat), rd < s.cfg.nslot → rs1 < s.cfg.nslot →
    s.SlotHolds rs1 a → (∀ j, j < s.cfg.n → a j < s.cfg.q) →
    ∃ t, exec (.pneg rd rs1) s = .next t
      ∧ WroteSlot s t rd fun j => if a j = 0 then 0 else s.cfg.q - a j

/-- PSCALE writes `(ARG mod Q) * a[j] mod Q`. -/
def Obligations.PscaleWritesTheMultiple : Prop :=
  ∀ (s : State) (rd rs1 : Nat) (a : Nat → Nat), rd < s.cfg.nslot → rs1 < s.cfg.nslot →
    s.SlotHolds rs1 a →
    ∃ t, exec (.pscale rd rs1) s = .next t
      ∧ WroteSlot s t rd fun j => (s.arg.toNat % s.cfg.q) * a j % s.cfg.q

/-- PMUL writes the product modulo `X^N + 1`, reduced mod Q. -/
def Obligations.PmulWritesTheNegacyclicProduct : Prop :=
  ∀ (s : State) (rd rs1 rs2 : Nat) (a b : Nat → Nat), rd < s.cfg.nslot → rs1 < s.cfg.nslot →
    rs2 < s.cfg.nslot → s.SlotHolds rs1 a → s.SlotHolds rs2 b →
    ∃ t, exec (.pmul rd rs1 rs2) s = .next t
      ∧ WroteSlot s t rd fun m => (negacyclic s.cfg.n a b m % (s.cfg.q : Int)).toNat

/-- PEQ sets EQ to whether every coefficient agrees, sets DONE, and changes nothing else. -/
def Obligations.PeqComparesIntoEq : Prop :=
  ∀ (s : State) (rs1 rs2 : Nat) (a b : Nat → Nat), rs1 < s.cfg.nslot → rs2 < s.cfg.nslot →
    s.SlotHolds rs1 a → s.SlotHolds rs2 b →
    ∃ t, exec (.peq rs1 rs2) s = .next t
      ∧ t = { s with eq := t.eq, done := true }
      ∧ (t.eq = true ↔ ∀ j, j < s.cfg.n → a j = b j)

/-! ### Sampler and codec commands (41_sampler section 3, 42_codec section 3) -/

/-- SUNIF writes N fresh draws, coefficient 0 first, each in `[0, Q)`, and the oracle has then answered N
draws more. The draws are free values (log 7). -/
def Obligations.SunifWritesFreshUniformDraws : Prop :=
  ∀ (s : State) (rd : Nat), rd < s.cfg.nslot → 0 < s.cfg.q →
    ∃ t, exec (.sunif rd) s = .next t
      ∧ WroteSlot { s with draws := s.draws + s.cfg.n } t rd (uniformCoef s.cfg s.draws)
      ∧ ∀ j, uniformCoef s.cfg s.draws j < s.cfg.q

/-- SNOISE writes N centred binomial samples from `2*ETA*N` fresh coins, each a residue in
`{0..ETA}` or `{Q-ETA..Q-1}`. The coins are free values (log 7). -/
def Obligations.SnoiseWritesCentredBinomialNoise : Prop :=
  ∀ (s : State) (rd : Nat), rd < s.cfg.nslot → s.cfg.legal = true →
    ∃ t, exec (.snoise rd) s = .next t
      ∧ WroteSlot { s with draws := s.draws + 2 * s.cfg.eta * s.cfg.n } t rd (noiseCoef s.cfg s.draws)
      ∧ ∀ j, noiseCoef s.cfg s.draws j ≤ s.cfg.eta
          ∨ (s.cfg.q - s.cfg.eta ≤ noiseCoef s.cfg s.draws j ∧ noiseCoef s.cfg s.draws j < s.cfg.q)

/-- CENC writes `floor(Q/2)` for a 1 bit and 0 for a 0 bit, and leaves the message register alone. -/
def Obligations.CencEncodesTheMessage : Prop :=
  ∀ (s : State) (rd : Nat) (m : Nat → Bool), rd < s.cfg.nslot → s.MsgHolds m →
    ∃ t, exec (.cenc rd) s = .next t ∧ WroteSlot s t rd fun i => if m i = true then s.cfg.q / 2 else 0

/-- CDEC writes every message bit with the decoded coefficient, whatever the coefficients are, and no
slot. -/
def Obligations.CdecDecodesTheSlot : Prop :=
  ∀ (s : State) (rs1 : Nat) (a : Nat → Nat), rs1 < s.cfg.nslot → s.SlotHolds rs1 a →
    ∃ t, exec (.cdec rs1) s = .next t ∧ WroteMsg s t fun i => decodedBit s.cfg (a i)

/-! ### The engines (43_pke) -/

/-- KEYGEN, with its runs below NSLOT and pairwise disjoint, draws A, s and e in that order, writes A, s
and `t = A s + e`, sets DONE, and changes no other cell and no other field. -/
def Obligations.KeygenWritesAKeyPair : Prop :=
  ∀ s : State, s.cfg.legal = true →
    (let p := s.cfg
     let ab := s.layout.abase.toNat
     let tb := s.layout.tbase.toNat
     let sb := s.layout.sbase.toNat
     let noise := 2 * p.eta * p.n
     let A := fun i j => uniformCoef p (s.draws + (i * p.k + j) * p.n)
     let S := fun j => noiseCoef p (s.draws + p.k * p.k * p.n + j * noise)
     let E := fun i => noiseCoef p (s.draws + p.k * p.k * p.n + p.k * noise + i * noise)
     ab + p.k * p.k ≤ p.nslot → tb + p.k ≤ p.nslot → sb + p.k ≤ p.nslot →
     ¬ runsMeet ab (p.k * p.k) tb p.k → ¬ runsMeet ab (p.k * p.k) sb p.k → ¬ runsMeet tb p.k sb p.k →
     ∃ t, exec .keygen s = .next t
      ∧ t = { s with cells := t.cells, done := true,
                     draws := s.draws + (p.k * p.k * p.n + 2 * p.k * noise) }
      ∧ (∀ i j m, i < p.k → j < p.k → m < p.n → t.cell (ab + i * p.k + j) m = some (A i j m))
      ∧ (∀ i m, i < p.k → m < p.n → t.cell (tb + i) m
          = some (((∑ j ∈ Finset.range p.k, negacyclic p.n (A i j) (S j) m + E i m) % (p.q : Int)).toNat))
      ∧ (∀ j m, j < p.k → m < p.n → t.cell (sb + j) m = some (S j m))
      ∧ ∀ x m, (p.n ≤ m ∨ ¬ ((ab ≤ x ∧ x < ab + p.k * p.k) ∨ (tb ≤ x ∧ x < tb + p.k)
          ∨ (sb ≤ x ∧ x < sb + p.k))) → t.cell x m = s.cell x m)

/-- ENCRYPT, with its runs below NSLOT, its output runs disjoint and its inputs written, draws r, e1 and
e2 in that order, writes `u = A^T r + e1` and `v = t r + e2 + encode(m)` from the inputs as they were
before (an output may overwrite an input), sets DONE, and changes no other cell and no other field. -/
def Obligations.EncryptWritesACiphertext : Prop :=
  ∀ (s : State) (A T : Nat → Nat → Nat) (msg : Nat → Bool), s.cfg.legal = true →
    (let p := s.cfg
     let ab := s.layout.abase.toNat
     let tb := s.layout.tbase.toNat
     let ub := s.layout.ubase.toNat
     let vs := s.layout.vslot.toNat
     let noise := 2 * p.eta * p.n
     let R := fun j => noiseCoef p (s.draws + j * noise)
     let E1 := fun i => noiseCoef p (s.draws + p.k * noise + i * noise)
     let E2 := noiseCoef p (s.draws + 2 * p.k * noise)
     ab + p.k * p.k ≤ p.nslot → tb + p.k ≤ p.nslot → ub + p.k ≤ p.nslot → vs < p.nslot →
     ¬ runsMeet ub p.k vs 1 →
     s.RunHolds ab (p.k * p.k) A → s.RunHolds tb p.k T → s.MsgHolds msg →
     ∃ t, exec .encrypt s = .next t
      ∧ t = { s with cells := t.cells, done := true, draws := s.draws + (2 * p.k + 1) * noise }
      ∧ (∀ i m, i < p.k → m < p.n → t.cell (ub + i) m
          = some (((∑ j ∈ Finset.range p.k, negacyclic p.n (A (j * p.k + i)) (R j) m + E1 i m)
              % (p.q : Int)).toNat))
      ∧ (∀ m, m < p.n → t.cell vs m
          = some (((∑ i ∈ Finset.range p.k, negacyclic p.n (T i) (R i) m + E2 m
              + (if msg m = true then (p.q / 2 : Nat) else 0 : Nat)) % (p.q : Int)).toNat))
      ∧ ∀ x m, (p.n ≤ m ∨ ¬ ((ub ≤ x ∧ x < ub + p.k) ∨ x = vs)) → t.cell x m = s.cell x m)

/-- DECRYPT, with its runs below NSLOT and its inputs written, writes every message bit with the decoded
coefficient of `v - s u`, sets DONE, takes no draw and writes no slot; its runs may overlap. -/
def Obligations.DecryptWritesTheDecodedDifference : Prop :=
  ∀ (s : State) (S U : Nat → Nat → Nat) (v : Nat → Nat), s.cfg.legal = true →
    (let p := s.cfg
     s.layout.sbase.toNat + p.k ≤ p.nslot → s.layout.ubase.toNat + p.k ≤ p.nslot →
     s.layout.vslot.toNat < p.nslot →
     s.RunHolds s.layout.sbase.toNat p.k S → s.RunHolds s.layout.ubase.toNat p.k U →
     s.SlotHolds s.layout.vslot.toNat v →
     ∃ t, exec .decrypt s = .next t ∧ WroteMsg s t fun m => decodedBit p
      ((((v m : Int) - ∑ i ∈ Finset.range p.k, negacyclic p.n (S i) (U i) m) % (p.q : Int)).toNat))

/-- What ENCRYPT writes does not depend on any slot outside the runs of A and t: two machines that agree
on those, on the message and on the draws write the same ciphertext, whatever their secret slots hold
(43_pke section 4: no slot of RS is read). -/
def Obligations.CiphertextIgnoresTheSecretSlots : Prop :=
  ∀ (s1 s2 : State) (A T : Nat → Nat → Nat) (msg : Nat → Bool), s1.cfg.legal = true →
    s1.cfg = s2.cfg → s1.layout = s2.layout → s1.draws = s2.draws →
    (let p := s1.cfg
     let ab := s1.layout.abase.toNat
     let tb := s1.layout.tbase.toNat
     let ub := s1.layout.ubase.toNat
     let vs := s1.layout.vslot.toNat
     ab + p.k * p.k ≤ p.nslot → tb + p.k ≤ p.nslot → ub + p.k ≤ p.nslot → vs < p.nslot →
     ¬ runsMeet ub p.k vs 1 →
     s1.RunHolds ab (p.k * p.k) A → s2.RunHolds ab (p.k * p.k) A → s1.RunHolds tb p.k T →
     s2.RunHolds tb p.k T → s1.MsgHolds msg → s2.MsgHolds msg →
     ∃ t1 t2, exec .encrypt s1 = .next t1 ∧ exec .encrypt s2 = .next t2
      ∧ (∀ i m, i < p.k → m < p.n → t1.cell (ub + i) m = t2.cell (ub + i) m)
      ∧ ∀ m, m < p.n → t1.cell vs m = t2.cell vs m)

/-! ### Failures (30_encoding R78, 43_pke R127, R128, 60_exceptions) -/

/-- A command that names a slot `>= NSLOT` in any field it uses ends in SHAPE and changes nothing but
STATUS. -/
def Obligations.SlotOutOfRangeIsShape : Prop :=
  ∀ (i : Instr) (s : State), (∃ x ∈ i.slots, s.cfg.nslot ≤ x) → exec i s = .next (s.reported .shape)

/-- R127: an engine with a used run that ends above NSLOT ends in SHAPE and changes nothing. -/
def Obligations.EngineRunOutOfRangeIsShape : Prop :=
  ∀ s : State,
    (let p := s.cfg
     let A := p.nslot < s.layout.abase.toNat + p.k * p.k
     let T := p.nslot < s.layout.tbase.toNat + p.k
     let S := p.nslot < s.layout.sbase.toNat + p.k
     let U := p.nslot < s.layout.ubase.toNat + p.k
     let V := p.nslot < s.layout.vslot.toNat + 1
     (A ∨ T ∨ S → exec .keygen s = .next (s.reported .shape))
     ∧ (A ∨ T ∨ U ∨ V → exec .encrypt s = .next (s.reported .shape))
     ∧ (S ∨ U ∨ V → exec .decrypt s = .next (s.reported .shape)))

/-- R128: with every used run below NSLOT, KEYGEN with two of RA, RT, RS sharing a slot, and ENCRYPT
with RU and RV sharing one, end in OVERLAP and change nothing; DECRYPT makes no overlap check
and writes no slot, and ENCRYPT's input runs may overlap each other and its outputs without any error. -/
def Obligations.OverlappingOutputsAreReported : Prop :=
  ∀ s : State,
    (let p := s.cfg
     let ab := s.layout.abase.toNat
     let tb := s.layout.tbase.toNat
     let sb := s.layout.sbase.toNat
     let ub := s.layout.ubase.toNat
     let vs := s.layout.vslot.toNat
     (ab + p.k * p.k ≤ p.nslot → tb + p.k ≤ p.nslot → sb + p.k ≤ p.nslot →
        (runsMeet ab (p.k * p.k) tb p.k ∨ runsMeet ab (p.k * p.k) sb p.k ∨ runsMeet tb p.k sb p.k) →
        exec .keygen s = .next (s.reported .overlap))
     ∧ (ab + p.k * p.k ≤ p.nslot → tb + p.k ≤ p.nslot → ub + p.k ≤ p.nslot → vs < p.nslot →
        runsMeet ub p.k vs 1 → exec .encrypt s = .next (s.reported .overlap))
     ∧ (ab + p.k * p.k ≤ p.nslot → tb + p.k ≤ p.nslot → ub + p.k ≤ p.nslot → vs < p.nslot →
        ¬ runsMeet ub p.k vs 1 →
        ∃ t, exec .encrypt s = .next t ∧ t.err = s.err ∧ t.errcode = s.errcode)
     ∧ (sb + p.k ≤ p.nslot → ub + p.k ≤ p.nslot → vs < p.nslot →
        ∃ t, exec .decrypt s = .next t ∧ t.err = s.err ∧ t.errcode = s.errcode ∧ t.cells = s.cells))

/-- A command that passes its validation and meets an unwritten place it reads records that place and
changes nothing else: the commands of one or two source slots, CENC, ENCRYPT (A row-major, then t, then the
message) and DECRYPT (s[i] then u[i] for each i, then v). That the FIRST unwritten place in this order is the
one recorded is the model's reading (log 6), and so is that DONE keeps its value (log 21: R159 (a) changes no
flag, while the prose of 95_test_vectors section 3 has STATUS still show DONE). -/
def Obligations.UnwrittenSourceIsRecorded : Prop :=
  (∀ (s : State) (rd rs1 rs2 j : Nat), rd < s.cfg.nslot → rs1 < s.cfg.nslot → rs2 < s.cfg.nslot →
    s.FirstUnwritten rs1 j →
    ∀ i ∈ ([.pcopy rd rs1, .padd rd rs1 rs2, .psub rd rs1 rs2, .pneg rd rs1, .pscale rd rs1,
        .pmul rd rs1 rs2, .peq rs1 rs2, .cdec rs1] : List Instr),
      exec i s = .next { s with faults := s.faults ++ [.cell rs1 j] })
  ∧ (∀ (s : State) (rd rs1 rs2 j : Nat), rd < s.cfg.nslot → rs1 < s.cfg.nslot → rs2 < s.cfg.nslot →
    s.SlotWritten rs1 → s.FirstUnwritten rs2 j →
    ∀ i ∈ ([.padd rd rs1 rs2, .psub rd rs1 rs2, .pmul rd rs1 rs2, .peq rs1 rs2] : List Instr),
      exec i s = .next { s with faults := s.faults ++ [.cell rs2 j] })
  ∧ (∀ (s : State) (rd j : Nat), rd < s.cfg.nslot → s.FirstUnwrittenBit j →
    exec (.cenc rd) s = .next { s with faults := s.faults ++ [.bit j] })
  ∧ (∀ s : State,
    (let p := s.cfg
     let ab := s.layout.abase.toNat
     let tb := s.layout.tbase.toNat
     let ub := s.layout.ubase.toNat
     let vs := s.layout.vslot.toNat
     ab + p.k * p.k ≤ p.nslot → tb + p.k ≤ p.nslot → ub + p.k ≤ p.nslot → vs < p.nslot →
     ¬ runsMeet ub p.k vs 1 →
     (∀ i j, i < p.k * p.k → s.RunWritten ab i → s.FirstUnwritten (ab + i) j →
        exec .encrypt s = .next { s with faults := s.faults ++ [.cell (ab + i) j] })
     ∧ (∀ i j, i < p.k → s.RunWritten ab (p.k * p.k) → s.RunWritten tb i → s.FirstUnwritten (tb + i) j →
        exec .encrypt s = .next { s with faults := s.faults ++ [.cell (tb + i) j] })
     ∧ ∀ j, s.RunWritten ab (p.k * p.k) → s.RunWritten tb p.k → s.FirstUnwrittenBit j →
        exec .encrypt s = .next { s with faults := s.faults ++ [.bit j] }))
  ∧ ∀ s : State,
    (let p := s.cfg
     let sb := s.layout.sbase.toNat
     let ub := s.layout.ubase.toNat
     let vs := s.layout.vslot.toNat
     sb + p.k ≤ p.nslot → ub + p.k ≤ p.nslot → vs < p.nslot →
     (∀ i j, i < p.k → s.RunWritten sb i → s.RunWritten ub i → s.FirstUnwritten (sb + i) j →
        exec .decrypt s = .next { s with faults := s.faults ++ [.cell (sb + i) j] })
     ∧ (∀ i j, i < p.k → s.RunWritten sb (i + 1) → s.RunWritten ub i → s.FirstUnwritten (ub + i) j →
        exec .decrypt s = .next { s with faults := s.faults ++ [.cell (ub + i) j] })
     ∧ ∀ j, s.RunWritten sb p.k → s.RunWritten ub p.k → s.FirstUnwritten vs j →
        exec .decrypt s = .next { s with faults := s.faults ++ [.cell vs j] })

/-- No command writes ARG, CMD, CTRL.IE, a layout register or the configuration, refills the latch, or
touches the bus; the fault record only grows and draws are never taken back. -/
def Obligations.CommandsLeaveTheHostRegisters : Prop :=
  ∀ (i : Instr) (s t : State), exec i s = .next t →
    t.cfg = s.cfg ∧ t.arg = s.arg ∧ t.cmd = s.cmd ∧ t.ie = s.ie ∧ t.layout = s.layout
    ∧ t.pending = s.pending ∧ t.bus = s.bus ∧ t.answer = s.answer ∧ t.freeReads = s.freeReads
    ∧ s.faults <+: t.faults ∧ s.draws ≤ t.draws

/-- R156: a report writes ERRCODE only where ERR is 0, sets ERR and changes nothing else; a later report
before the clear changes nothing; and no step but a reset or the host's CLR lets go of ERR and of the first
code, after which the next report is again the first. -/
def Obligations.ErrorReportKeepsTheFirstCode : Prop :=
  (∀ (s : State) (c : ErrCode), s.err = false → s.reportError c = { s with err := true, errcode := c })
  ∧ (∀ (s : State) (c : ErrCode), s.err = true → s.reportError c = s)
  ∧ (∀ (s : State) (c d : ErrCode), ((s.reportError c).reportError d) = s.reportError c
      ∧ ((s.reportError c).clearFlags.reportError d).errcode = d)
  ∧ ∀ s t : State, step s = .next t → s.err = true →
      (t.err = true ∧ t.errcode = s.errcode)
      ∨ (∃ rest, s.bus = .reset :: rest)
      ∨ ∃ rest v, s.bus = .host (writeOf s.cfg (.reg .ctrl) v) :: rest
          ∧ (v.getLsbD 1 = true ∨ v.getLsbD 31 = true)

/-- STATUS as a word: BUSY, DONE, ERR, EQ in bits 0 to 3, ERRCODE in bits 11:8 with the numbers of R155,
every other bit 0; and IRQ is IE and (DONE or ERR), on the platform's line and on no other. -/
def Obligations.StatusWordAndInterrupt : Prop :=
  ∀ s : State,
    s.statusWord.getLsbD 0 = s.pending.isSome ∧ s.statusWord.getLsbD 1 = s.done
    ∧ s.statusWord.getLsbD 2 = s.err ∧ s.statusWord.getLsbD 3 = s.eq
    ∧ (s.statusWord.extractLsb' 8 4).toNat
        = (match s.errcode with
           | .noError => 0 | .illegalOpcode => 1 | .reservedField => 2 | .shape => 3 | .busy => 4
           | .overlap => 5)
    ∧ (∀ i, (4 ≤ i ∧ i < 8) ∨ 12 ≤ i → s.statusWord.getLsbD i = false)
    ∧ (s.irq = true ↔ s.ie = true ∧ (s.done = true ∨ s.err = true))
    ∧ ∀ line, s.irqOnLine line = true ↔ line = s.cfg.irqLine ∧ s.irq = true

/-- R164: after a CTRL write with CLR = 1 and IE = 1 (and SRST = 0), `WR CTRL, 0x3` for one, IRQ is low, IE
is 1, and EQ and the latch are as before; a CMD write while idle lowers IRQ if ERR is 0. -/
def Obligations.AcknowledgeLowersTheInterrupt : Prop :=
  ∀ s : State, s.cfg.legal = true →
    (∀ v : Word, v.getLsbD 0 = true → v.getLsbD 1 = true → v.getLsbD 31 = false →
      (let t := hostAccess (writeOf s.cfg (.reg .ctrl) v) s
       t.irq = false ∧ t.ie = true ∧ t.eq = s.eq ∧ t.pending = s.pending))
    ∧ ∀ v, s.pending = none → s.err = false →
        (hostAccess (writeOf s.cfg (.reg .cmd) v) s).irq = false

/-! ### Host accesses (44_host_access) -/

/-- R144: a read of each register answers its current value, also while BUSY, and changes nothing. -/
def Obligations.RegisterReadsAnswerTheRegisters : Prop :=
  ∀ s : State, s.cfg.legal = true →
    ∀ rv ∈ ([(.id, 0x50444C01#32), (.paramQ, BitVec.ofNat 32 s.cfg.q), (.paramN, BitVec.ofNat 32 s.cfg.n),
        (.paramK, BitVec.ofNat 32 s.cfg.k), (.paramEta, BitVec.ofNat 32 s.cfg.eta),
        (.paramNslot, BitVec.ofNat 32 s.cfg.nslot),
        (.paramDec, if s.cfg.decTie = true then 1#32 else 0#32),
        (.cmd, s.cmd), (.arg, s.arg), (.status, s.statusWord),
        (.ctrl, if s.ie = true then 1#32 else 0#32)] : List (Reg × Word))
      ++ [(.abase, s.layout.abase.setWidth 32), (.tbase, s.layout.tbase.setWidth 32),
        (.sbase, s.layout.sbase.setWidth 32), (.ubase, s.layout.ubase.setWidth 32),
        (.vslot, s.layout.vslot.setWidth 32)],
      hostAccess (readOf s.cfg (.reg rv.1)) s = { s with answer := some (.data rv.2) }

/-- R151 and R153: a write of a PMEM cell while idle stores the unsigned word mod Q, a write of a PMEMS
cell the signed word mod Q; no other cell and nothing else changes but the acknowledgement. -/
def Obligations.SlotWindowWritesStoreTheResidue : Prop :=
  ∀ (s : State) (i j : Nat) (v : Word), s.cfg.legal = true → s.pending = none → i < s.cfg.nslot →
    j < s.cfg.n →
    (let u := hostAccess (writeOf s.cfg (.pmem i j) v) s
     let t := hostAccess (writeOf s.cfg (.pmems i j) v) s
     (u = { s with cells := u.cells, answer := some .ack } ∧ u.cell i j = some (v.toNat % s.cfg.q)
       ∧ ∀ x y, (x, y) ≠ (i, j) → u.cell x y = s.cell x y)
     ∧ (t = { s with cells := t.cells, answer := some .ack }
       ∧ t.cell i j = some ((v.toInt % (s.cfg.q : Int)).toNat)
       ∧ ∀ x y, (x, y) ≠ (i, j) → t.cell x y = s.cell x y))

/-- R150 and R152: while idle a PMEM read answers the cell's value, below Q, and a PMEMS read its centred
value as a two's-complement word; of an unwritten cell either records the fault and answers an
unspecified word. -/
def Obligations.SlotWindowReadsAnswerTheCell : Prop :=
  ∀ (s : State) (i j : Nat), s.Inv → s.pending = none → i < s.cfg.nslot → j < s.cfg.n →
    (∀ c, s.cell i j = some c →
      c < s.cfg.q
      ∧ hostAccess (readOf s.cfg (.pmem i j)) s = { s with answer := some (.data (BitVec.ofNat 32 c)) }
      ∧ hostAccess (readOf s.cfg (.pmems i j)) s = { s with answer := some (.data
          (BitVec.ofInt 32 (if c ≤ s.cfg.q / 2 then (c : Int) else (c : Int) - s.cfg.q))) })
    ∧ (s.cell i j = none → ∀ t ∈ [Target.pmem i j, Target.pmems i j],
        hostAccess (readOf s.cfg t) s =
          { s with faults := s.faults ++ [.cell i j],
                   answer := some (.data (Config.freeWord s.freeReads)),
                   freeReads := s.freeReads + 1 })

/-- R154: PMEM and PMEMS are two views of one cell. A write of any word through either is read back
through both, each in its own form; and reading a canonical cell through either view and writing the word
read back through it stores the value again. -/
def Obligations.SlotViewsAgree : Prop :=
  ∀ (s : State) (i j : Nat), s.cfg.legal = true → s.pending = none → i < s.cfg.nslot → j < s.cfg.n →
    (let q := s.cfg.q
     (∀ v : Word, ∀ tc ∈ [(Target.pmem i j, v.toNat % q),
          (Target.pmems i j, (v.toInt % (q : Int)).toNat)],
        (let t := hostAccess (writeOf s.cfg tc.1 v) s
         (hostAccess (readOf s.cfg (.pmem i j)) t).answer = some (.data (BitVec.ofNat 32 tc.2))
         ∧ (hostAccess (readOf s.cfg (.pmems i j)) t).answer = some (.data
            (BitVec.ofInt 32 (if tc.2 ≤ q / 2 then (tc.2 : Int) else (tc.2 : Int) - q)))))
     ∧ ∀ c, s.cell i j = some c → c < q → ∀ tg ∈ [Target.pmem i j, Target.pmems i j],
        ∃ r : Word, (hostAccess (readOf s.cfg tg) s).answer = some (.data r)
          ∧ (hostAccess (writeOf s.cfg tg r) (hostAccess (readOf s.cfg tg) s)).cell i j = some c)

/-- R149: a write of MSG word w while idle gives its mapped message bits the word's bits and ignores the
rest; a read answers the mapped bits with 0 above them, or records the first unwritten bit (the first: log
6). While busy the write is dropped with error BUSY and the read is unspecified; a word beyond MSGW is a bus
error. -/
def Obligations.MsgWindowReadsAndWrites : Prop :=
  ∀ (s : State) (w : Nat), s.cfg.legal = true →
    (s.pending = none → w < s.cfg.msgw →
      (∀ v : Word, let t := hostAccess (writeOf s.cfg (.msg w) v) s
        t = { s with msg := t.msg, answer := some .ack }
        ∧ ∀ j, t.msgBit j = if j / 32 = w ∧ j < s.cfg.n then some (v.getLsbD (j % 32)) else s.msgBit j)
      ∧ (∀ m : Nat → Bool, (∀ i, i < 32 → 32 * w + i < s.cfg.n → s.msgBit (32 * w + i) = some (m i)) →
        ∃ r : Word, hostAccess (readOf s.cfg (.msg w)) s = { s with answer := some (.data r) }
          ∧ ∀ i, i < 32 → r.getLsbD i = (decide (32 * w + i < s.cfg.n) && m i))
      ∧ ∀ i, i < 32 → 32 * w + i < s.cfg.n →
        (∀ i', i' < i → (s.msgBit (32 * w + i')).isSome = true) → s.msgBit (32 * w + i) = none →
        hostAccess (readOf s.cfg (.msg w)) s =
          { s with faults := s.faults ++ [.bit (32 * w + i)],
                   answer := some (.data (Config.freeWord s.freeReads)),
                   freeReads := s.freeReads + 1 })
    ∧ (s.pending.isSome = true → w < s.cfg.msgw →
      (∀ v : Word, hostAccess (writeOf s.cfg (.msg w) v) s = { s.reported .busy with answer := some .ack })
      ∧ hostAccess (readOf s.cfg (.msg w)) s =
          { s with answer := some (.data (Config.freeWord s.freeReads)),
                   freeReads := s.freeReads + 1 })
    ∧ (s.cfg.msgw ≤ w → w < 32 →
      hostAccess (readOf s.cfg (.msg w)) s = { s with answer := some (.busError (0x200 + 4 * w)) }
      ∧ ∀ v : Word,
        hostAccess (writeOf s.cfg (.msg w) v) s = { s with answer := some (.busError (0x200 + 4 * w)) })

/-- R145: a CMD write while idle fills CMD and the latch and clears DONE, and nothing else; while busy it
is dropped with error BUSY. The word is not looked at. -/
def Obligations.CmdWriteIssuesTheCommand : Prop :=
  ∀ (s : State) (v : Word), s.cfg.legal = true →
    hostAccess (writeOf s.cfg (.reg .cmd) v) s =
      if s.pending.isSome = true then { s.reported .busy with answer := some .ack }
      else { s with cmd := v, pending := some v, done := false, answer := some .ack }

/-- R146: an ARG write while idle stores all 32 bits, and nothing else changes; while busy it is dropped
with error BUSY. -/
def Obligations.ArgWriteStoresTheWord : Prop :=
  ∀ (s : State) (v : Word), s.cfg.legal = true →
    hostAccess (writeOf s.cfg (.reg .arg) v) s =
      if s.pending.isSome = true then { s.reported .busy with answer := some .ack }
      else { s with arg := v, answer := some .ack }

/-- R147: a layout register takes bits 7:0 of the word while idle, unchecked against NSLOT; while busy
the write is dropped with error BUSY. -/
def Obligations.LayoutWriteStoresTheLowByte : Prop :=
  ∀ (s : State) (v : Word), s.cfg.legal = true →
    (let b : Byte := v.setWidth 8
     let L := s.layout
     ∀ rl ∈ [(Reg.abase, { L with abase := b }), (Reg.tbase, { L with tbase := b }),
        (Reg.sbase, { L with sbase := b }), (Reg.ubase, { L with ubase := b }),
        (Reg.vslot, { L with vslot := b })],
      hostAccess (writeOf s.cfg (.reg rl.1) v) s =
        if s.pending.isSome = true then { s.reported .busy with answer := some .ack }
        else { s with layout := rl.2, answer := some .ack })

/-- R148: a CTRL write, busy or not, resets the unit if bit 31 is 1 and applies nothing else; otherwise
IE takes bit 0 and bit 1 clears DONE, ERR and ERRCODE; the other bits are ignored. -/
def Obligations.CtrlWriteControlsTheUnit : Prop :=
  ∀ (s : State) (v : Word), s.cfg.legal = true →
    hostAccess (writeOf s.cfg (.reg .ctrl) v) s =
      if v.getLsbD 31 = true then { s.resetUnit with answer := some .ack }
      else if v.getLsbD 1 = true then
        { s with ie := v.getLsbD 0, done := false, err := false, errcode := .noError,
                 answer := some .ack }
      else { s with ie := v.getLsbD 0, answer := some .ack }

/-- R142: while BUSY a write to CMD, ARG, a layout register, a MSG word or a PMEM or PMEMS cell is
acknowledged and dropped: it reports error BUSY and changes nothing else, and the pending command stays.
A CTRL write is not dropped: it is answered as when idle. -/
def Obligations.BusyWritesAreDropped : Prop :=
  ∀ (s : State) (t : Target) (v : Word), s.cfg.legal = true → s.pending.isSome = true →
    t.mapped s.cfg = true →
    (t ∈ ([.cmd, .arg, .abase, .tbase, .sbase, .ubase, .vslot] : List Reg).map Target.reg
      ∨ (∃ w, t = .msg w) ∨ (∃ i j, t = .pmem i j) ∨ (∃ i j, t = .pmems i j) →
      hostAccess (writeOf s.cfg t v) s = { s.reported .busy with answer := some .ack })
    ∧ (t = .reg .ctrl → hostAccess (writeOf s.cfg t v) s = (s.writeCtrl v).setAnswer .ack)

/-- R143: while BUSY a read of a MSG word or a PMEM or PMEMS cell answers an unspecified word, a fresh
free value at each read, written or not; no error, no fault and no other change. A read of a register
answers its current value. -/
def Obligations.BusyWindowReadsAreFree : Prop :=
  ∀ (s : State) (t : Target), s.cfg.legal = true → s.pending.isSome = true → t.mapped s.cfg = true →
    ((∃ w, t = .msg w) ∨ (∃ i j, t = .pmem i j) ∨ (∃ i j, t = .pmems i j) →
      hostAccess (readOf s.cfg t) s = { s with answer := some (.data (Config.freeWord s.freeReads)),
                                               freeReads := s.freeReads + 1 })
    ∧ ∀ r, t = .reg r →
      hostAccess (readOf s.cfg t) s = { s with answer := some (.data (s.readReg r)) }

/-- R139, R140, R141: an access of another size, at a misaligned offset or with a byte lane disabled, an
access to an offset that maps nothing, and a write to ID, a PARAM register or STATUS are bus errors
and change nothing; an access outside the window does not reach the unit. -/
def Obligations.RefusedAccessesAreBusErrors : Prop :=
  ∀ s : State, s.cfg.legal = true →
    (∀ off size, off < 0x400000 → (size ≠ 4 ∨ off % 4 ≠ 0) → ∀ (lanes : BitVec 4) (v : Word),
      ∀ a ∈ [Access.read (s.cfg.unitBase + off) size, Access.write (s.cfg.unitBase + off) size lanes v],
      hostAccess a s = { s with answer := some (.busError off) })
    ∧ (∀ off (lanes : BitVec 4) (v : Word), off < 0x400000 → lanes ≠ 0xF#4 →
      hostAccess (.write (s.cfg.unitBase + off) 4 lanes v) s = { s with answer := some (.busError off) })
    ∧ (∀ off, off < 0x400000 → (∀ t : Target, t.mapped s.cfg = true → t.offset ≠ off) → ∀ v : Word,
      ∀ a ∈ [Access.read (s.cfg.unitBase + off) 4, Access.write (s.cfg.unitBase + off) 4 0xF#4 v],
      hostAccess a s = { s with answer := some (.busError off) })
    ∧ (∀ v : Word, ∀ r ∈ ([.id, .paramQ, .paramN, .paramK, .paramEta, .paramNslot, .paramDec, .status] :
        List Reg),
      hostAccess (writeOf s.cfg (.reg r) v) s = { s with answer := some (.busError r.offset) })
    ∧ ∀ a : Access, (a.addr < s.cfg.unitBase ∨ s.cfg.unitBase + 0x400000 ≤ a.addr) → hostAccess a s = s

/-- While BUSY no host access but a soft reset changes what the pending command reads: slots, message,
ARG, layout, the latch and the draws are as they were at its acceptance (20_memory section 5). -/
def Obligations.BusyAccessesKeepTheInputs : Prop :=
  ∀ (s : State) (a : Access), s.cfg.legal = true → s.pending.isSome = true →
    (∀ size lanes v, a = .write (s.cfg.unitBase + 0x02C) size lanes v → v.getLsbD 31 = false) →
    (let t := hostAccess a s
     t.cells = s.cells ∧ t.msg = s.msg ∧ t.arg = s.arg ∧ t.layout = s.layout
      ∧ t.pending = s.pending ∧ t.cmd = s.cmd ∧ t.cfg = s.cfg ∧ t.draws = s.draws)

/-! ### Reset (70_reset R174, 10_state R52) -/

/-- R174: the reset input's event and a soft reset leave every cell and bit unwritten, the latch empty,
CMD, ARG and the layout 0, every flag and IE 0; the configuration and the fault record are kept. The model's
own fields (bus, answer, draws, freeReads) are left open here. -/
def Obligations.ResetClearsTheUnit : Prop :=
  ∀ s : State, s.cfg.legal = true →
    (let clear := fun t : State =>
      ({ cfg := s.cfg, cells := [], msg := [], pending := none, cmd := 0#32, arg := 0#32, done := false,
         err := false, eq := false, errcode := .noError, ie := false, layout := ⟨0#8, 0#8, 0#8, 0#8, 0#8⟩,
         faults := s.faults, bus := t.bus, answer := t.answer, draws := t.draws,
         freeReads := t.freeReads } : State)
     (∀ rest, s.bus = .reset :: rest → ∃ t, step s = .next t ∧ t = clear t)
     ∧ (∀ rest v, s.bus = .host (writeOf s.cfg (.reg .ctrl) v) :: rest → v.getLsbD 31 = true →
        ∃ t, step s = .next t ∧ t = clear t)
     ∧ ∀ t, (∀ i j, (clear t).cell i j = none) ∧ (∀ j, (clear t).msgBit j = none)
        ∧ (clear t).statusWord = 0#32 ∧ (clear t).irq = false)

/-- The machine's initial state in the reference configuration: every value of R52. -/
def Obligations.InitialStateIsTheResetState : Prop :=
  State.reset.cfg.q = 97 ∧ State.reset.cfg.n = 4 ∧ State.reset.cfg.k = 2 ∧ State.reset.cfg.eta = 1
  ∧ State.reset.cfg.nslot = 16 ∧ State.reset.cfg.decTie = true
  ∧ (∀ i j, State.reset.cell i j = none) ∧ (∀ j, State.reset.msgBit j = none)
  ∧ State.reset.pending = none ∧ State.reset.cmd = 0#32 ∧ State.reset.arg = 0#32
  ∧ State.reset.statusWord = 0#32 ∧ State.reset.ie = false
  ∧ State.reset.layout = ⟨0#8, 0#8, 0#8, 0#8, 0#8⟩ ∧ State.reset.irq = false

/-! ### Whole-machine rules -/

/-- The initial state meets the invariant. -/
def Obligations.InitialStateMeetsTheInvariant : Prop := State.reset.Inv

/-- Every step keeps the invariant: the configuration legal, the storage canonical, every written cell
inside the slot file and canonical mod Q, every written message bit inside the register, and ERRCODE 0
exactly while ERR is 0. -/
def Obligations.StepKeepsTheInvariant : Prop :=
  ∀ s t : State, s.Inv → step s = .next t → t.Inv

/-- No step changes a parameter, clears the fault record or gives a draw back (resets included). -/
def Obligations.StepsNeverTakeBack : Prop :=
  ∀ s t : State, step s = .next t → t.cfg = s.cfg ∧ s.faults <+: t.faults ∧ s.draws ≤ t.draws

/-- EQ changes only at the unit step of a PEQ, at the reset input and at a soft reset. -/
def Obligations.EqChangesOnlyByPeqOrReset : Prop :=
  ∀ s t : State, step s = .next t → t.eq ≠ s.eq →
    (∃ w rs1 rs2, s.unitTurn ∧ s.pending = some w ∧ decode w = .ok (.peq rs1 rs2))
    ∨ (∃ rest, s.bus = .reset :: rest)
    ∨ ∃ rest v, s.bus = .host (writeOf s.cfg (.reg .ctrl) v) :: rest ∧ v.getLsbD 31 = true

/-- A pending command is performed: if only host accesses come before the unit's turn and none of them is
a soft reset, the unit's turn comes with the latch and everything the command reads as they were, and that
step is exec of the decoded command (or the report of a word that is none). Whatever the bus holds, its
events are finitely many, and after them and one step more the latch is empty: the command was performed, or
a reset discarded it first (unless the platform makes a forbidden access during reset). That the order is a
finite list, and that the unit moves when the list has ended, is the model's choice (log 1) for the fairness
of 70_reset section 4. -/
def Obligations.PendingCommandIsPerformed : Prop :=
  ∀ s : State, s.cfg.legal = true →
    (∀ (w : Word) (before rest : List BusEvent), s.pending = some w → s.bus = before ++ rest →
      (rest = [] ∨ ∃ later, rest = .unit :: later) →
      (∀ e ∈ before, ∃ a, e = .host a
        ∧ ∀ v, a = writeOf s.cfg (.reg .ctrl) v → v.getLsbD 31 = false) →
      ∃ u, core.run before.length s = .next u
        ∧ (u.pending = some w ∧ u.bus = rest ∧ u.cells = s.cells ∧ u.msg = s.msg ∧ u.arg = s.arg
          ∧ u.layout = s.layout ∧ u.cfg = s.cfg ∧ u.draws = s.draws)
        ∧ (∀ i, decode w = .ok i → step u = exec i { u with pending := none, bus := rest.tail })
        ∧ ∀ e, decode w = .error e →
          step u = .next { u.reported (decodeErrorCode e) with pending := none, bus := rest.tail })
    ∧ ((∀ a, BusEvent.hostInReset a ∉ s.bus) →
      ∃ t, core.run (s.bus.length + 1) s = .next t ∧ t.pending = none ∧ t.bus = [])

/-- What a legal configuration is: Q prime and the ranges of 00_scope section 3, and UNIT_BASE a multiple of
`2^22` (20_memory section 1). The machine of a legal configuration never stops, but at a host access during
reset (log 12); the machine of any other is refused at every step, since no such chip is built (93 item 11; that the
refusal stands at the step is the model's reading, log 13). -/
def Obligations.StepStopsOnlyInResetOrIllegalConfig : Prop :=
  (∀ p : Params, p.legal = true ↔
    p.q.Prime ∧ p.q ≤ 65521 ∧ (1 ≤ p.n ∧ p.n ≤ 1024) ∧ (1 ≤ p.k ∧ p.k ≤ 16)
      ∧ (1 ≤ p.eta ∧ p.eta ≤ 16 ∧ 2 * p.eta < p.q) ∧ (1 ≤ p.nslot ∧ p.nslot ≤ 256)
      ∧ p.unitBase % 2 ^ 22 = 0)
  ∧ ∀ s : State,
    (s.cfg.legal = true → (∃ t, step s = .next t)
      ∨ ∃ a rest, s.bus = .hostInReset a :: rest ∧ step s = .fault .accessDuringReset)
    ∧ (s.cfg.legal = false → step s = .refused .illegalConfig)

/-! ### Laws of the ring, the codec and the engines -/

/-- R89: the ring laws, for all canonical elements. -/
def Obligations.RingLaws : Prop :=
  ∀ p : Params, p.legal = true → ∀ a b c : Elt, IsElt p a → IsElt p b → IsElt p c →
    (radd p a b = radd p b a ∧ radd p (radd p a b) c = radd p a (radd p b c)
      ∧ radd p a (rzero p) = a ∧ radd p a (rneg p a) = rzero p ∧ rsub p a b = radd p a (rneg p b))
    ∧ (rmul p a b = rmul p b a ∧ rmul p (rmul p a b) c = rmul p a (rmul p b c)
      ∧ rmul p a (rone p) = a ∧ rmul p a (radd p b c) = radd p (rmul p a b) (rmul p a c))
    ∧ (2 ≤ p.n → let X := eltFrom p fun j => if j = 1 then 1 else 0
        (List.replicate p.n X).foldl (rmul p) (rone p) = rneg p (rone p))
    ∧ ∀ x, x < p.q → rscale p x a = rmul p (eltFrom p fun j => if j = 0 then x else 0) a
        ∧ rneg p a = rscale p (p.q - 1) a

/-- R118: decoding an encoded block gives the block back, in every legal configuration and whatever
DEC_TIE is: 0 decodes to 0, HALF to 1, and HALF is not the disputed value. -/
def Obligations.DecodeOfEncodedBlockIsTheBlock : Prop :=
  ∀ p : Params, p.legal = true →
    (∀ m : List Bool, m.length = p.n → decodeBlock p (encodeBlock p m) = m)
    ∧ decbit p 0 = false ∧ decbit p (p.q / 2) = true ∧ 4 * (p.q / 2) ≠ 3 * p.q - 1

/-- R119: noise below the margin decodes right, for both bits and both values of DEC_TIE; and the exact
ranges at Q = 97. -/
def Obligations.NoiseBelowTheMarginDecodesRight : Prop :=
  (∀ (p : Params) (b : Bool) (e : Int), p.legal = true → 4 * |e| < (p.q : Int) - 2 →
    decbit p (zmod p.q ((if b = true then (p.q / 2 : Nat) else 0 : Nat) + e)) = b)
  ∧ ∀ tie : Bool, let p := { Params.reference with decTie := tie }
    (∀ e : Int, -24 ≤ e → e ≤ 24 → decbit p (zmod 97 e) = false)
    ∧ (∀ e : Int, -23 ≤ e → e ≤ 24 → decbit p (zmod 97 (48 + e)) = true)
    ∧ decbit p (zmod 97 (-25)) = true ∧ decbit p (zmod 97 25) = true
    ∧ decbit p (zmod 97 (48 - 24)) = false ∧ decbit p (zmod 97 (48 + 25)) = false

/-- R135, on the machine: in a legal configuration with `4*(2*K*N*ETA^2 + ETA) < Q - 2`, a KEYGEN, an
ENCRYPT of any message under its key and a DECRYPT give the message back, FOR EVERY DRAW, wherever the
runs lie as long as the engines accept them and the ciphertext does not overwrite the secret. -/
def Obligations.DecryptReturnsTheEncryptedMessage : Prop :=
  ∀ (s : State) (msg : Nat → Bool), s.cfg.legal = true → s.MsgHolds msg →
    (let p := s.cfg
     let ab := s.layout.abase.toNat
     let tb := s.layout.tbase.toNat
     let sb := s.layout.sbase.toNat
     let ub := s.layout.ubase.toNat
     let vs := s.layout.vslot.toNat
     4 * (2 * p.k * p.n * p.eta ^ 2 + p.eta) + 2 < p.q →
     ab + p.k * p.k ≤ p.nslot → tb + p.k ≤ p.nslot → sb + p.k ≤ p.nslot → ub + p.k ≤ p.nslot →
     vs < p.nslot →
     ¬ runsMeet ab (p.k * p.k) tb p.k → ¬ runsMeet ab (p.k * p.k) sb p.k → ¬ runsMeet tb p.k sb p.k →
     ¬ runsMeet ub p.k vs 1 → ¬ runsMeet ub p.k sb p.k → ¬ runsMeet vs 1 sb p.k →
     ∃ t1 t2 t3, exec .keygen s = .next t1 ∧ exec .encrypt t1 = .next t2 ∧ exec .decrypt t2 = .next t3
      ∧ t3.MsgHolds msg ∧ t3.done = true ∧ t3.err = s.err)

/-- R136: DECRYPT of `(u, v + D)` answers the decoding of `d + D`, where `d` is the difference of
`(u, v)`: it keeps no record of a challenge and rejects nothing. -/
def Obligations.ShiftedCiphertextShiftsTheDifference : Prop :=
  ∀ (s : State) (S U : Nat → Nat → Nat) (v D : Nat → Nat), s.cfg.legal = true →
    (let p := s.cfg
     let d := fun m => (((v m : Int) - ∑ i ∈ Finset.range p.k, negacyclic p.n (S i) (U i) m)
      % (p.q : Int)).toNat
     s.layout.sbase.toNat + p.k ≤ p.nslot → s.layout.ubase.toNat + p.k ≤ p.nslot →
     s.layout.vslot.toNat < p.nslot →
     s.RunHolds s.layout.sbase.toNat p.k S → s.RunHolds s.layout.ubase.toNat p.k U →
     s.SlotHolds s.layout.vslot.toNat (fun m => (v m + D m) % p.q) →
     ∃ t, exec .decrypt s = .next t ∧ WroteMsg s t fun m => decodedBit p ((d m + D m) % p.q))

/-- The host's message codec: joining the blocks a message was split into gives the message back, for
every block length and every byte string (42_codec section 4; host software, not the chip). -/
def Obligations.JoinOfSplitIsTheMessage : Prop :=
  ∀ (p : Params) (bytes : List Byte), 1 ≤ p.n →
    joinMessage (splitMessage p bytes) bytes.length = bytes
end

