-- ==== Sys2Proof/Laws/Config.lean ====
section
/-! SUPPORT. Laws/Config.lean: what a legal configuration is (00_scope R6 to R10). -/

namespace Sys2Proof

theorem noDivisor_iff {q d : Nat} : noDivisor q d = true ↔ d < 2 ∨ q ≤ d ∨ ¬ d ∣ q := by
  simp [noDivisor, or_assoc, Nat.dvd_iff_mod_eq_zero]

/-- For numbers of sixteen bits, `isPrime` is primality. -/
theorem isPrime_iff {q : Nat} (h : q < 65536) : isPrime q = true ↔ q.Prime := by
  have split : isPrime q = true ↔ 2 ≤ q ∧ ∀ d, d < 256 → (d < 2 ∨ q ≤ d ∨ ¬ d ∣ q) := by
    simp only [isPrime, Bool.and_eq_true, decide_eq_true_eq, List.all_eq_true, List.mem_range,
      noDivisor_iff]
    refine and_congr_right fun _ => ⟨fun hall d hd => ?_, fun hall a ha b hb => hall _ (by omega)⟩
    have := hall (d / 16) (by omega) (d % 16) (by omega)
    rwa [Nat.div_add_mod] at this
  rw [split, Nat.prime_def_le_sqrt]
  refine and_congr_right fun h2 => ⟨fun hall m hm hms hdvd => ?_, fun hall d hd => ?_⟩
  · have hsq : Nat.sqrt q < 256 := Nat.sqrt_lt.mpr (by omega)
    have hmq : m < q := lt_of_le_of_lt hms (Nat.sqrt_lt_self (by omega))
    rcases hall m (by omega) with h | h | h
    · omega
    · omega
    · exact h hdvd
  · by_cases h1 : d < 2
    · exact .inl h1
    by_cases h3 : q ≤ d
    · exact .inr (.inl h3)
    refine .inr (.inr fun hdvd => ?_)
    rcases (Nat.dvd_prime (Nat.prime_def_le_sqrt.mpr ⟨h2, hall⟩)).mp hdvd with h | h <;> omega

/-- The bounds of a legal configuration, one by one. -/
structure Params.Bounds (p : Params) : Prop where
  prime : p.q.Prime
  q_le : p.q ≤ 65521
  n_pos : 1 ≤ p.n
  n_le : p.n ≤ 1024
  k_pos : 1 ≤ p.k
  k_le : p.k ≤ 16
  eta_pos : 1 ≤ p.eta
  eta_le : p.eta ≤ 16
  eta_lt : 2 * p.eta < p.q
  nslot_pos : 1 ≤ p.nslot
  nslot_le : p.nslot ≤ 256
  base : p.unitBase % 4194304 = 0

theorem Params.bounds {p : Params} (h : p.legal = true) : p.Bounds := by
  simp only [Params.legal, Bool.and_eq_true, decide_eq_true_eq] at h
  obtain ⟨h2, h1, h3, h4, h5, h6, h7, h8, h9, h10, h11, h12⟩ := h
  exact ⟨(isPrime_iff (by omega)).mp h1, h2, h3, h4, h5, h6, h7, h8, h9, h10, h11, h12⟩

/-- `Q >= 3` (R9). -/
theorem Params.Bounds.q_ge {p : Params} (h : p.Bounds) : 3 ≤ p.q := by
  have := h.eta_pos
  have := h.eta_lt
  omega

/-- `Q` is odd (R9, 90_conflicts C3). -/
theorem Params.Bounds.q_odd {p : Params} (h : p.Bounds) : p.q % 2 = 1 :=
  Nat.odd_iff.mp (h.prime.odd_of_ne_two (by have := h.q_ge; omega))

theorem reference_legal : Params.reference.legal = true := by decide

end Sys2Proof
end

