-- ==== Sys2Proof/Laws/Decode.lean ====
section
/-! SUPPORT. Laws/Decode.lean: the fields of a word and the packing of fields into a word, as numbers,
so that facts about encodings are linear arithmetic (30_encoding R70, R71). -/

namespace Sys2Proof

theorem byteField_toNat (w : Word) (lo : Nat) : (byteField w lo).toNat = w.toNat / 2 ^ lo % 256 := by
  simp [byteField, BitVec.extractLsb'_toNat, Nat.shiftRight_eq_div_pow]

theorem opcOf_toNat (w : Word) : (opcOf w).toNat = w.toNat % 256 := by
  simp [opcOf, byteField_toNat]

theorem rdOf_eq (w : Word) : rdOf w = w.toNat / 256 % 256 := by simp [rdOf, byteField_toNat]

theorem rs1Of_eq (w : Word) : rs1Of w = w.toNat / 65536 % 256 := by simp [rs1Of, byteField_toNat]

theorem rs2Of_eq (w : Word) : rs2Of w = w.toNat / 16777216 % 256 := by simp [rs2Of, byteField_toNat]

/-- The command word as a number. -/
theorem packWord_toNat (opc : Byte) (rd rs1 rs2 : Nat) : (packWord opc rd rs1 rs2).toNat
    = opc.toNat + 256 * (rd % 256) + 65536 * (rs1 % 256) + 16777216 * (rs2 % 256) := by
  have h : ∀ {m : Nat} (x : BitVec m) (y : Byte), (x ++ y).toNat = 256 * x.toNat + y.toNat := by
    intro m x y
    rw [BitVec.toNat_append, ← Nat.shiftLeft_add_eq_or_of_lt y.isLt, Nat.shiftLeft_eq]
    omega
  rw [packWord, h, h, h, BitVec.toNat_ofNat, BitVec.toNat_ofNat, BitVec.toNat_ofNat]
  omega

/-- A word is the packing of its four fields. -/
theorem pack_fields (w : Word) : packWord (opcOf w) (rdOf w) (rs1Of w) (rs2Of w) = w := by
  apply BitVec.eq_of_toNat_eq
  rw [packWord_toNat, opcOf_toNat, rdOf_eq, rs1Of_eq, rs2Of_eq]
  have := w.isLt
  omega

/-- The fields of a packed word. -/
theorem fields_pack (opc : Byte) {rd rs1 rs2 : Nat} (h1 : rd < 256) (h2 : rs1 < 256) (h3 : rs2 < 256) :
    opcOf (packWord opc rd rs1 rs2) = opc ∧ rdOf (packWord opc rd rs1 rs2) = rd
      ∧ rs1Of (packWord opc rd rs1 rs2) = rs1 ∧ rs2Of (packWord opc rd rs1 rs2) = rs2 := by
  have := opc.isLt
  refine ⟨BitVec.eq_of_toNat_eq ?_, ?_, ?_, ?_⟩
  · rw [opcOf_toNat, packWord_toNat]; omega
  · rw [rdOf_eq, packWord_toNat]; omega
  · rw [rs1Of_eq, packWord_toNat]; omega
  · rw [rs2Of_eq, packWord_toNat]; omega

/-- A mask of whole bytes acts byte by byte (30_encoding R75). -/
theorem packWord_and (opc : Byte) (rd rs1 rs2 : Nat) (m3 m2 m1 m0 : Byte) :
    packWord opc rd rs1 rs2 &&& (m3 ++ m2 ++ m1 ++ m0 : Word)
      = ((BitVec.ofNat 8 rs2 &&& m3) ++ (BitVec.ofNat 8 rs1 &&& m2) ++ (BitVec.ofNat 8 rd &&& m1)
          ++ (opc &&& m0) : Word) := by
  unfold packWord
  rw [BitVec.and_append, BitVec.and_append, BitVec.and_append]

end Sys2Proof
end

