-- ==== Sys2Proof/Laws/State.lean ====
section
/-! SUPPORT. Laws/State.lean: one lemma per field per update of the state, each true by rfl, so that no
proof unfolds a record update. -/

namespace Sys2Proof.Machine

/-! ### setCells -/

@[simp] theorem State.setCells_cfg (s : State) (c : List ((Nat × Nat) × Nat)) : (s.setCells c).cfg = s.cfg := rfl
@[simp] theorem State.setCells_cells (s : State) (c : List ((Nat × Nat) × Nat)) : (s.setCells c).cells = c := rfl
@[simp] theorem State.setCells_msg (s : State) (c : List ((Nat × Nat) × Nat)) : (s.setCells c).msg = s.msg := rfl
@[simp] theorem State.setCells_pending (s : State) (c : List ((Nat × Nat) × Nat)) : (s.setCells c).pending = s.pending := rfl
@[simp] theorem State.setCells_cmd (s : State) (c : List ((Nat × Nat) × Nat)) : (s.setCells c).cmd = s.cmd := rfl
@[simp] theorem State.setCells_arg (s : State) (c : List ((Nat × Nat) × Nat)) : (s.setCells c).arg = s.arg := rfl
@[simp] theorem State.setCells_done (s : State) (c : List ((Nat × Nat) × Nat)) : (s.setCells c).done = s.done := rfl
@[simp] theorem State.setCells_err (s : State) (c : List ((Nat × Nat) × Nat)) : (s.setCells c).err = s.err := rfl
@[simp] theorem State.setCells_eq (s : State) (c : List ((Nat × Nat) × Nat)) : (s.setCells c).eq = s.eq := rfl
@[simp] theorem State.setCells_errcode (s : State) (c : List ((Nat × Nat) × Nat)) : (s.setCells c).errcode = s.errcode := rfl
@[simp] theorem State.setCells_ie (s : State) (c : List ((Nat × Nat) × Nat)) : (s.setCells c).ie = s.ie := rfl
@[simp] theorem State.setCells_layout (s : State) (c : List ((Nat × Nat) × Nat)) : (s.setCells c).layout = s.layout := rfl
@[simp] theorem State.setCells_faults (s : State) (c : List ((Nat × Nat) × Nat)) : (s.setCells c).faults = s.faults := rfl
@[simp] theorem State.setCells_bus (s : State) (c : List ((Nat × Nat) × Nat)) : (s.setCells c).bus = s.bus := rfl
@[simp] theorem State.setCells_answer (s : State) (c : List ((Nat × Nat) × Nat)) : (s.setCells c).answer = s.answer := rfl
@[simp] theorem State.setCells_draws (s : State) (c : List ((Nat × Nat) × Nat)) : (s.setCells c).draws = s.draws := rfl
@[simp] theorem State.setCells_freeReads (s : State) (c : List ((Nat × Nat) × Nat)) : (s.setCells c).freeReads = s.freeReads := rfl
@[simp] theorem State.setCells_msgBit (s : State) (c : List ((Nat × Nat) × Nat)) (x : Nat) : (s.setCells c).msgBit x = s.msgBit x := rfl
@[simp] theorem State.setCells_busy (s : State) (c : List ((Nat × Nat) × Nat)) : (s.setCells c).busy = s.busy := rfl

/-! ### setMsg -/

@[simp] theorem State.setMsg_cfg (s : State) (m : List (Nat × Bool)) : (s.setMsg m).cfg = s.cfg := rfl
@[simp] theorem State.setMsg_cells (s : State) (m : List (Nat × Bool)) : (s.setMsg m).cells = s.cells := rfl
@[simp] theorem State.setMsg_msg (s : State) (m : List (Nat × Bool)) : (s.setMsg m).msg = m := rfl
@[simp] theorem State.setMsg_pending (s : State) (m : List (Nat × Bool)) : (s.setMsg m).pending = s.pending := rfl
@[simp] theorem State.setMsg_cmd (s : State) (m : List (Nat × Bool)) : (s.setMsg m).cmd = s.cmd := rfl
@[simp] theorem State.setMsg_arg (s : State) (m : List (Nat × Bool)) : (s.setMsg m).arg = s.arg := rfl
@[simp] theorem State.setMsg_done (s : State) (m : List (Nat × Bool)) : (s.setMsg m).done = s.done := rfl
@[simp] theorem State.setMsg_err (s : State) (m : List (Nat × Bool)) : (s.setMsg m).err = s.err := rfl
@[simp] theorem State.setMsg_eq (s : State) (m : List (Nat × Bool)) : (s.setMsg m).eq = s.eq := rfl
@[simp] theorem State.setMsg_errcode (s : State) (m : List (Nat × Bool)) : (s.setMsg m).errcode = s.errcode := rfl
@[simp] theorem State.setMsg_ie (s : State) (m : List (Nat × Bool)) : (s.setMsg m).ie = s.ie := rfl
@[simp] theorem State.setMsg_layout (s : State) (m : List (Nat × Bool)) : (s.setMsg m).layout = s.layout := rfl
@[simp] theorem State.setMsg_faults (s : State) (m : List (Nat × Bool)) : (s.setMsg m).faults = s.faults := rfl
@[simp] theorem State.setMsg_bus (s : State) (m : List (Nat × Bool)) : (s.setMsg m).bus = s.bus := rfl
@[simp] theorem State.setMsg_answer (s : State) (m : List (Nat × Bool)) : (s.setMsg m).answer = s.answer := rfl
@[simp] theorem State.setMsg_draws (s : State) (m : List (Nat × Bool)) : (s.setMsg m).draws = s.draws := rfl
@[simp] theorem State.setMsg_freeReads (s : State) (m : List (Nat × Bool)) : (s.setMsg m).freeReads = s.freeReads := rfl
@[simp] theorem State.setMsg_cell (s : State) (m : List (Nat × Bool)) (x y : Nat) : (s.setMsg m).cell x y = s.cell x y := rfl
@[simp] theorem State.setMsg_busy (s : State) (m : List (Nat × Bool)) : (s.setMsg m).busy = s.busy := rfl

/-! ### writeCell -/

@[simp] theorem State.writeCell_cfg (s : State) (i j c : Nat) : (s.writeCell i j c).cfg = s.cfg := rfl
@[simp] theorem State.writeCell_cells (s : State) (i j c : Nat) : (s.writeCell i j c).cells = Sparse.set cellLt s.cells (i, j) c := rfl
@[simp] theorem State.writeCell_msg (s : State) (i j c : Nat) : (s.writeCell i j c).msg = s.msg := rfl
@[simp] theorem State.writeCell_pending (s : State) (i j c : Nat) : (s.writeCell i j c).pending = s.pending := rfl
@[simp] theorem State.writeCell_cmd (s : State) (i j c : Nat) : (s.writeCell i j c).cmd = s.cmd := rfl
@[simp] theorem State.writeCell_arg (s : State) (i j c : Nat) : (s.writeCell i j c).arg = s.arg := rfl
@[simp] theorem State.writeCell_done (s : State) (i j c : Nat) : (s.writeCell i j c).done = s.done := rfl
@[simp] theorem State.writeCell_err (s : State) (i j c : Nat) : (s.writeCell i j c).err = s.err := rfl
@[simp] theorem State.writeCell_eq (s : State) (i j c : Nat) : (s.writeCell i j c).eq = s.eq := rfl
@[simp] theorem State.writeCell_errcode (s : State) (i j c : Nat) : (s.writeCell i j c).errcode = s.errcode := rfl
@[simp] theorem State.writeCell_ie (s : State) (i j c : Nat) : (s.writeCell i j c).ie = s.ie := rfl
@[simp] theorem State.writeCell_layout (s : State) (i j c : Nat) : (s.writeCell i j c).layout = s.layout := rfl
@[simp] theorem State.writeCell_faults (s : State) (i j c : Nat) : (s.writeCell i j c).faults = s.faults := rfl
@[simp] theorem State.writeCell_bus (s : State) (i j c : Nat) : (s.writeCell i j c).bus = s.bus := rfl
@[simp] theorem State.writeCell_answer (s : State) (i j c : Nat) : (s.writeCell i j c).answer = s.answer := rfl
@[simp] theorem State.writeCell_draws (s : State) (i j c : Nat) : (s.writeCell i j c).draws = s.draws := rfl
@[simp] theorem State.writeCell_freeReads (s : State) (i j c : Nat) : (s.writeCell i j c).freeReads = s.freeReads := rfl
@[simp] theorem State.writeCell_msgBit (s : State) (i j c : Nat) (x : Nat) : (s.writeCell i j c).msgBit x = s.msgBit x := rfl
@[simp] theorem State.writeCell_busy (s : State) (i j c : Nat) : (s.writeCell i j c).busy = s.busy := rfl

/-! ### writeSlot -/

@[simp] theorem State.writeSlot_cfg (s : State) (i : Nat) (a : Elt) : (s.writeSlot i a).cfg = s.cfg := rfl
@[simp] theorem State.writeSlot_cells (s : State) (i : Nat) (a : Elt) : (s.writeSlot i a).cells = writeCoeffs s.cells i a (List.range s.cfg.n) := rfl
@[simp] theorem State.writeSlot_msg (s : State) (i : Nat) (a : Elt) : (s.writeSlot i a).msg = s.msg := rfl
@[simp] theorem State.writeSlot_pending (s : State) (i : Nat) (a : Elt) : (s.writeSlot i a).pending = s.pending := rfl
@[simp] theorem State.writeSlot_cmd (s : State) (i : Nat) (a : Elt) : (s.writeSlot i a).cmd = s.cmd := rfl
@[simp] theorem State.writeSlot_arg (s : State) (i : Nat) (a : Elt) : (s.writeSlot i a).arg = s.arg := rfl
@[simp] theorem State.writeSlot_done (s : State) (i : Nat) (a : Elt) : (s.writeSlot i a).done = s.done := rfl
@[simp] theorem State.writeSlot_err (s : State) (i : Nat) (a : Elt) : (s.writeSlot i a).err = s.err := rfl
@[simp] theorem State.writeSlot_eq (s : State) (i : Nat) (a : Elt) : (s.writeSlot i a).eq = s.eq := rfl
@[simp] theorem State.writeSlot_errcode (s : State) (i : Nat) (a : Elt) : (s.writeSlot i a).errcode = s.errcode := rfl
@[simp] theorem State.writeSlot_ie (s : State) (i : Nat) (a : Elt) : (s.writeSlot i a).ie = s.ie := rfl
@[simp] theorem State.writeSlot_layout (s : State) (i : Nat) (a : Elt) : (s.writeSlot i a).layout = s.layout := rfl
@[simp] theorem State.writeSlot_faults (s : State) (i : Nat) (a : Elt) : (s.writeSlot i a).faults = s.faults := rfl
@[simp] theorem State.writeSlot_bus (s : State) (i : Nat) (a : Elt) : (s.writeSlot i a).bus = s.bus := rfl
@[simp] theorem State.writeSlot_answer (s : State) (i : Nat) (a : Elt) : (s.writeSlot i a).answer = s.answer := rfl
@[simp] theorem State.writeSlot_draws (s : State) (i : Nat) (a : Elt) : (s.writeSlot i a).draws = s.draws := rfl
@[simp] theorem State.writeSlot_freeReads (s : State) (i : Nat) (a : Elt) : (s.writeSlot i a).freeReads = s.freeReads := rfl
@[simp] theorem State.writeSlot_msgBit (s : State) (i : Nat) (a : Elt) (x : Nat) : (s.writeSlot i a).msgBit x = s.msgBit x := rfl
@[simp] theorem State.writeSlot_busy (s : State) (i : Nat) (a : Elt) : (s.writeSlot i a).busy = s.busy := rfl

/-! ### writeMsg -/

@[simp] theorem State.writeMsg_cfg (s : State) (b : List Bool) : (s.writeMsg b).cfg = s.cfg := rfl
@[simp] theorem State.writeMsg_cells (s : State) (b : List Bool) : (s.writeMsg b).cells = s.cells := rfl
@[simp] theorem State.writeMsg_msg (s : State) (b : List Bool) : (s.writeMsg b).msg = writeBits s.msg (fun j => b.getD j false) (List.range s.cfg.n) := rfl
@[simp] theorem State.writeMsg_pending (s : State) (b : List Bool) : (s.writeMsg b).pending = s.pending := rfl
@[simp] theorem State.writeMsg_cmd (s : State) (b : List Bool) : (s.writeMsg b).cmd = s.cmd := rfl
@[simp] theorem State.writeMsg_arg (s : State) (b : List Bool) : (s.writeMsg b).arg = s.arg := rfl
@[simp] theorem State.writeMsg_done (s : State) (b : List Bool) : (s.writeMsg b).done = s.done := rfl
@[simp] theorem State.writeMsg_err (s : State) (b : List Bool) : (s.writeMsg b).err = s.err := rfl
@[simp] theorem State.writeMsg_eq (s : State) (b : List Bool) : (s.writeMsg b).eq = s.eq := rfl
@[simp] theorem State.writeMsg_errcode (s : State) (b : List Bool) : (s.writeMsg b).errcode = s.errcode := rfl
@[simp] theorem State.writeMsg_ie (s : State) (b : List Bool) : (s.writeMsg b).ie = s.ie := rfl
@[simp] theorem State.writeMsg_layout (s : State) (b : List Bool) : (s.writeMsg b).layout = s.layout := rfl
@[simp] theorem State.writeMsg_faults (s : State) (b : List Bool) : (s.writeMsg b).faults = s.faults := rfl
@[simp] theorem State.writeMsg_bus (s : State) (b : List Bool) : (s.writeMsg b).bus = s.bus := rfl
@[simp] theorem State.writeMsg_answer (s : State) (b : List Bool) : (s.writeMsg b).answer = s.answer := rfl
@[simp] theorem State.writeMsg_draws (s : State) (b : List Bool) : (s.writeMsg b).draws = s.draws := rfl
@[simp] theorem State.writeMsg_freeReads (s : State) (b : List Bool) : (s.writeMsg b).freeReads = s.freeReads := rfl
@[simp] theorem State.writeMsg_cell (s : State) (b : List Bool) (x y : Nat) : (s.writeMsg b).cell x y = s.cell x y := rfl
@[simp] theorem State.writeMsg_busy (s : State) (b : List Bool) : (s.writeMsg b).busy = s.busy := rfl

/-! ### setDone -/

@[simp] theorem State.setDone_cfg (s : State) (b : Bool) : (s.setDone b).cfg = s.cfg := rfl
@[simp] theorem State.setDone_cells (s : State) (b : Bool) : (s.setDone b).cells = s.cells := rfl
@[simp] theorem State.setDone_msg (s : State) (b : Bool) : (s.setDone b).msg = s.msg := rfl
@[simp] theorem State.setDone_pending (s : State) (b : Bool) : (s.setDone b).pending = s.pending := rfl
@[simp] theorem State.setDone_cmd (s : State) (b : Bool) : (s.setDone b).cmd = s.cmd := rfl
@[simp] theorem State.setDone_arg (s : State) (b : Bool) : (s.setDone b).arg = s.arg := rfl
@[simp] theorem State.setDone_done (s : State) (b : Bool) : (s.setDone b).done = b := rfl
@[simp] theorem State.setDone_err (s : State) (b : Bool) : (s.setDone b).err = s.err := rfl
@[simp] theorem State.setDone_eq (s : State) (b : Bool) : (s.setDone b).eq = s.eq := rfl
@[simp] theorem State.setDone_errcode (s : State) (b : Bool) : (s.setDone b).errcode = s.errcode := rfl
@[simp] theorem State.setDone_ie (s : State) (b : Bool) : (s.setDone b).ie = s.ie := rfl
@[simp] theorem State.setDone_layout (s : State) (b : Bool) : (s.setDone b).layout = s.layout := rfl
@[simp] theorem State.setDone_faults (s : State) (b : Bool) : (s.setDone b).faults = s.faults := rfl
@[simp] theorem State.setDone_bus (s : State) (b : Bool) : (s.setDone b).bus = s.bus := rfl
@[simp] theorem State.setDone_answer (s : State) (b : Bool) : (s.setDone b).answer = s.answer := rfl
@[simp] theorem State.setDone_draws (s : State) (b : Bool) : (s.setDone b).draws = s.draws := rfl
@[simp] theorem State.setDone_freeReads (s : State) (b : Bool) : (s.setDone b).freeReads = s.freeReads := rfl
@[simp] theorem State.setDone_cell (s : State) (b : Bool) (x y : Nat) : (s.setDone b).cell x y = s.cell x y := rfl
@[simp] theorem State.setDone_msgBit (s : State) (b : Bool) (x : Nat) : (s.setDone b).msgBit x = s.msgBit x := rfl
@[simp] theorem State.setDone_busy (s : State) (b : Bool) : (s.setDone b).busy = s.busy := rfl

/-! ### setEq -/

@[simp] theorem State.setEq_cfg (s : State) (b : Bool) : (s.setEq b).cfg = s.cfg := rfl
@[simp] theorem State.setEq_cells (s : State) (b : Bool) : (s.setEq b).cells = s.cells := rfl
@[simp] theorem State.setEq_msg (s : State) (b : Bool) : (s.setEq b).msg = s.msg := rfl
@[simp] theorem State.setEq_pending (s : State) (b : Bool) : (s.setEq b).pending = s.pending := rfl
@[simp] theorem State.setEq_cmd (s : State) (b : Bool) : (s.setEq b).cmd = s.cmd := rfl
@[simp] theorem State.setEq_arg (s : State) (b : Bool) : (s.setEq b).arg = s.arg := rfl
@[simp] theorem State.setEq_done (s : State) (b : Bool) : (s.setEq b).done = s.done := rfl
@[simp] theorem State.setEq_err (s : State) (b : Bool) : (s.setEq b).err = s.err := rfl
@[simp] theorem State.setEq_eq (s : State) (b : Bool) : (s.setEq b).eq = b := rfl
@[simp] theorem State.setEq_errcode (s : State) (b : Bool) : (s.setEq b).errcode = s.errcode := rfl
@[simp] theorem State.setEq_ie (s : State) (b : Bool) : (s.setEq b).ie = s.ie := rfl
@[simp] theorem State.setEq_layout (s : State) (b : Bool) : (s.setEq b).layout = s.layout := rfl
@[simp] theorem State.setEq_faults (s : State) (b : Bool) : (s.setEq b).faults = s.faults := rfl
@[simp] theorem State.setEq_bus (s : State) (b : Bool) : (s.setEq b).bus = s.bus := rfl
@[simp] theorem State.setEq_answer (s : State) (b : Bool) : (s.setEq b).answer = s.answer := rfl
@[simp] theorem State.setEq_draws (s : State) (b : Bool) : (s.setEq b).draws = s.draws := rfl
@[simp] theorem State.setEq_freeReads (s : State) (b : Bool) : (s.setEq b).freeReads = s.freeReads := rfl
@[simp] theorem State.setEq_cell (s : State) (b : Bool) (x y : Nat) : (s.setEq b).cell x y = s.cell x y := rfl
@[simp] theorem State.setEq_msgBit (s : State) (b : Bool) (x : Nat) : (s.setEq b).msgBit x = s.msgBit x := rfl
@[simp] theorem State.setEq_busy (s : State) (b : Bool) : (s.setEq b).busy = s.busy := rfl

/-! ### reportError -/

@[simp] theorem State.reportError_cfg (s : State) (c : ErrCode) : (s.reportError c).cfg = s.cfg := rfl
@[simp] theorem State.reportError_cells (s : State) (c : ErrCode) : (s.reportError c).cells = s.cells := rfl
@[simp] theorem State.reportError_msg (s : State) (c : ErrCode) : (s.reportError c).msg = s.msg := rfl
@[simp] theorem State.reportError_pending (s : State) (c : ErrCode) : (s.reportError c).pending = s.pending := rfl
@[simp] theorem State.reportError_cmd (s : State) (c : ErrCode) : (s.reportError c).cmd = s.cmd := rfl
@[simp] theorem State.reportError_arg (s : State) (c : ErrCode) : (s.reportError c).arg = s.arg := rfl
@[simp] theorem State.reportError_done (s : State) (c : ErrCode) : (s.reportError c).done = s.done := rfl
@[simp] theorem State.reportError_err (s : State) (c : ErrCode) : (s.reportError c).err = true := rfl
@[simp] theorem State.reportError_eq (s : State) (c : ErrCode) : (s.reportError c).eq = s.eq := rfl
@[simp] theorem State.reportError_errcode (s : State) (c : ErrCode) : (s.reportError c).errcode = if s.err then s.errcode else c := rfl
@[simp] theorem State.reportError_ie (s : State) (c : ErrCode) : (s.reportError c).ie = s.ie := rfl
@[simp] theorem State.reportError_layout (s : State) (c : ErrCode) : (s.reportError c).layout = s.layout := rfl
@[simp] theorem State.reportError_faults (s : State) (c : ErrCode) : (s.reportError c).faults = s.faults := rfl
@[simp] theorem State.reportError_bus (s : State) (c : ErrCode) : (s.reportError c).bus = s.bus := rfl
@[simp] theorem State.reportError_answer (s : State) (c : ErrCode) : (s.reportError c).answer = s.answer := rfl
@[simp] theorem State.reportError_draws (s : State) (c : ErrCode) : (s.reportError c).draws = s.draws := rfl
@[simp] theorem State.reportError_freeReads (s : State) (c : ErrCode) : (s.reportError c).freeReads = s.freeReads := rfl
@[simp] theorem State.reportError_cell (s : State) (c : ErrCode) (x y : Nat) : (s.reportError c).cell x y = s.cell x y := rfl
@[simp] theorem State.reportError_msgBit (s : State) (c : ErrCode) (x : Nat) : (s.reportError c).msgBit x = s.msgBit x := rfl
@[simp] theorem State.reportError_busy (s : State) (c : ErrCode) : (s.reportError c).busy = s.busy := rfl

/-! ### clearFlags -/

@[simp] theorem State.clearFlags_cfg (s : State) : s.clearFlags.cfg = s.cfg := rfl
@[simp] theorem State.clearFlags_cells (s : State) : s.clearFlags.cells = s.cells := rfl
@[simp] theorem State.clearFlags_msg (s : State) : s.clearFlags.msg = s.msg := rfl
@[simp] theorem State.clearFlags_pending (s : State) : s.clearFlags.pending = s.pending := rfl
@[simp] theorem State.clearFlags_cmd (s : State) : s.clearFlags.cmd = s.cmd := rfl
@[simp] theorem State.clearFlags_arg (s : State) : s.clearFlags.arg = s.arg := rfl
@[simp] theorem State.clearFlags_done (s : State) : s.clearFlags.done = false := rfl
@[simp] theorem State.clearFlags_err (s : State) : s.clearFlags.err = false := rfl
@[simp] theorem State.clearFlags_eq (s : State) : s.clearFlags.eq = s.eq := rfl
@[simp] theorem State.clearFlags_errcode (s : State) : s.clearFlags.errcode = ErrCode.noError := rfl
@[simp] theorem State.clearFlags_ie (s : State) : s.clearFlags.ie = s.ie := rfl
@[simp] theorem State.clearFlags_layout (s : State) : s.clearFlags.layout = s.layout := rfl
@[simp] theorem State.clearFlags_faults (s : State) : s.clearFlags.faults = s.faults := rfl
@[simp] theorem State.clearFlags_bus (s : State) : s.clearFlags.bus = s.bus := rfl
@[simp] theorem State.clearFlags_answer (s : State) : s.clearFlags.answer = s.answer := rfl
@[simp] theorem State.clearFlags_draws (s : State) : s.clearFlags.draws = s.draws := rfl
@[simp] theorem State.clearFlags_freeReads (s : State) : s.clearFlags.freeReads = s.freeReads := rfl
@[simp] theorem State.clearFlags_cell (s : State) (x y : Nat) : s.clearFlags.cell x y = s.cell x y := rfl
@[simp] theorem State.clearFlags_msgBit (s : State) (x : Nat) : s.clearFlags.msgBit x = s.msgBit x := rfl
@[simp] theorem State.clearFlags_busy (s : State) : s.clearFlags.busy = s.busy := rfl

/-! ### recordFault -/

@[simp] theorem State.recordFault_cfg (s : State) (w : Uninit) : (s.recordFault w).cfg = s.cfg := rfl
@[simp] theorem State.recordFault_cells (s : State) (w : Uninit) : (s.recordFault w).cells = s.cells := rfl
@[simp] theorem State.recordFault_msg (s : State) (w : Uninit) : (s.recordFault w).msg = s.msg := rfl
@[simp] theorem State.recordFault_pending (s : State) (w : Uninit) : (s.recordFault w).pending = s.pending := rfl
@[simp] theorem State.recordFault_cmd (s : State) (w : Uninit) : (s.recordFault w).cmd = s.cmd := rfl
@[simp] theorem State.recordFault_arg (s : State) (w : Uninit) : (s.recordFault w).arg = s.arg := rfl
@[simp] theorem State.recordFault_done (s : State) (w : Uninit) : (s.recordFault w).done = s.done := rfl
@[simp] theorem State.recordFault_err (s : State) (w : Uninit) : (s.recordFault w).err = s.err := rfl
@[simp] theorem State.recordFault_eq (s : State) (w : Uninit) : (s.recordFault w).eq = s.eq := rfl
@[simp] theorem State.recordFault_errcode (s : State) (w : Uninit) : (s.recordFault w).errcode = s.errcode := rfl
@[simp] theorem State.recordFault_ie (s : State) (w : Uninit) : (s.recordFault w).ie = s.ie := rfl
@[simp] theorem State.recordFault_layout (s : State) (w : Uninit) : (s.recordFault w).layout = s.layout := rfl
@[simp] theorem State.recordFault_faults (s : State) (w : Uninit) : (s.recordFault w).faults = s.faults ++ [w] := rfl
@[simp] theorem State.recordFault_bus (s : State) (w : Uninit) : (s.recordFault w).bus = s.bus := rfl
@[simp] theorem State.recordFault_answer (s : State) (w : Uninit) : (s.recordFault w).answer = s.answer := rfl
@[simp] theorem State.recordFault_draws (s : State) (w : Uninit) : (s.recordFault w).draws = s.draws := rfl
@[simp] theorem State.recordFault_freeReads (s : State) (w : Uninit) : (s.recordFault w).freeReads = s.freeReads := rfl
@[simp] theorem State.recordFault_cell (s : State) (w : Uninit) (x y : Nat) : (s.recordFault w).cell x y = s.cell x y := rfl
@[simp] theorem State.recordFault_msgBit (s : State) (w : Uninit) (x : Nat) : (s.recordFault w).msgBit x = s.msgBit x := rfl
@[simp] theorem State.recordFault_busy (s : State) (w : Uninit) : (s.recordFault w).busy = s.busy := rfl

/-! ### takeDraws -/

@[simp] theorem State.takeDraws_cfg (s : State) (m : Nat) : (s.takeDraws m).cfg = s.cfg := rfl
@[simp] theorem State.takeDraws_cells (s : State) (m : Nat) : (s.takeDraws m).cells = s.cells := rfl
@[simp] theorem State.takeDraws_msg (s : State) (m : Nat) : (s.takeDraws m).msg = s.msg := rfl
@[simp] theorem State.takeDraws_pending (s : State) (m : Nat) : (s.takeDraws m).pending = s.pending := rfl
@[simp] theorem State.takeDraws_cmd (s : State) (m : Nat) : (s.takeDraws m).cmd = s.cmd := rfl
@[simp] theorem State.takeDraws_arg (s : State) (m : Nat) : (s.takeDraws m).arg = s.arg := rfl
@[simp] theorem State.takeDraws_done (s : State) (m : Nat) : (s.takeDraws m).done = s.done := rfl
@[simp] theorem State.takeDraws_err (s : State) (m : Nat) : (s.takeDraws m).err = s.err := rfl
@[simp] theorem State.takeDraws_eq (s : State) (m : Nat) : (s.takeDraws m).eq = s.eq := rfl
@[simp] theorem State.takeDraws_errcode (s : State) (m : Nat) : (s.takeDraws m).errcode = s.errcode := rfl
@[simp] theorem State.takeDraws_ie (s : State) (m : Nat) : (s.takeDraws m).ie = s.ie := rfl
@[simp] theorem State.takeDraws_layout (s : State) (m : Nat) : (s.takeDraws m).layout = s.layout := rfl
@[simp] theorem State.takeDraws_faults (s : State) (m : Nat) : (s.takeDraws m).faults = s.faults := rfl
@[simp] theorem State.takeDraws_bus (s : State) (m : Nat) : (s.takeDraws m).bus = s.bus := rfl
@[simp] theorem State.takeDraws_answer (s : State) (m : Nat) : (s.takeDraws m).answer = s.answer := rfl
@[simp] theorem State.takeDraws_draws (s : State) (m : Nat) : (s.takeDraws m).draws = s.draws + m := rfl
@[simp] theorem State.takeDraws_freeReads (s : State) (m : Nat) : (s.takeDraws m).freeReads = s.freeReads := rfl
@[simp] theorem State.takeDraws_cell (s : State) (m : Nat) (x y : Nat) : (s.takeDraws m).cell x y = s.cell x y := rfl
@[simp] theorem State.takeDraws_msgBit (s : State) (m : Nat) (x : Nat) : (s.takeDraws m).msgBit x = s.msgBit x := rfl
@[simp] theorem State.takeDraws_busy (s : State) (m : Nat) : (s.takeDraws m).busy = s.busy := rfl

/-! ### takeFreeRead -/

@[simp] theorem State.takeFreeRead_cfg (s : State) : s.takeFreeRead.cfg = s.cfg := rfl
@[simp] theorem State.takeFreeRead_cells (s : State) : s.takeFreeRead.cells = s.cells := rfl
@[simp] theorem State.takeFreeRead_msg (s : State) : s.takeFreeRead.msg = s.msg := rfl
@[simp] theorem State.takeFreeRead_pending (s : State) : s.takeFreeRead.pending = s.pending := rfl
@[simp] theorem State.takeFreeRead_cmd (s : State) : s.takeFreeRead.cmd = s.cmd := rfl
@[simp] theorem State.takeFreeRead_arg (s : State) : s.takeFreeRead.arg = s.arg := rfl
@[simp] theorem State.takeFreeRead_done (s : State) : s.takeFreeRead.done = s.done := rfl
@[simp] theorem State.takeFreeRead_err (s : State) : s.takeFreeRead.err = s.err := rfl
@[simp] theorem State.takeFreeRead_eq (s : State) : s.takeFreeRead.eq = s.eq := rfl
@[simp] theorem State.takeFreeRead_errcode (s : State) : s.takeFreeRead.errcode = s.errcode := rfl
@[simp] theorem State.takeFreeRead_ie (s : State) : s.takeFreeRead.ie = s.ie := rfl
@[simp] theorem State.takeFreeRead_layout (s : State) : s.takeFreeRead.layout = s.layout := rfl
@[simp] theorem State.takeFreeRead_faults (s : State) : s.takeFreeRead.faults = s.faults := rfl
@[simp] theorem State.takeFreeRead_bus (s : State) : s.takeFreeRead.bus = s.bus := rfl
@[simp] theorem State.takeFreeRead_answer (s : State) : s.takeFreeRead.answer = s.answer := rfl
@[simp] theorem State.takeFreeRead_draws (s : State) : s.takeFreeRead.draws = s.draws := rfl
@[simp] theorem State.takeFreeRead_freeReads (s : State) : s.takeFreeRead.freeReads = s.freeReads + 1 := rfl
@[simp] theorem State.takeFreeRead_cell (s : State) (x y : Nat) : s.takeFreeRead.cell x y = s.cell x y := rfl
@[simp] theorem State.takeFreeRead_msgBit (s : State) (x : Nat) : s.takeFreeRead.msgBit x = s.msgBit x := rfl
@[simp] theorem State.takeFreeRead_busy (s : State) : s.takeFreeRead.busy = s.busy := rfl

/-! ### emptyPending -/

@[simp] theorem State.emptyPending_cfg (s : State) : s.emptyPending.cfg = s.cfg := rfl
@[simp] theorem State.emptyPending_cells (s : State) : s.emptyPending.cells = s.cells := rfl
@[simp] theorem State.emptyPending_msg (s : State) : s.emptyPending.msg = s.msg := rfl
@[simp] theorem State.emptyPending_pending (s : State) : s.emptyPending.pending = none := rfl
@[simp] theorem State.emptyPending_cmd (s : State) : s.emptyPending.cmd = s.cmd := rfl
@[simp] theorem State.emptyPending_arg (s : State) : s.emptyPending.arg = s.arg := rfl
@[simp] theorem State.emptyPending_done (s : State) : s.emptyPending.done = s.done := rfl
@[simp] theorem State.emptyPending_err (s : State) : s.emptyPending.err = s.err := rfl
@[simp] theorem State.emptyPending_eq (s : State) : s.emptyPending.eq = s.eq := rfl
@[simp] theorem State.emptyPending_errcode (s : State) : s.emptyPending.errcode = s.errcode := rfl
@[simp] theorem State.emptyPending_ie (s : State) : s.emptyPending.ie = s.ie := rfl
@[simp] theorem State.emptyPending_layout (s : State) : s.emptyPending.layout = s.layout := rfl
@[simp] theorem State.emptyPending_faults (s : State) : s.emptyPending.faults = s.faults := rfl
@[simp] theorem State.emptyPending_bus (s : State) : s.emptyPending.bus = s.bus := rfl
@[simp] theorem State.emptyPending_answer (s : State) : s.emptyPending.answer = s.answer := rfl
@[simp] theorem State.emptyPending_draws (s : State) : s.emptyPending.draws = s.draws := rfl
@[simp] theorem State.emptyPending_freeReads (s : State) : s.emptyPending.freeReads = s.freeReads := rfl
@[simp] theorem State.emptyPending_cell (s : State) (x y : Nat) : s.emptyPending.cell x y = s.cell x y := rfl
@[simp] theorem State.emptyPending_msgBit (s : State) (x : Nat) : s.emptyPending.msgBit x = s.msgBit x := rfl

/-! ### dropEvent -/

@[simp] theorem State.dropEvent_cfg (s : State) : s.dropEvent.cfg = s.cfg := rfl
@[simp] theorem State.dropEvent_cells (s : State) : s.dropEvent.cells = s.cells := rfl
@[simp] theorem State.dropEvent_msg (s : State) : s.dropEvent.msg = s.msg := rfl
@[simp] theorem State.dropEvent_pending (s : State) : s.dropEvent.pending = s.pending := rfl
@[simp] theorem State.dropEvent_cmd (s : State) : s.dropEvent.cmd = s.cmd := rfl
@[simp] theorem State.dropEvent_arg (s : State) : s.dropEvent.arg = s.arg := rfl
@[simp] theorem State.dropEvent_done (s : State) : s.dropEvent.done = s.done := rfl
@[simp] theorem State.dropEvent_err (s : State) : s.dropEvent.err = s.err := rfl
@[simp] theorem State.dropEvent_eq (s : State) : s.dropEvent.eq = s.eq := rfl
@[simp] theorem State.dropEvent_errcode (s : State) : s.dropEvent.errcode = s.errcode := rfl
@[simp] theorem State.dropEvent_ie (s : State) : s.dropEvent.ie = s.ie := rfl
@[simp] theorem State.dropEvent_layout (s : State) : s.dropEvent.layout = s.layout := rfl
@[simp] theorem State.dropEvent_faults (s : State) : s.dropEvent.faults = s.faults := rfl
@[simp] theorem State.dropEvent_bus (s : State) : s.dropEvent.bus = s.bus.tail := rfl
@[simp] theorem State.dropEvent_answer (s : State) : s.dropEvent.answer = s.answer := rfl
@[simp] theorem State.dropEvent_draws (s : State) : s.dropEvent.draws = s.draws := rfl
@[simp] theorem State.dropEvent_freeReads (s : State) : s.dropEvent.freeReads = s.freeReads := rfl
@[simp] theorem State.dropEvent_cell (s : State) (x y : Nat) : s.dropEvent.cell x y = s.cell x y := rfl
@[simp] theorem State.dropEvent_msgBit (s : State) (x : Nat) : s.dropEvent.msgBit x = s.msgBit x := rfl
@[simp] theorem State.dropEvent_busy (s : State) : s.dropEvent.busy = s.busy := rfl

/-! ### setAnswer -/

@[simp] theorem State.setAnswer_cfg (s : State) (a : Answer) : (s.setAnswer a).cfg = s.cfg := rfl
@[simp] theorem State.setAnswer_cells (s : State) (a : Answer) : (s.setAnswer a).cells = s.cells := rfl
@[simp] theorem State.setAnswer_msg (s : State) (a : Answer) : (s.setAnswer a).msg = s.msg := rfl
@[simp] theorem State.setAnswer_pending (s : State) (a : Answer) : (s.setAnswer a).pending = s.pending := rfl
@[simp] theorem State.setAnswer_cmd (s : State) (a : Answer) : (s.setAnswer a).cmd = s.cmd := rfl
@[simp] theorem State.setAnswer_arg (s : State) (a : Answer) : (s.setAnswer a).arg = s.arg := rfl
@[simp] theorem State.setAnswer_done (s : State) (a : Answer) : (s.setAnswer a).done = s.done := rfl
@[simp] theorem State.setAnswer_err (s : State) (a : Answer) : (s.setAnswer a).err = s.err := rfl
@[simp] theorem State.setAnswer_eq (s : State) (a : Answer) : (s.setAnswer a).eq = s.eq := rfl
@[simp] theorem State.setAnswer_errcode (s : State) (a : Answer) : (s.setAnswer a).errcode = s.errcode := rfl
@[simp] theorem State.setAnswer_ie (s : State) (a : Answer) : (s.setAnswer a).ie = s.ie := rfl
@[simp] theorem State.setAnswer_layout (s : State) (a : Answer) : (s.setAnswer a).layout = s.layout := rfl
@[simp] theorem State.setAnswer_faults (s : State) (a : Answer) : (s.setAnswer a).faults = s.faults := rfl
@[simp] theorem State.setAnswer_bus (s : State) (a : Answer) : (s.setAnswer a).bus = s.bus := rfl
@[simp] theorem State.setAnswer_answer (s : State) (a : Answer) : (s.setAnswer a).answer = some a := rfl
@[simp] theorem State.setAnswer_draws (s : State) (a : Answer) : (s.setAnswer a).draws = s.draws := rfl
@[simp] theorem State.setAnswer_freeReads (s : State) (a : Answer) : (s.setAnswer a).freeReads = s.freeReads := rfl
@[simp] theorem State.setAnswer_cell (s : State) (a : Answer) (x y : Nat) : (s.setAnswer a).cell x y = s.cell x y := rfl
@[simp] theorem State.setAnswer_msgBit (s : State) (a : Answer) (x : Nat) : (s.setAnswer a).msgBit x = s.msgBit x := rfl
@[simp] theorem State.setAnswer_busy (s : State) (a : Answer) : (s.setAnswer a).busy = s.busy := rfl

/-! ### issue -/

@[simp] theorem State.issue_cfg (s : State) (v : Word) : (s.issue v).cfg = s.cfg := rfl
@[simp] theorem State.issue_cells (s : State) (v : Word) : (s.issue v).cells = s.cells := rfl
@[simp] theorem State.issue_msg (s : State) (v : Word) : (s.issue v).msg = s.msg := rfl
@[simp] theorem State.issue_pending (s : State) (v : Word) : (s.issue v).pending = some v := rfl
@[simp] theorem State.issue_cmd (s : State) (v : Word) : (s.issue v).cmd = v := rfl
@[simp] theorem State.issue_arg (s : State) (v : Word) : (s.issue v).arg = s.arg := rfl
@[simp] theorem State.issue_done (s : State) (v : Word) : (s.issue v).done = false := rfl
@[simp] theorem State.issue_err (s : State) (v : Word) : (s.issue v).err = s.err := rfl
@[simp] theorem State.issue_eq (s : State) (v : Word) : (s.issue v).eq = s.eq := rfl
@[simp] theorem State.issue_errcode (s : State) (v : Word) : (s.issue v).errcode = s.errcode := rfl
@[simp] theorem State.issue_ie (s : State) (v : Word) : (s.issue v).ie = s.ie := rfl
@[simp] theorem State.issue_layout (s : State) (v : Word) : (s.issue v).layout = s.layout := rfl
@[simp] theorem State.issue_faults (s : State) (v : Word) : (s.issue v).faults = s.faults := rfl
@[simp] theorem State.issue_bus (s : State) (v : Word) : (s.issue v).bus = s.bus := rfl
@[simp] theorem State.issue_answer (s : State) (v : Word) : (s.issue v).answer = s.answer := rfl
@[simp] theorem State.issue_draws (s : State) (v : Word) : (s.issue v).draws = s.draws := rfl
@[simp] theorem State.issue_freeReads (s : State) (v : Word) : (s.issue v).freeReads = s.freeReads := rfl
@[simp] theorem State.issue_cell (s : State) (v : Word) (x y : Nat) : (s.issue v).cell x y = s.cell x y := rfl
@[simp] theorem State.issue_msgBit (s : State) (v : Word) (x : Nat) : (s.issue v).msgBit x = s.msgBit x := rfl

/-! ### setArg -/

@[simp] theorem State.setArg_cfg (s : State) (v : Word) : (s.setArg v).cfg = s.cfg := rfl
@[simp] theorem State.setArg_cells (s : State) (v : Word) : (s.setArg v).cells = s.cells := rfl
@[simp] theorem State.setArg_msg (s : State) (v : Word) : (s.setArg v).msg = s.msg := rfl
@[simp] theorem State.setArg_pending (s : State) (v : Word) : (s.setArg v).pending = s.pending := rfl
@[simp] theorem State.setArg_cmd (s : State) (v : Word) : (s.setArg v).cmd = s.cmd := rfl
@[simp] theorem State.setArg_arg (s : State) (v : Word) : (s.setArg v).arg = v := rfl
@[simp] theorem State.setArg_done (s : State) (v : Word) : (s.setArg v).done = s.done := rfl
@[simp] theorem State.setArg_err (s : State) (v : Word) : (s.setArg v).err = s.err := rfl
@[simp] theorem State.setArg_eq (s : State) (v : Word) : (s.setArg v).eq = s.eq := rfl
@[simp] theorem State.setArg_errcode (s : State) (v : Word) : (s.setArg v).errcode = s.errcode := rfl
@[simp] theorem State.setArg_ie (s : State) (v : Word) : (s.setArg v).ie = s.ie := rfl
@[simp] theorem State.setArg_layout (s : State) (v : Word) : (s.setArg v).layout = s.layout := rfl
@[simp] theorem State.setArg_faults (s : State) (v : Word) : (s.setArg v).faults = s.faults := rfl
@[simp] theorem State.setArg_bus (s : State) (v : Word) : (s.setArg v).bus = s.bus := rfl
@[simp] theorem State.setArg_answer (s : State) (v : Word) : (s.setArg v).answer = s.answer := rfl
@[simp] theorem State.setArg_draws (s : State) (v : Word) : (s.setArg v).draws = s.draws := rfl
@[simp] theorem State.setArg_freeReads (s : State) (v : Word) : (s.setArg v).freeReads = s.freeReads := rfl
@[simp] theorem State.setArg_cell (s : State) (v : Word) (x y : Nat) : (s.setArg v).cell x y = s.cell x y := rfl
@[simp] theorem State.setArg_msgBit (s : State) (v : Word) (x : Nat) : (s.setArg v).msgBit x = s.msgBit x := rfl
@[simp] theorem State.setArg_busy (s : State) (v : Word) : (s.setArg v).busy = s.busy := rfl

/-! ### setLayout -/

@[simp] theorem State.setLayout_cfg (s : State) (l : Layout) : (s.setLayout l).cfg = s.cfg := rfl
@[simp] theorem State.setLayout_cells (s : State) (l : Layout) : (s.setLayout l).cells = s.cells := rfl
@[simp] theorem State.setLayout_msg (s : State) (l : Layout) : (s.setLayout l).msg = s.msg := rfl
@[simp] theorem State.setLayout_pending (s : State) (l : Layout) : (s.setLayout l).pending = s.pending := rfl
@[simp] theorem State.setLayout_cmd (s : State) (l : Layout) : (s.setLayout l).cmd = s.cmd := rfl
@[simp] theorem State.setLayout_arg (s : State) (l : Layout) : (s.setLayout l).arg = s.arg := rfl
@[simp] theorem State.setLayout_done (s : State) (l : Layout) : (s.setLayout l).done = s.done := rfl
@[simp] theorem State.setLayout_err (s : State) (l : Layout) : (s.setLayout l).err = s.err := rfl
@[simp] theorem State.setLayout_eq (s : State) (l : Layout) : (s.setLayout l).eq = s.eq := rfl
@[simp] theorem State.setLayout_errcode (s : State) (l : Layout) : (s.setLayout l).errcode = s.errcode := rfl
@[simp] theorem State.setLayout_ie (s : State) (l : Layout) : (s.setLayout l).ie = s.ie := rfl
@[simp] theorem State.setLayout_layout (s : State) (l : Layout) : (s.setLayout l).layout = l := rfl
@[simp] theorem State.setLayout_faults (s : State) (l : Layout) : (s.setLayout l).faults = s.faults := rfl
@[simp] theorem State.setLayout_bus (s : State) (l : Layout) : (s.setLayout l).bus = s.bus := rfl
@[simp] theorem State.setLayout_answer (s : State) (l : Layout) : (s.setLayout l).answer = s.answer := rfl
@[simp] theorem State.setLayout_draws (s : State) (l : Layout) : (s.setLayout l).draws = s.draws := rfl
@[simp] theorem State.setLayout_freeReads (s : State) (l : Layout) : (s.setLayout l).freeReads = s.freeReads := rfl
@[simp] theorem State.setLayout_cell (s : State) (l : Layout) (x y : Nat) : (s.setLayout l).cell x y = s.cell x y := rfl
@[simp] theorem State.setLayout_msgBit (s : State) (l : Layout) (x : Nat) : (s.setLayout l).msgBit x = s.msgBit x := rfl
@[simp] theorem State.setLayout_busy (s : State) (l : Layout) : (s.setLayout l).busy = s.busy := rfl

/-! ### setIe -/

@[simp] theorem State.setIe_cfg (s : State) (b : Bool) : (s.setIe b).cfg = s.cfg := rfl
@[simp] theorem State.setIe_cells (s : State) (b : Bool) : (s.setIe b).cells = s.cells := rfl
@[simp] theorem State.setIe_msg (s : State) (b : Bool) : (s.setIe b).msg = s.msg := rfl
@[simp] theorem State.setIe_pending (s : State) (b : Bool) : (s.setIe b).pending = s.pending := rfl
@[simp] theorem State.setIe_cmd (s : State) (b : Bool) : (s.setIe b).cmd = s.cmd := rfl
@[simp] theorem State.setIe_arg (s : State) (b : Bool) : (s.setIe b).arg = s.arg := rfl
@[simp] theorem State.setIe_done (s : State) (b : Bool) : (s.setIe b).done = s.done := rfl
@[simp] theorem State.setIe_err (s : State) (b : Bool) : (s.setIe b).err = s.err := rfl
@[simp] theorem State.setIe_eq (s : State) (b : Bool) : (s.setIe b).eq = s.eq := rfl
@[simp] theorem State.setIe_errcode (s : State) (b : Bool) : (s.setIe b).errcode = s.errcode := rfl
@[simp] theorem State.setIe_ie (s : State) (b : Bool) : (s.setIe b).ie = b := rfl
@[simp] theorem State.setIe_layout (s : State) (b : Bool) : (s.setIe b).layout = s.layout := rfl
@[simp] theorem State.setIe_faults (s : State) (b : Bool) : (s.setIe b).faults = s.faults := rfl
@[simp] theorem State.setIe_bus (s : State) (b : Bool) : (s.setIe b).bus = s.bus := rfl
@[simp] theorem State.setIe_answer (s : State) (b : Bool) : (s.setIe b).answer = s.answer := rfl
@[simp] theorem State.setIe_draws (s : State) (b : Bool) : (s.setIe b).draws = s.draws := rfl
@[simp] theorem State.setIe_freeReads (s : State) (b : Bool) : (s.setIe b).freeReads = s.freeReads := rfl
@[simp] theorem State.setIe_cell (s : State) (b : Bool) (x y : Nat) : (s.setIe b).cell x y = s.cell x y := rfl
@[simp] theorem State.setIe_msgBit (s : State) (b : Bool) (x : Nat) : (s.setIe b).msgBit x = s.msgBit x := rfl
@[simp] theorem State.setIe_busy (s : State) (b : Bool) : (s.setIe b).busy = s.busy := rfl

/-! ### resetUnit -/

@[simp] theorem State.resetUnit_cfg (s : State) : s.resetUnit.cfg = s.cfg := rfl
@[simp] theorem State.resetUnit_cells (s : State) : s.resetUnit.cells = [] := rfl
@[simp] theorem State.resetUnit_msg (s : State) : s.resetUnit.msg = [] := rfl
@[simp] theorem State.resetUnit_pending (s : State) : s.resetUnit.pending = none := rfl
@[simp] theorem State.resetUnit_cmd (s : State) : s.resetUnit.cmd = 0#32 := rfl
@[simp] theorem State.resetUnit_arg (s : State) : s.resetUnit.arg = 0#32 := rfl
@[simp] theorem State.resetUnit_done (s : State) : s.resetUnit.done = false := rfl
@[simp] theorem State.resetUnit_err (s : State) : s.resetUnit.err = false := rfl
@[simp] theorem State.resetUnit_eq (s : State) : s.resetUnit.eq = false := rfl
@[simp] theorem State.resetUnit_errcode (s : State) : s.resetUnit.errcode = ErrCode.noError := rfl
@[simp] theorem State.resetUnit_ie (s : State) : s.resetUnit.ie = false := rfl
@[simp] theorem State.resetUnit_layout (s : State) : s.resetUnit.layout = ⟨0#8, 0#8, 0#8, 0#8, 0#8⟩ := rfl
@[simp] theorem State.resetUnit_faults (s : State) : s.resetUnit.faults = s.faults := rfl
@[simp] theorem State.resetUnit_bus (s : State) : s.resetUnit.bus = s.bus := rfl
@[simp] theorem State.resetUnit_answer (s : State) : s.resetUnit.answer = s.answer := rfl
@[simp] theorem State.resetUnit_draws (s : State) : s.resetUnit.draws = s.draws := rfl
@[simp] theorem State.resetUnit_freeReads (s : State) : s.resetUnit.freeReads = s.freeReads := rfl

end Sys2Proof.Machine
end

