-- ==== Sys2Proof/Laws/Store.lean ====
section
/-! SUPPORT. Laws/Store.lean: the laws of the sparse storage: a read after a write, that every write
keeps the canonical form, and what the reads of whole slots and of the message register answer. -/

namespace Sys2Proof.Machine

/-! ### Read after write -/

/-- A read after a write gives the value written at that key and the old value elsewhere. -/
theorem Sparse.get_set {κ ν : Type} [DecidableEq κ] (lt : κ → κ → Bool) (l : List (κ × ν)) (k k' : κ)
    (v : ν) : Sparse.get (Sparse.set lt l k v) k' = if k = k' then some v else Sparse.get l k' := by
  induction l with
  | nil => simp [Sparse.set, Sparse.get]
  | cons e rest ih =>
    obtain ⟨k₀, v₀⟩ := e
    rw [Sparse.set]
    split
    · next h0 => subst h0; simp only [Sparse.get]; split <;> rfl
    · next h0 =>
      split
      · next hl => rfl
      · next hl =>
        simp only [Sparse.get, ih]
        by_cases h1 : k₀ = k'
        · have : k ≠ k' := fun h => h0 (h1.trans h.symm)
          simp [h1, this]
        · simp [h1]

/-- One cell after a write to a cell. -/
theorem State.cell_writeCell (s : State) (i j c i' j' : Nat) :
    (s.writeCell i j c).cell i' j' = if i = i' ∧ j = j' then some c else s.cell i' j' := by
  simp [State.cell, Sparse.get_set]

theorem get_writeCoeffs (js : List Nat) (cells : List ((Nat × Nat) × Nat)) (i : Nat) (a : Elt)
    (i' j' : Nat) : Sparse.get (writeCoeffs cells i a js) (i', j')
      = if i = i' ∧ j' ∈ js then some (coef a j') else Sparse.get cells (i', j') := by
  induction js generalizing cells with
  | nil => simp [writeCoeffs]
  | cons j js ih =>
    rw [writeCoeffs, ih, Sparse.get_set]
    simp only [Prod.mk.injEq, List.mem_cons]
    by_cases hi : i = i'
    · by_cases hj : j = j'
      · subst hj; simp [hi]
      · simp [hi, hj, Ne.symm hj]
    · simp [hi]

/-- One cell after a slot is written whole. -/
theorem State.cell_writeSlot (s : State) (i : Nat) (a : Elt) (i' j' : Nat) :
    (s.writeSlot i a).cell i' j'
      = if i = i' ∧ j' < s.cfg.n then some (coef a j') else s.cell i' j' := by
  simp [State.cell, get_writeCoeffs]

/-- A run writes cells and nothing else. -/
theorem State.writeRun_eq (s : State) (base : Nat) (es : List Elt) :
    s.writeRun base es = s.setCells (s.writeRun base es).cells := by
  induction es generalizing s base with
  | nil => rfl
  | cons a rest ih => rw [State.writeRun, ih]; rfl

@[simp] theorem State.writeRun_cfg (s : State) (base : Nat) (es : List Elt) :
    (s.writeRun base es).cfg = s.cfg := by rw [State.writeRun_eq]; rfl

/-- One cell after a run of slots is written. -/
theorem State.cell_writeRun (s : State) (base : Nat) (es : List Elt) (i j : Nat) :
    (s.writeRun base es).cell i j
      = if base ≤ i ∧ i < base + es.length ∧ j < s.cfg.n then some (coef (es.getD (i - base) []) j)
        else s.cell i j := by
  induction es generalizing s base with
  | nil => simp [State.writeRun]; omega
  | cons a rest ih =>
    rw [State.writeRun, ih, State.cell_writeSlot]
    by_cases hb : base = i
    · subst hb
      simp
    · by_cases h1 : base + 1 ≤ i ∧ i < base + 1 + rest.length ∧ j < s.cfg.n
      · have h2 : base ≤ i ∧ i < base + (rest.length + 1) ∧ j < s.cfg.n := by omega
        have h3 : i - base = (i - (base + 1)) + 1 := by omega
        simp [h1, h2, h3]
      · have h2 : ¬ (base ≤ i ∧ i < base + (rest.length + 1) ∧ j < s.cfg.n) := by omega
        rw [State.writeSlot_cfg, if_neg h1, if_neg (fun h => hb h.1), if_neg (by simpa using h2)]

theorem get_writeBits (js : List Nat) (m : List (Nat × Bool)) (f : Nat → Bool) (j' : Nat) :
    Sparse.get (writeBits m f js) j' = if j' ∈ js then some (f j') else Sparse.get m j' := by
  induction js generalizing m with
  | nil => simp [writeBits]
  | cons j js ih =>
    rw [writeBits, ih, Sparse.get_set]
    simp only [List.mem_cons]
    by_cases hj : j = j'
    · subst hj; simp
    · simp [hj, Ne.symm hj]

/-- One bit after the message register is written whole. -/
theorem State.msgBit_writeMsg (s : State) (b : List Bool) (j : Nat) :
    (s.writeMsg b).msgBit j = if j < s.cfg.n then some (b.getD j false) else s.msgBit j := by
  simp [State.msgBit, get_writeBits]

/-! ### The canonical form -/

/-- A strict total order of keys. -/
structure StrictOrder {κ : Type} (lt : κ → κ → Bool) : Prop where
  trans : ∀ a b c, lt a b = true → lt b c = true → lt a c = true
  total : ∀ a b, a ≠ b → lt a b = false → lt b a = true

theorem bitLt_order : StrictOrder bitLt :=
  ⟨by intro a b c; simp [bitLt]; omega, by intro a b; simp [bitLt]; omega⟩

theorem cellLt_order : StrictOrder cellLt := by
  constructor
  · rintro ⟨a, a'⟩ ⟨b, b'⟩ ⟨c, c'⟩; simp [cellLt]; omega
  · rintro ⟨a, a'⟩ ⟨b, b'⟩; simp [cellLt]; omega

/-- The head of a list after a write is the written key or the old head. -/
theorem Sparse.sorted_cons {κ ν : Type} {lt : κ → κ → Bool} {a : κ × ν} {l : List (κ × ν)} :
    Sparse.sorted lt (a :: l) = true
      ↔ (∀ b, l.head? = some b → lt a.1 b.1 = true) ∧ Sparse.sorted lt l = true := by
  cases l with
  | nil => simp [Sparse.sorted]
  | cons b rest => simp [Sparse.sorted]

theorem Sparse.head_set {κ ν : Type} [DecidableEq κ] (lt : κ → κ → Bool) (l : List (κ × ν)) (k : κ)
    (v : ν) (b : κ × ν) (h : (Sparse.set lt l k v).head? = some b) :
    b = (k, v) ∨ l.head? = some b := by
  cases l with
  | nil => simp_all [Sparse.set]
  | cons e rest =>
    obtain ⟨k₀, v₀⟩ := e
    simp only [Sparse.set] at h
    split at h
    · simp_all
    · split at h <;> simp_all

/-- A write keeps the canonical form. -/
theorem Sparse.sorted_set {κ ν : Type} [DecidableEq κ] {lt : κ → κ → Bool} (o : StrictOrder lt)
    (l : List (κ × ν)) (k : κ) (v : ν) (h : Sparse.sorted lt l = true) :
    Sparse.sorted lt (Sparse.set lt l k v) = true := by
  induction l with
  | nil => rfl
  | cons e rest ih =>
    obtain ⟨k₀, v₀⟩ := e
    have hs := Sparse.sorted_cons.mp h
    simp only [Sparse.set]
    split
    · next heq =>
      subst heq
      exact Sparse.sorted_cons.mpr hs
    · next hne =>
      split
      · next hlt =>
        exact Sparse.sorted_cons.mpr ⟨by rintro b hb; simp at hb; subst hb; exact hlt, h⟩
      · next hlt =>
        refine Sparse.sorted_cons.mpr ⟨fun b hb => ?_, ih hs.2⟩
        rcases Sparse.head_set lt rest k v b hb with rfl | hb
        · exact o.total k k₀ (Ne.symm hne) (by simpa using hlt)
        · exact hs.1 b hb

theorem Sparse.mem_set {κ ν : Type} [DecidableEq κ] {lt : κ → κ → Bool} {l : List (κ × ν)} {k : κ}
    {v : ν} {e : κ × ν} (h : e ∈ Sparse.set lt l k v) : e = (k, v) ∨ e ∈ l := by
  induction l with
  | nil => simpa [Sparse.set] using h
  | cons e' rest ih =>
    obtain ⟨k₀, v₀⟩ := e'
    simp only [Sparse.set] at h
    split at h
    · simp only [List.mem_cons] at h ⊢
      exact h.imp id Or.inr
    · split at h <;> simp only [List.mem_cons] at h ⊢
      · exact h
      · rcases h with h | h
        · exact .inr (.inl h)
        · exact (ih h).imp id Or.inr

theorem sorted_writeCoeffs (js : List Nat) (cells : List ((Nat × Nat) × Nat)) (i : Nat) (a : Elt)
    (h : Sparse.sorted cellLt cells = true) :
    Sparse.sorted cellLt (writeCoeffs cells i a js) = true := by
  induction js generalizing cells with
  | nil => exact h
  | cons j js ih => exact ih _ (Sparse.sorted_set cellLt_order _ _ _ h)

theorem mem_writeCoeffs {js : List Nat} {cells : List ((Nat × Nat) × Nat)} {i : Nat} {a : Elt}
    {e : (Nat × Nat) × Nat} (h : e ∈ writeCoeffs cells i a js) :
    (∃ j ∈ js, e = ((i, j), coef a j)) ∨ e ∈ cells := by
  induction js generalizing cells with
  | nil => exact .inr h
  | cons j js ih =>
    rcases ih h with ⟨j', hj', rfl⟩ | h
    · exact .inl ⟨j', List.mem_cons_of_mem _ hj', rfl⟩
    · rcases Sparse.mem_set h with rfl | h
      · exact .inl ⟨j, List.mem_cons_self, rfl⟩
      · exact .inr h

theorem sorted_writeBits (js : List Nat) (m : List (Nat × Bool)) (f : Nat → Bool)
    (h : Sparse.sorted bitLt m = true) : Sparse.sorted bitLt (writeBits m f js) = true := by
  induction js generalizing m with
  | nil => exact h
  | cons j js ih => exact ih _ (Sparse.sorted_set bitLt_order _ _ _ h)

theorem mem_writeBits {js : List Nat} {m : List (Nat × Bool)} {f : Nat → Bool} {e : Nat × Bool}
    (h : e ∈ writeBits m f js) : (∃ j ∈ js, e = (j, f j)) ∨ e ∈ m := by
  induction js generalizing m with
  | nil => exact .inr h
  | cons j js ih =>
    rcases ih h with ⟨j', hj', rfl⟩ | h
    · exact .inl ⟨j', List.mem_cons_of_mem _ hj', rfl⟩
    · rcases Sparse.mem_set h with rfl | h
      · exact .inl ⟨j, List.mem_cons_self, rfl⟩
      · exact .inr h

/-! ### Every storage operation keeps the canonical form -/

theorem Memory.wf_iff (s : State) :
    Memory.wf s = true ↔ Sparse.sorted cellLt s.cells = true ∧ Sparse.sorted bitLt s.msg = true := by
  simp [Memory.wf]

theorem Memory.wf_writeCell (s : State) (i j c : Nat) (h : Memory.wf s = true) :
    Memory.wf (s.writeCell i j c) = true := by
  rw [Memory.wf_iff] at *
  exact ⟨Sparse.sorted_set cellLt_order _ _ _ h.1, h.2⟩

theorem Memory.wf_writeSlot (s : State) (i : Nat) (a : Elt) (h : Memory.wf s = true) :
    Memory.wf (s.writeSlot i a) = true := by
  rw [Memory.wf_iff] at *
  exact ⟨sorted_writeCoeffs _ _ _ _ h.1, h.2⟩

theorem Memory.wf_writeRun (s : State) (base : Nat) (es : List Elt) (h : Memory.wf s = true) :
    Memory.wf (s.writeRun base es) = true := by
  induction es generalizing s base with
  | nil => exact h
  | cons a rest ih => exact ih _ _ (Memory.wf_writeSlot s base a h)

theorem Memory.wf_writeMsg (s : State) (b : List Bool) (h : Memory.wf s = true) :
    Memory.wf (s.writeMsg b) = true := by
  rw [Memory.wf_iff] at *
  exact ⟨h.1, sorted_writeBits _ _ _ h.2⟩

theorem Memory.wf_writeMsgWord (s : State) (w : Nat) (v : Word) (h : Memory.wf s = true) :
    Memory.wf (s.writeMsgWord w v) = true := by
  rw [Memory.wf_iff] at *
  exact ⟨h.1, sorted_writeBits _ _ _ h.2⟩

theorem Memory.wf_reset : Memory.wf State.reset = true := rfl

/-! ### Reads of several places -/

/-- If every read succeeds, the reads succeed in order. -/
theorem readEach_ok {α β : Type} {f : α → Except Uninit β} {g : α → β} {l : List α}
    (h : ∀ a ∈ l, f a = .ok (g a)) : readEach f l = .ok (l.map g) := by
  induction l with
  | nil => rfl
  | cons a rest ih =>
    simp only [readEach, h a List.mem_cons_self, ih fun b hb => h b (List.mem_cons_of_mem _ hb),
      List.map_cons]

/-- The reads stop at the first one that fails. -/
theorem readEach_error {α β : Type} {f : α → Except Uninit β} {pre post : List α} {a : α}
    {w : Uninit} (h : ∀ b ∈ pre, ∃ c, f b = .ok c) (ha : f a = .error w) :
    readEach f (pre ++ a :: post) = .error w := by
  induction pre with
  | nil => simp [readEach, ha]
  | cons b rest ih =>
    obtain ⟨c, hc⟩ := h b List.mem_cons_self
    simp only [List.cons_append, readEach, hc, ih fun d hd => h d (List.mem_cons_of_mem _ hd)]

/-- The reads of places `g 0, ..., g (n - 1)` stop at the first one that fails. -/
theorem readEach_range_error {α β : Type} {f : α → Except Uninit β} {g : Nat → α} {n j : Nat}
    {w : Uninit} (hj : j < n) (h : ∀ j', j' < j → ∃ c, f (g j') = .ok c) (ha : f (g j) = .error w) :
    readEach f ((List.range n).map g) = .error w := by
  obtain ⟨m, rfl⟩ : ∃ m, n = j + (m + 1) := ⟨n - j - 1, by omega⟩
  rw [List.range_add, List.map_append, List.range_succ_eq_map]
  simp only [List.map_cons, Nat.add_zero]
  refine readEach_error (fun b hb => ?_) ha
  obtain ⟨j', hj', rfl⟩ := List.mem_map.mp hb
  exact h j' (List.mem_range.mp hj')

/-- What a successful read of several places answers: one value per place, each its own read. -/
theorem readEach_ok_inv {α β : Type} {f : α → Except Uninit β} {l : List α} {bs : List β}
    (h : readEach f l = .ok bs) : List.Forall₂ (fun a b => f a = .ok b) l bs := by
  induction l generalizing bs with
  | nil => simp only [readEach, Except.ok.injEq] at h; subst h; exact .nil
  | cons a rest ih =>
    simp only [readEach] at h
    split at h
    · cases h
    · next b hb =>
      split at h
      · cases h
      · next bs' hbs =>
        simp only [Except.ok.injEq] at h
        subst h
        exact .cons hb (ih hbs)

/-- A fully written slot is read whole. -/
theorem State.readSlot_holds {s : State} {i : Nat} {a : Nat → Nat} (h : s.SlotHolds i a) :
    s.readSlot i = .ok (eltFrom s.cfg a) := by
  refine readEach_ok fun j hj => ?_
  rw [State.readCell, h j (List.mem_range.mp hj)]

/-- A fully written run of slots is read whole. -/
theorem State.readRun_holds {s : State} {base len : Nat} {A : Nat → Nat → Nat}
    (h : s.RunHolds base len A) :
    readEach s.readSlot (SlotRun.slots ⟨base, len⟩) = .ok (eltsFrom s.cfg len A) := by
  have : ∀ i ∈ (SlotRun.slots ⟨base, len⟩),
      s.readSlot i = .ok ((fun i => eltFrom s.cfg (A (i - base))) i) := by
    intro i hi
    simp only [SlotRun.slots, List.mem_map, List.mem_range] at hi
    obtain ⟨m, hm, rfl⟩ := hi
    rw [State.readSlot_holds (h m hm)]
    simp
  rw [readEach_ok this]
  simp [SlotRun.slots, eltsFrom, Function.comp_def]

/-- A fully written message register is read whole. -/
theorem State.readMsg_holds {s : State} {m : Nat → Bool} (h : s.MsgHolds m) :
    s.readMsg = .ok (blockFrom s.cfg m) := by
  refine readEach_ok fun j hj => ?_
  rw [State.readBit, h j (List.mem_range.mp hj)]

/-- A written slot holds some coefficients. -/
theorem State.SlotWritten.holds {s : State} {i : Nat} (h : s.SlotWritten i) : ∃ a, s.SlotHolds i a :=
  ⟨fun j => (s.cell i j).getD 0, fun j hj => by
    obtain ⟨c, hc⟩ := Option.isSome_iff_exists.mp (h j hj)
    simp [hc]⟩

/-- A written run holds some coefficients. -/
theorem State.RunWritten.holds {s : State} {base len : Nat} (h : s.RunWritten base len) :
    ∃ A, s.RunHolds base len A :=
  ⟨fun i j => (s.cell (base + i) j).getD 0, fun i hi j hj => by
    obtain ⟨c, hc⟩ := Option.isSome_iff_exists.mp (h i hi j hj)
    simp [hc]⟩

/-- Every slot of a written run can be read. -/
theorem State.RunWritten.read {s : State} {base len i : Nat} (h : s.RunWritten base len) (hi : i < len) :
    ∃ a, s.readSlot (base + i) = .ok a :=
  let ⟨_, ha⟩ := (h i hi).holds
  ⟨_, State.readSlot_holds ha⟩

/-- The read of a slot fails at its first unwritten cell (60_exceptions R159). -/
theorem State.readSlot_unwritten {s : State} {i j : Nat} (h : s.FirstUnwritten i j) :
    s.readSlot i = .error (.cell i j) := by
  obtain ⟨hj, hw, hu⟩ := h
  rw [State.readSlot, ← List.map_id (List.range s.cfg.n)]
  refine readEach_range_error hj (fun j' hj' => ?_) (by simp [State.readCell, hu])
  obtain ⟨c, hc⟩ := Option.isSome_iff_exists.mp (hw j' hj')
  exact ⟨c, by simp [State.readCell, hc]⟩

/-- The read of a run fails at the first unwritten cell of its first slot that has one. -/
theorem State.readRun_unwritten {s : State} {base len i j : Nat} (hi : i < len)
    (hw : s.RunWritten base i) (hu : s.FirstUnwritten (base + i) j) :
    readEach s.readSlot (SlotRun.slots ⟨base, len⟩) = .error (.cell (base + i) j) :=
  readEach_range_error hi (fun _ => hw.read) (State.readSlot_unwritten hu)

/-- The read of the message register fails at its first unwritten bit. -/
theorem State.readMsg_unwritten {s : State} {j : Nat} (h : s.FirstUnwrittenBit j) :
    s.readMsg = .error (.bit j) := by
  obtain ⟨hj, hw, hu⟩ := h
  rw [State.readMsg, ← List.map_id (List.range s.cfg.n)]
  refine readEach_range_error hj (fun j' hj' => ?_) (by simp [State.readBit, hu])
  obtain ⟨c, hc⟩ := Option.isSome_iff_exists.mp (hw j' hj')
  exact ⟨c, by simp [State.readBit, hc]⟩

/-- A pair of slots: it is read when both can be, and fails at the first that cannot (log 6). -/
theorem State.readPair_ok {s : State} {i j : Nat} {a b : Elt} (ha : s.readSlot i = .ok a)
    (hb : s.readSlot j = .ok b) : s.readPair (i, j) = .ok (a, b) := by
  simp only [State.readPair, ha, hb]

theorem State.readPair_fst {s : State} {i j : Nat} {w : Uninit} (h : s.readSlot i = .error w) :
    s.readPair (i, j) = .error w := by
  simp only [State.readPair, h]

theorem State.readPair_snd {s : State} {i j : Nat} {a : Elt} {w : Uninit} (ha : s.readSlot i = .ok a)
    (h : s.readSlot j = .error w) : s.readPair (i, j) = .error w := by
  simp only [State.readPair, ha, h]

/-- The read of DECRYPT's pairs fails where the first pair that cannot be read does. -/
theorem State.readPairs_unwritten {s : State} {i : Nat} {w : Uninit} (hi : i < s.cfg.k)
    (hS : s.RunWritten s.layout.sbase.toNat i) (hU : s.RunWritten s.layout.ubase.toNat i)
    (hw : s.readPair (s.layout.sbase.toNat + i, s.layout.ubase.toNat + i) = .error w) :
    readEach s.readPair s.decryptPairs = .error w :=
  readEach_range_error hi
    (fun _ hj => let ⟨_, ha⟩ := hS.read hj
      let ⟨_, hb⟩ := hU.read hj
      ⟨_, State.readPair_ok ha hb⟩) hw

/-- The slot pairs of DECRYPT are read whole. -/
theorem State.readPairs_holds {s : State} {S U : Nat → Nat → Nat}
    (hS : s.RunHolds s.layout.sbase.toNat s.cfg.k S) (hU : s.RunHolds s.layout.ubase.toNat s.cfg.k U) :
    readEach s.readPair s.decryptPairs = .ok ((List.range s.cfg.k).map fun i =>
      (eltFrom s.cfg (S i), eltFrom s.cfg (U i))) := by
  have : ∀ l : List Nat, (∀ i ∈ l, i < s.cfg.k) →
      readEach s.readPair (l.map fun i => (s.layout.sbase.toNat + i, s.layout.ubase.toNat + i))
        = .ok (l.map fun i => (eltFrom s.cfg (S i), eltFrom s.cfg (U i))) := by
    intro l hl
    induction l with
    | nil => rfl
    | cons i rest ih =>
      have hi := hl i List.mem_cons_self
      simp only [List.map_cons, readEach, State.readPair, State.readSlot_holds (hS i hi),
        State.readSlot_holds (hU i hi), ih fun b hb => hl b (List.mem_cons_of_mem _ hb)]
  exact this _ fun i hi => List.mem_range.mp hi

end Sys2Proof.Machine
end

