-- ==== Sys2Proof/Laws/Ops.lean ====
section
/-! SUPPORT. Laws/Ops.lean: one lemma per shared operation that says once what it answers, forwards
(under its condition) and backwards (from the state it answers). -/

namespace Sys2Proof.Machine

/-! ### Ends of a command -/

theorem complete_next {s t : State} : complete s = .next t ↔ t = s.setDone true := by
  simp [complete, eq_comm]

theorem failCommand_next {s t : State} {c : ErrCode} :
    failCommand s c = .next t ↔ t = s.reportError c := by
  simp [failCommand, eq_comm]

theorem faultCommand_next {s t : State} {w : Uninit} :
    faultCommand s w = .next t ↔ t = s.recordFault w := by
  simp [faultCommand, eq_comm]

/-! ### Checks -/

theorem requireSlots_ok {s : State} {l : List Nat} {k : Result} (h : ∀ i ∈ l, i < s.cfg.nslot) :
    requireSlots s l k = k := by
  rw [requireSlots, if_pos]
  simpa using h

theorem requireSlots_fail {s : State} {l : List Nat} {k : Result} {i : Nat} (hi : i ∈ l)
    (h : s.cfg.nslot ≤ i) : requireSlots s l k = .next (s.reportError .shape) := by
  rw [requireSlots, if_neg]
  · rfl
  · simp only [List.all_eq_true, decide_eq_true_eq]
    exact fun hall => absurd (hall i hi) (Nat.not_lt.mpr h)

theorem requireSlots_next {s t : State} {l : List Nat} {k : Result}
    (h : requireSlots s l k = .next t) :
    t = s.reportError .shape ∨ ((∀ i ∈ l, i < s.cfg.nslot) ∧ k = .next t) := by
  rw [requireSlots] at h
  split at h
  · next hc => exact .inr ⟨by simpa using hc, h⟩
  · exact .inl (failCommand_next.mp h)

theorem SlotRun.fits_iff {r : SlotRun} {p : Params} : r.fits p = true ↔ r.base + r.len ≤ p.nslot :=
  decide_eq_true_iff

theorem requireRuns_ok {s : State} {l : List SlotRun} {k : Result}
    (h : ∀ r ∈ l, r.base + r.len ≤ s.cfg.nslot) : requireRuns s l k = k := by
  rw [requireRuns, if_pos (List.all_eq_true.mpr fun r hr => SlotRun.fits_iff.mpr (h r hr))]

theorem requireRuns_fail {s : State} {l : List SlotRun} {k : Result} {r : SlotRun} (hr : r ∈ l)
    (h : s.cfg.nslot < r.base + r.len) : requireRuns s l k = .next (s.reportError .shape) := by
  rw [requireRuns, if_neg]
  · rfl
  · exact fun hall => absurd (SlotRun.fits_iff.mp (List.all_eq_true.mp hall r hr)) (Nat.not_le.mpr h)

theorem requireRuns_next {s t : State} {l : List SlotRun} {k : Result}
    (h : requireRuns s l k = .next t) :
    t = s.reportError .shape ∨ ((∀ r ∈ l, r.base + r.len ≤ s.cfg.nslot) ∧ k = .next t) := by
  rw [requireRuns] at h
  split at h
  · next hc => exact .inr ⟨fun r hr => SlotRun.fits_iff.mp (List.all_eq_true.mp hc r hr), h⟩
  · exact .inl (failCommand_next.mp h)

/-- Two runs are disjoint exactly when no slot number lies in both (43_pke R126, R128). -/
theorem SlotRun.disjoint_iff {a b : SlotRun} :
    a.disjoint b = true ↔ ∀ i, ¬ ((a.base ≤ i ∧ i < a.base + a.len) ∧ (b.base ≤ i ∧ i < b.base + b.len)) := by
  have mem : ∀ (r : SlotRun) (i : Nat), i ∈ r.slots ↔ r.base ≤ i ∧ i < r.base + r.len := by
    intro r i
    simp only [SlotRun.slots, List.mem_map, List.mem_range]
    constructor
    · rintro ⟨m, hm, rfl⟩; omega
    · rintro ⟨h1, h2⟩; exact ⟨i - r.base, by omega, by omega⟩
  simp only [SlotRun.disjoint, List.all_eq_true, Bool.not_eq_true', List.contains_eq_mem,
    decide_eq_false_iff_not, mem]
  exact ⟨fun h i ⟨h1, h2⟩ => h i h1 h2, fun h i h1 h2 => h i ⟨h1, h2⟩⟩

theorem requireDisjoint_ok {s : State} {l : List SlotRun} {k : Result}
    (h : pairwiseDisjoint l = true) : requireDisjoint s l k = k := by
  rw [requireDisjoint, if_pos h]

theorem requireDisjoint_fail {s : State} {l : List SlotRun} {k : Result}
    (h : pairwiseDisjoint l = false) : requireDisjoint s l k = .next (s.reportError .overlap) := by
  rw [requireDisjoint, if_neg (by simp [h])]
  rfl

theorem requireDisjoint_next {s t : State} {l : List SlotRun} {k : Result}
    (h : requireDisjoint s l k = .next t) :
    t = s.reportError .overlap ∨ (pairwiseDisjoint l = true ∧ k = .next t) := by
  rw [requireDisjoint] at h
  split at h
  · next hc => exact .inr ⟨hc, h⟩
  · exact .inl (failCommand_next.mp h)

/-! ### Reads -/

@[simp] theorem withRead_ok {α : Type} (s : State) (a : α) (k : α → Result) :
    withRead s (.ok a) k = k a := rfl

@[simp] theorem withRead_error {α : Type} (s : State) (w : Uninit) (k : α → Result) :
    withRead s (.error w) k = .next (s.recordFault w) := rfl

theorem withRead_next {α : Type} {s t : State} {r : Except Uninit α} {k : α → Result}
    (h : withRead s r k = .next t) :
    (∃ w, r = .error w ∧ t = s.recordFault w) ∨ ∃ a, r = .ok a ∧ k a = .next t := by
  cases r with
  | ok a => exact .inr ⟨a, rfl, h⟩
  | error w => exact .inl ⟨w, rfl, faultCommand_next.mp h⟩

theorem withSlot_holds {s : State} {i : Nat} {a : Nat → Nat} {k : Elt → Result}
    (h : s.SlotHolds i a) : withSlot s i k = k (eltFrom s.cfg a) := by
  rw [withSlot, State.readSlot_holds h, withRead_ok]

theorem withSlots_holds {s : State} {base len : Nat} {A : Nat → Nat → Nat} {k : List Elt → Result}
    (h : s.RunHolds base len A) :
    withSlots s (SlotRun.slots ⟨base, len⟩) k = k (eltsFrom s.cfg len A) := by
  rw [withSlots, State.readRun_holds h, withRead_ok]

theorem withMsg_holds {s : State} {m : Nat → Bool} {k : List Bool → Result} (h : s.MsgHolds m) :
    withMsg s k = k (blockFrom s.cfg m) := by
  rw [withMsg, State.readMsg_holds h, withRead_ok]

/-- The first unwritten place is what a command's read faults on (60_exceptions R159; log 6). -/
theorem withSlot_unwritten {s : State} {i j : Nat} {k : Elt → Result} (h : s.FirstUnwritten i j) :
    withSlot s i k = .next (s.recordFault (.cell i j)) := by
  rw [withSlot, State.readSlot_unwritten h, withRead_error]

theorem withSlots_unwritten {s : State} {base len i j : Nat} {k : List Elt → Result} (hi : i < len)
    (hw : s.RunWritten base i) (hu : s.FirstUnwritten (base + i) j) :
    withSlots s (SlotRun.slots ⟨base, len⟩) k = .next (s.recordFault (.cell (base + i) j)) := by
  rw [withSlots, State.readRun_unwritten hi hw hu, withRead_error]

theorem withMsg_unwritten {s : State} {j : Nat} {k : List Bool → Result} (h : s.FirstUnwrittenBit j) :
    withMsg s k = .next (s.recordFault (.bit j)) := by
  rw [withMsg, State.readMsg_unwritten h, withRead_error]

/-! ### Coefficients of elements made from functions -/

theorem coef_eltFrom (p : Params) (a : Nat → Nat) (j : Nat) :
    coef (eltFrom p a) j = if j < p.n then a j else 0 := by
  simp only [coef, eltFrom, List.getD_eq_getElem?_getD, List.getElem?_map]
  by_cases h : j < p.n
  · simp [h]
  · simp [h]

@[simp] theorem length_eltFrom (p : Params) (a : Nat → Nat) : (eltFrom p a).length = p.n := by
  simp [eltFrom]

theorem getD_eltsFrom (p : Params) (m : Nat) (A : Nat → Nat → Nat) {i : Nat} (h : i < m) :
    (eltsFrom p m A).getD i [] = eltFrom p (A i) := by
  simp [eltsFrom, List.getD_eq_getElem?_getD, h]

end Sys2Proof.Machine
end

