-- ==== Sys2Proof/Laws/Exec.lean ====
section
/-! SUPPORT. Laws/Exec.lean: for each command, everything the state it answers can be: the command
failed in validation or at an unwritten place, or it did what its rule says; and `exec` always answers
a next state. -/

namespace Sys2Proof.Machine

/-- The command ended without effect: a command error of validation, or the model fault (10_state R50,
60_exceptions R157, R159 (a)). -/
def Failed (s t : State) : Prop :=
  (∃ c, (c = ErrCode.shape ∨ c = ErrCode.overlap) ∧ t = s.reportError c) ∨ ∃ w, t = s.recordFault w

theorem Failed.shape {s : State} : Failed s (s.reportError .shape) := .inl ⟨_, .inl rfl, rfl⟩

theorem Failed.overlap {s : State} : Failed s (s.reportError .overlap) := .inl ⟨_, .inr rfl, rfl⟩

theorem Failed.uninit {s : State} (w : Uninit) : Failed s (s.recordFault w) := .inr ⟨w, rfl⟩

theorem execPzero_next {rd : Nat} {s t : State} (h : execPzero rd s = .next t) :
    Failed s t ∨ (rd < s.cfg.nslot ∧ t = (s.writeSlot rd (rzero s.cfg)).setDone true) := by
  rcases requireSlots_next h with rfl | ⟨hr, h⟩
  · exact .inl .shape
  · exact .inr ⟨hr rd List.mem_cons_self, complete_next.mp h⟩

theorem execPconst_next {rd : Nat} {s t : State} (h : execPconst rd s = .next t) :
    Failed s t ∨ (rd < s.cfg.nslot ∧ t = (s.writeSlot rd (rconst s.cfg s.scalar)).setDone true) := by
  rcases requireSlots_next h with rfl | ⟨hr, h⟩
  · exact .inl .shape
  · exact .inr ⟨hr rd List.mem_cons_self, complete_next.mp h⟩

theorem execSunif_next {rd : Nat} {s t : State} (h : execSunif rd s = .next t) :
    Failed s t ∨ (rd < s.cfg.nslot ∧ t = ((s.writeSlot rd
      (uniformElt s.cfg Config.freeUniform s.draws)).takeDraws s.cfg.n).setDone true) := by
  rcases requireSlots_next h with rfl | ⟨hr, h⟩
  · exact .inl .shape
  · exact .inr ⟨hr rd List.mem_cons_self, complete_next.mp h⟩

theorem execSnoise_next {rd : Nat} {s t : State} (h : execSnoise rd s = .next t) :
    Failed s t ∨ (rd < s.cfg.nslot ∧ t = ((s.writeSlot rd
      (noiseElt s.cfg Config.freeCoin s.draws)).takeDraws (noiseCoins s.cfg)).setDone true) := by
  rcases requireSlots_next h with rfl | ⟨hr, h⟩
  · exact .inl .shape
  · exact .inr ⟨hr rd List.mem_cons_self, complete_next.mp h⟩

theorem execPcopy_next {rd rs1 : Nat} {s t : State} (h : execPcopy rd rs1 s = .next t) :
    Failed s t ∨ ((rd < s.cfg.nslot ∧ rs1 < s.cfg.nslot) ∧ ∃ a, s.readSlot rs1 = .ok a
      ∧ t = (s.writeSlot rd a).setDone true) := by
  rcases requireSlots_next h with rfl | ⟨hr, h⟩
  · exact .inl .shape
  · rcases withRead_next h with ⟨w, -, rfl⟩ | ⟨a, ha, h⟩
    · exact .inl (.uninit w)
    · exact .inr ⟨by simpa using hr, a, ha, complete_next.mp h⟩

theorem execPneg_next {rd rs1 : Nat} {s t : State} (h : execPneg rd rs1 s = .next t) :
    Failed s t ∨ ((rd < s.cfg.nslot ∧ rs1 < s.cfg.nslot) ∧ ∃ a, s.readSlot rs1 = .ok a
      ∧ t = (s.writeSlot rd (rneg s.cfg a)).setDone true) := by
  rcases requireSlots_next h with rfl | ⟨hr, h⟩
  · exact .inl .shape
  · rcases withRead_next h with ⟨w, -, rfl⟩ | ⟨a, ha, h⟩
    · exact .inl (.uninit w)
    · exact .inr ⟨by simpa using hr, a, ha, complete_next.mp h⟩

theorem execPscale_next {rd rs1 : Nat} {s t : State} (h : execPscale rd rs1 s = .next t) :
    Failed s t ∨ ((rd < s.cfg.nslot ∧ rs1 < s.cfg.nslot) ∧ ∃ a, s.readSlot rs1 = .ok a
      ∧ t = (s.writeSlot rd (rscale s.cfg s.scalar a)).setDone true) := by
  rcases requireSlots_next h with rfl | ⟨hr, h⟩
  · exact .inl .shape
  · rcases withRead_next h with ⟨w, -, rfl⟩ | ⟨a, ha, h⟩
    · exact .inl (.uninit w)
    · exact .inr ⟨by simpa using hr, a, ha, complete_next.mp h⟩

theorem execPadd_next {rd rs1 rs2 : Nat} {s t : State} (h : execPadd rd rs1 rs2 s = .next t) :
    Failed s t ∨ ((rd < s.cfg.nslot ∧ rs1 < s.cfg.nslot ∧ rs2 < s.cfg.nslot) ∧ ∃ a b,
      s.readSlot rs1 = .ok a ∧ s.readSlot rs2 = .ok b
      ∧ t = (s.writeSlot rd (radd s.cfg a b)).setDone true) := by
  rcases requireSlots_next h with rfl | ⟨hr, h⟩
  · exact .inl .shape
  · rcases withRead_next h with ⟨w, -, rfl⟩ | ⟨a, ha, h⟩
    · exact .inl (.uninit w)
    · rcases withRead_next h with ⟨w, -, rfl⟩ | ⟨b, hb, h⟩
      · exact .inl (.uninit w)
      · exact .inr ⟨by simpa using hr, a, b, ha, hb, complete_next.mp h⟩

theorem execPsub_next {rd rs1 rs2 : Nat} {s t : State} (h : execPsub rd rs1 rs2 s = .next t) :
    Failed s t ∨ ((rd < s.cfg.nslot ∧ rs1 < s.cfg.nslot ∧ rs2 < s.cfg.nslot) ∧ ∃ a b,
      s.readSlot rs1 = .ok a ∧ s.readSlot rs2 = .ok b
      ∧ t = (s.writeSlot rd (rsub s.cfg a b)).setDone true) := by
  rcases requireSlots_next h with rfl | ⟨hr, h⟩
  · exact .inl .shape
  · rcases withRead_next h with ⟨w, -, rfl⟩ | ⟨a, ha, h⟩
    · exact .inl (.uninit w)
    · rcases withRead_next h with ⟨w, -, rfl⟩ | ⟨b, hb, h⟩
      · exact .inl (.uninit w)
      · exact .inr ⟨by simpa using hr, a, b, ha, hb, complete_next.mp h⟩

theorem execPmul_next {rd rs1 rs2 : Nat} {s t : State} (h : execPmul rd rs1 rs2 s = .next t) :
    Failed s t ∨ ((rd < s.cfg.nslot ∧ rs1 < s.cfg.nslot ∧ rs2 < s.cfg.nslot) ∧ ∃ a b,
      s.readSlot rs1 = .ok a ∧ s.readSlot rs2 = .ok b
      ∧ t = (s.writeSlot rd (rmul s.cfg a b)).setDone true) := by
  rcases requireSlots_next h with rfl | ⟨hr, h⟩
  · exact .inl .shape
  · rcases withRead_next h with ⟨w, -, rfl⟩ | ⟨a, ha, h⟩
    · exact .inl (.uninit w)
    · rcases withRead_next h with ⟨w, -, rfl⟩ | ⟨b, hb, h⟩
      · exact .inl (.uninit w)
      · exact .inr ⟨by simpa using hr, a, b, ha, hb, complete_next.mp h⟩

theorem execPeq_next {rs1 rs2 : Nat} {s t : State} (h : execPeq rs1 rs2 s = .next t) :
    Failed s t ∨ ((rs1 < s.cfg.nslot ∧ rs2 < s.cfg.nslot) ∧ ∃ a b,
      s.readSlot rs1 = .ok a ∧ s.readSlot rs2 = .ok b ∧ t = (s.setEq (req s.cfg a b)).setDone true) := by
  rcases requireSlots_next h with rfl | ⟨hr, h⟩
  · exact .inl .shape
  · rcases withRead_next h with ⟨w, -, rfl⟩ | ⟨a, ha, h⟩
    · exact .inl (.uninit w)
    · rcases withRead_next h with ⟨w, -, rfl⟩ | ⟨b, hb, h⟩
      · exact .inl (.uninit w)
      · exact .inr ⟨by simpa using hr, a, b, ha, hb, complete_next.mp h⟩

theorem execCenc_next {rd : Nat} {s t : State} (h : execCenc rd s = .next t) :
    Failed s t ∨ (rd < s.cfg.nslot ∧ ∃ m, s.readMsg = .ok m
      ∧ t = (s.writeSlot rd (encodeBlock s.cfg m)).setDone true) := by
  rcases requireSlots_next h with rfl | ⟨hr, h⟩
  · exact .inl .shape
  · rcases withRead_next h with ⟨w, -, rfl⟩ | ⟨m, hm, h⟩
    · exact .inl (.uninit w)
    · exact .inr ⟨hr rd List.mem_cons_self, m, hm, complete_next.mp h⟩

theorem execCdec_next {rs1 : Nat} {s t : State} (h : execCdec rs1 s = .next t) :
    Failed s t ∨ (rs1 < s.cfg.nslot ∧ ∃ r, s.readSlot rs1 = .ok r
      ∧ t = (s.writeMsg (decodeBlock s.cfg r)).setDone true) := by
  rcases requireSlots_next h with rfl | ⟨hr, h⟩
  · exact .inl .shape
  · rcases withRead_next h with ⟨w, -, rfl⟩ | ⟨r, hr', h⟩
    · exact .inl (.uninit w)
    · exact .inr ⟨hr rs1 List.mem_cons_self, r, hr', complete_next.mp h⟩

theorem execKeygen_next {s t : State} (h : execKeygen s = .next t) :
    Failed s t ∨ ((∀ r ∈ [s.runA, s.runT, s.runS], r.base + r.len ≤ s.cfg.nslot)
      ∧ pairwiseDisjoint [s.runA, s.runT, s.runS] = true ∧ t = s.afterKeygen.setDone true) := by
  rcases requireRuns_next h with rfl | ⟨hr, h⟩
  · exact .inl .shape
  · rcases requireDisjoint_next h with rfl | ⟨hd, h⟩
    · exact .inl .overlap
    · exact .inr ⟨hr, hd, complete_next.mp h⟩

theorem execEncrypt_next {s t : State} (h : execEncrypt s = .next t) :
    Failed s t ∨ ((∀ r ∈ [s.runA, s.runT, s.runU, s.runV], r.base + r.len ≤ s.cfg.nslot)
      ∧ pairwiseDisjoint [s.runU, s.runV] = true ∧ ∃ A tv m, readEach s.readSlot s.runA.slots = .ok A
      ∧ readEach s.readSlot s.runT.slots = .ok tv ∧ s.readMsg = .ok m
      ∧ t = (s.afterEncrypt A tv m).setDone true) := by
  rcases requireRuns_next h with rfl | ⟨hr, h⟩
  · exact .inl .shape
  · rcases requireDisjoint_next h with rfl | ⟨hd, h⟩
    · exact .inl .overlap
    · rcases withRead_next h with ⟨w, -, rfl⟩ | ⟨A, hA, h⟩
      · exact .inl (.uninit w)
      · rcases withRead_next h with ⟨w, -, rfl⟩ | ⟨tv, htv, h⟩
        · exact .inl (.uninit w)
        · rcases withRead_next h with ⟨w, -, rfl⟩ | ⟨m, hm, h⟩
          · exact .inl (.uninit w)
          · exact .inr ⟨hr, hd, A, tv, m, hA, htv, hm, complete_next.mp h⟩

theorem execDecrypt_next {s t : State} (h : execDecrypt s = .next t) :
    Failed s t ∨ ((∀ r ∈ [s.runS, s.runU, s.runV], r.base + r.len ≤ s.cfg.nslot) ∧ ∃ su v,
      readEach s.readPair s.decryptPairs = .ok su ∧ s.readSlot s.runV.base = .ok v
      ∧ t = (s.writeMsg (decodeBlock s.cfg
          (plainD s.cfg (su.map Prod.fst) (su.map Prod.snd) v))).setDone true) := by
  rcases requireRuns_next h with rfl | ⟨hr, h⟩
  · exact .inl .shape
  · rcases withRead_next h with ⟨w, -, rfl⟩ | ⟨su, hsu, h⟩
    · exact .inl (.uninit w)
    · rcases withRead_next h with ⟨w, -, rfl⟩ | ⟨v, hv, h⟩
      · exact .inl (.uninit w)
      · exact .inr ⟨hr, su, v, hsu, hv, complete_next.mp h⟩

/-! ### `exec` always answers a next state -/

/-- The result is a next state. -/
def Answers (r : Result) : Prop := ∃ t, r = .next t

theorem answers_complete (s : State) : Answers (complete s) := ⟨_, rfl⟩

theorem answers_requireSlots {s : State} {l : List Nat} {k : Result} (h : Answers k) :
    Answers (requireSlots s l k) := by
  rw [requireSlots]; split <;> [exact h; exact ⟨_, rfl⟩]

theorem answers_requireRuns {s : State} {l : List SlotRun} {k : Result} (h : Answers k) :
    Answers (requireRuns s l k) := by
  rw [requireRuns]; split <;> [exact h; exact ⟨_, rfl⟩]

theorem answers_requireDisjoint {s : State} {l : List SlotRun} {k : Result} (h : Answers k) :
    Answers (requireDisjoint s l k) := by
  rw [requireDisjoint]; split <;> [exact h; exact ⟨_, rfl⟩]

theorem answers_withRead {α : Type} {s : State} {r : Except Uninit α} {k : α → Result}
    (h : ∀ a, Answers (k a)) : Answers (withRead s r k) := by
  cases r with
  | ok a => exact h a
  | error w => exact ⟨_, rfl⟩

/-- A command never stops the machine: it completes, reports an error or records a fault (10_state
R50). -/
theorem exec_answers (i : Instr) (s : State) : Answers (exec i s) := by
  cases i <;> simp only [exec]
  case nop => exact answers_complete s
  case keygen => exact answers_requireRuns (answers_requireDisjoint (answers_complete _))
  case encrypt =>
    exact answers_requireRuns (answers_requireDisjoint (answers_withRead fun _ =>
      answers_withRead fun _ => answers_withRead fun _ => answers_complete _))
  case decrypt =>
    exact answers_requireRuns (answers_withRead fun _ => answers_withRead fun _ => answers_complete _)
  case pzero | pconst | sunif | snoise => exact answers_requireSlots (answers_complete _)
  case pcopy | pneg | pscale | cenc | cdec =>
    exact answers_requireSlots (answers_withRead fun _ => answers_complete _)
  case padd | psub | pmul | peq =>
    exact answers_requireSlots (answers_withRead fun _ => answers_withRead fun _ => answers_complete _)

end Sys2Proof.Machine
end

