-- ==== Sys2Proof/Laws/Ring.lean ====
section
/-! SUPPORT. Laws/Ring.lean: what each pure function answers, coefficient by coefficient: residues, ring
functions, sampling functions and the block codec. -/

namespace Sys2Proof.Machine

/-! ### Residues and sums -/

theorem zmod_lt {q : Nat} (h : 0 < q) (x : Int) : zmod q x < q := by
  have h1 := Int.emod_nonneg x (b := (q : Int)) (by omega)
  have h2 := Int.emod_lt_of_pos x (b := (q : Int)) (by omega)
  simp only [zmod]
  omega

theorem zmod_int {q : Nat} (h : 0 < q) (x : Int) : (zmod q x : Int) = x % (q : Int) :=
  Int.toNat_of_nonneg (Int.emod_nonneg x (by omega))

@[simp] theorem zmod_natCast (q c : Nat) : zmod q (c : Int) = c % q := by
  simp only [zmod]
  omega

theorem zmod_eq_of_emod {q : Nat} {x y : Int} (h : x % (q : Int) = y % (q : Int)) :
    zmod q x = zmod q y := by
  rw [zmod, zmod, h]

/-- The residue, seen in the ring of integers mod Q. -/
theorem zmod_cast {q : Nat} (h : 0 < q) (x : Int) : ((zmod q x : Nat) : ZMod q) = (x : ZMod q) := by
  have : ((zmod q x : Int) : ZMod q) = (x : ZMod q) := by
    rw [zmod_int h, ZMod.intCast_mod]
  simpa using this

theorem sumTo_eq (m : Nat) (f : Nat → Int) : sumTo m f = ∑ i ∈ Finset.range m, f i := by
  induction m with
  | zero => rfl
  | succ m ih => rw [sumTo, ih, Finset.sum_range_succ]

/-! ### Elements given by a formula -/

theorem getD_map_range {α : Type} (n : Nat) (f : Nat → α) (d : α) (j : Nat) :
    ((List.range n).map f).getD j d = if j < n then f j else d := by
  simp only [List.getD_eq_getElem?_getD, List.getElem?_map]
  by_cases h : j < n <;> simp [h]

@[simp] theorem length_eltOf (p : Params) (f : Nat → Int) : (eltOf p f).length = p.n := by
  simp [eltOf]

theorem coef_eltOf (p : Params) (f : Nat → Int) (j : Nat) :
    coef (eltOf p f) j = if j < p.n then zmod p.q (f j) else 0 := by
  rw [coef, eltOf, getD_map_range]

/-- Every element made by a formula is a ring element of the machine (10_state R22). -/
theorem isElt_eltOf {p : Params} (h : 0 < p.q) (f : Nat → Int) : IsElt p (eltOf p f) := by
  refine ⟨length_eltOf p f, fun j => ?_⟩
  rw [coef_eltOf]
  split
  · exact zmod_lt h _
  · exact h

/-- Two elements with the same coefficients and the right length are equal. -/
theorem elt_ext {p : Params} {a b : Elt} (ha : a.length = p.n) (hb : b.length = p.n)
    (h : ∀ j, j < p.n → coef a j = coef b j) : a = b := by
  apply List.ext_getElem (by omega)
  intro j h1 h2
  have := h j (by omega)
  simpa [coef, List.getD_eq_getElem?_getD, h1, h2] using this

theorem coef_radd {p : Params} {a b : Elt} {j : Nat} (h : j < p.n) :
    coef (radd p a b) j = (coef a j + coef b j) % p.q := by
  rw [radd, coef_eltOf, if_pos h, ← Nat.cast_add, zmod_natCast]

theorem coef_rsub {p : Params} {a b : Elt} {j : Nat} (h : j < p.n) :
    coef (rsub p a b) j = zmod p.q ((coef a j : Int) - coef b j) := by
  rw [rsub, coef_eltOf, if_pos h]

theorem coef_rneg {p : Params} {a : Elt} {j : Nat} (h : j < p.n) :
    coef (rneg p a) j = zmod p.q (-(coef a j : Int)) := by
  rw [rneg, coef_eltOf, if_pos h]

theorem coef_rscale {p : Params} {c : Nat} {a : Elt} {j : Nat} (h : j < p.n) :
    coef (rscale p c a) j = c * coef a j % p.q := by
  rw [rscale, coef_eltOf, if_pos h, ← Nat.cast_mul, zmod_natCast]

theorem coef_rconst {p : Params} {c j : Nat} (h : j < p.n) :
    coef (rconst p c) j = if j = 0 then c % p.q else 0 := by
  rw [rconst, coef_eltOf, if_pos h]
  split
  · rw [zmod_natCast]
  · simp [zmod]

theorem coef_rzero (p : Params) (j : Nat) : coef (rzero p) j = 0 := by
  rw [rzero, coef_eltOf]
  simp [zmod]

theorem convAt_eq (p : Params) (a b : Elt) (d : Nat) :
    convAt p a b d = ∑ i ∈ Finset.range p.n, ∑ j ∈ Finset.range p.n,
      if i + j = d then (coef a i : Int) * coef b j else 0 := by
  simp only [convAt, sumTo_eq]

theorem coef_rmul {p : Params} {a b : Elt} {m : Nat} (h : m < p.n) :
    coef (rmul p a b) m = zmod p.q (convAt p a b m - convAt p a b (m + p.n)) := by
  rw [rmul, coef_eltOf, if_pos h]

theorem req_iff {p : Params} {a b : Elt} : req p a b = true ↔ ∀ j, j < p.n → coef a j = coef b j := by
  simp [req]

/-! ### Sampling -/

theorem coef_uniformElt {p : Params} {u : Nat → Nat} {c j : Nat} (h : j < p.n) :
    coef (uniformElt p u c) j = u (c + j) % p.q := by
  rw [coef, uniformElt, getD_map_range, if_pos h, drawUniform]

theorem isElt_uniformElt {p : Params} (h : 0 < p.q) (u : Nat → Nat) (c : Nat) :
    IsElt p (uniformElt p u c) := by
  refine ⟨by simp [uniformElt], fun j => ?_⟩
  rw [coef, uniformElt, getD_map_range]
  split
  · exact Nat.mod_lt _ h
  · exact h

theorem ones_le (bits : List Bool) : ones bits ≤ bits.length := List.count_le_length

theorem coef_noiseElt {p : Params} {coin : Nat → Bool} {c j : Nat} (h : j < p.n) :
    coef (noiseElt p coin c) j = cbd p (drawCoins coin (c + 2 * p.eta * j) p.eta)
      (drawCoins coin (c + 2 * p.eta * j + p.eta) p.eta) := by
  rw [coef, noiseElt, getD_map_range, if_pos h]

/-- A sampled noise element is a noise element: its coefficients are residues of integers in
`[-ETA, ETA]` (41_sampler R108, R109). -/
theorem isNoise_noiseElt (p : Params) (coin : Nat → Bool) (c : Nat) : IsNoise p (noiseElt p coin c) := by
  refine ⟨by simp [noiseElt], fun j hj => ?_⟩
  rw [coef_noiseElt hj]
  have h1 := ones_le (drawCoins coin (c + 2 * p.eta * j) p.eta)
  have h2 := ones_le (drawCoins coin (c + 2 * p.eta * j + p.eta) p.eta)
  simp only [drawCoins, List.length_map, List.length_range] at h1 h2
  exact ⟨_, by simp only [drawCoins]; omega, by simp only [drawCoins]; omega, rfl⟩

theorem IsNoise.isElt {p : Params} (h : 0 < p.q) {a : Elt} (ha : IsNoise p a) : IsElt p a := by
  refine ⟨ha.1, fun j => ?_⟩
  by_cases hj : j < p.n
  · obtain ⟨x, -, -, hx⟩ := ha.2 j hj
    rw [hx]
    exact zmod_lt h x
  · rw [coef, List.getD_eq_getElem?_getD, List.getElem?_eq_none (by rw [ha.1]; omega)]
    exact h

/-! ### The block codec -/

theorem coef_encodeBlock {p : Params} {m : List Bool} {i : Nat} (h : i < p.n) :
    coef (encodeBlock p m) i = if blockBit m i then p.half else 0 := by
  rw [coef, encodeBlock, getD_map_range, if_pos h]

theorem isElt_encodeBlock {p : Params} (h : 0 < p.q) (m : List Bool) : IsElt p (encodeBlock p m) := by
  refine ⟨by simp [encodeBlock], fun j => ?_⟩
  rw [coef, encodeBlock, getD_map_range]
  split
  · split
    · simp only [Params.half]; omega
    · exact h
  · exact h

theorem blockBit_decodeBlock {p : Params} {r : Elt} {i : Nat} (h : i < p.n) :
    blockBit (decodeBlock p r) i = decbit p (coef r i) := by
  rw [blockBit, decodeBlock, getD_map_range, if_pos h]

theorem blockBit_blockFrom {p : Params} {m : Nat → Bool} {i : Nat} (h : i < p.n) :
    blockBit (blockFrom p m) i = m i := by
  rw [blockBit, blockFrom, getD_map_range, if_pos h]

/-! ### Vectors -/

theorem length_vadd (p : Params) (a b : List Elt) : (vadd p a b).length = p.k := by simp [vadd]

theorem length_matvec (p : Params) (A s : List Elt) : (matvec p A s).length = p.k := by simp [matvec]

theorem length_matTvec (p : Params) (A r : List Elt) : (matTvec p A r).length = p.k := by
  simp [matTvec]

theorem vecAt_vadd {p : Params} {a b : List Elt} {i : Nat} (h : i < p.k) :
    vecAt (vadd p a b) i = radd p (vecAt a i) (vecAt b i) := by
  rw [vecAt, vadd, getD_map_range, if_pos h]

theorem vecAt_matvec {p : Params} {A s : List Elt} {i : Nat} (h : i < p.k) :
    vecAt (matvec p A s) i = rsum p fun j => rmul p (matAt p A i j) (vecAt s j) := by
  rw [vecAt, matvec, getD_map_range, if_pos h]

theorem vecAt_matTvec {p : Params} {A r : List Elt} {i : Nat} (h : i < p.k) :
    vecAt (matTvec p A r) i = rsum p fun j => rmul p (matAt p A j i) (vecAt r j) := by
  rw [vecAt, matTvec, getD_map_range, if_pos h]

/-- A sum by `radd` starting from `zero` is the sum of the coefficients, reduced (43_pke R125). -/
theorem coef_rsum {p : Params} (f : Nat → Elt) {m : Nat} (hm : m < p.n) :
    coef (rsum p f) m = (∑ i ∈ Finset.range p.k, coef (f i) m) % p.q := by
  have key : ∀ k, coef (((List.range k).map f).foldl (radd p) (rzero p)) m
      = (∑ i ∈ Finset.range k, coef (f i) m) % p.q := by
    intro k
    induction k with
    | zero => simp [coef_rzero]
    | succ k ih =>
      rw [List.range_succ, List.map_append, List.foldl_append, Finset.sum_range_succ]
      simp only [List.map_cons, List.map_nil, List.foldl_cons, List.foldl_nil]
      rw [coef_radd hm, ih, Nat.mod_add_mod]
  exact key p.k

theorem isElt_radd {p : Params} (h : 0 < p.q) (a b : Elt) : IsElt p (radd p a b) := isElt_eltOf h _

theorem isElt_rsum {p : Params} (h : 0 < p.q) (f : Nat → Elt) : IsElt p (rsum p f) := by
  have key : ∀ k, IsElt p (((List.range k).map f).foldl (radd p) (rzero p)) := by
    intro k
    cases k with
    | zero => exact isElt_eltOf h _
    | succ k =>
      rw [List.range_succ, List.map_append, List.foldl_append]
      exact isElt_radd h _ _
  exact key p.k

end Sys2Proof.Machine
end

