-- ==== Sys2Proof/Laws/HostAccess.lean ====
section
/-! SUPPORT. Laws/HostAccess.lean: the window's map, what a mapped access answers, and everything a
host access can do. -/

namespace Sys2Proof.Machine

/-! ### The map -/

theorem regAt_offset (r : Reg) : regAt r.offset = some r := by cases r <;> rfl

theorem Reg.offset_lt (r : Reg) : r.offset < 0x200 := by cases r <;> decide

theorem Reg.offset_aligned (r : Reg) : r.offset % 4 = 0 := by cases r <;> rfl

theorem Target.mapped_msg {p : Params} {w : Nat} : (Target.msg w).mapped p = true ↔ w < p.msgw :=
  decide_eq_true_iff

theorem Target.mapped_pmem {p : Params} {i j : Nat} :
    (Target.pmem i j).mapped p = true ↔ i < p.nslot ∧ j < p.n := by
  rw [Target.mapped, Bool.and_eq_true, decide_eq_true_iff, decide_eq_true_iff]

theorem Target.mapped_pmems {p : Params} {i j : Nat} :
    (Target.pmems i j).mapped p = true ↔ i < p.nslot ∧ j < p.n := by
  rw [Target.mapped, Bool.and_eq_true, decide_eq_true_iff, decide_eq_true_iff]

theorem msgw_le {p : Params} (hp : p.Bounds) : p.msgw ≤ 32 := by
  have := hp.n_le
  rw [Params.msgw]
  omega

/-- A target's offset is an aligned offset of the window. -/
theorem Target.offset_ok {p : Params} (hp : p.Bounds) {t : Target} (h : t.mapped p = true) :
    t.offset % 4 = 0 ∧ t.offset < windowBytes := by
  have h1 := hp.n_le
  have h2 := hp.nslot_le
  cases t with
  | reg r =>
    have := r.offset_lt
    exact ⟨r.offset_aligned, by rw [Target.offset, windowBytes]; omega⟩
  | msg w =>
    have := Target.mapped_msg.mp h
    have := msgw_le hp
    rw [Target.offset, windowBytes]; omega
  | pmem i j =>
    have := Target.mapped_pmem.mp h
    rw [Target.offset, windowBytes]; omega
  | pmems i j =>
    have := Target.mapped_pmems.mp h
    rw [Target.offset, windowBytes]; omega

/-- The map gives each target back from its offset. -/
theorem mapOffset_offset {p : Params} (hp : p.Bounds) {t : Target} (h : t.mapped p = true) :
    mapOffset p t.offset = some t := by
  have h1 := hp.n_le
  have h2 := hp.nslot_le
  cases t with
  | reg r => rw [mapOffset, Target.offset, if_pos r.offset_lt, regAt_offset]; rfl
  | msg w =>
    have hw := Target.mapped_msg.mp h
    have hm := msgw_le hp
    have e : (0x200 + 4 * w - 0x200) / 4 = w := by omega
    rw [mapOffset, Target.offset, e, if_neg (by omega), if_pos (by omega), if_pos hw]
  | pmem i j =>
    have hm := Target.mapped_pmem.mp h
    have e1 : slotOf (0x100000 + 0x1000 * i + 4 * j) = i := by rw [slotOf]; omega
    have e2 : coeffOf (0x100000 + 0x1000 * i + 4 * j) = j := by rw [coeffOf]; omega
    rw [mapOffset, Target.offset, e1, e2, if_neg (by omega), if_neg (by omega), if_neg (by omega),
      if_pos (by omega), if_pos hm]
  | pmems i j =>
    have hm := Target.mapped_pmems.mp h
    have e1 : slotOf (0x200000 + 0x1000 * i + 4 * j) = i := by rw [slotOf]; omega
    have e2 : coeffOf (0x200000 + 0x1000 * i + 4 * j) = j := by rw [coeffOf]; omega
    rw [mapOffset, Target.offset, e1, e2, if_neg (by omega), if_neg (by omega), if_neg (by omega),
      if_neg (by omega), if_pos (by omega), if_pos hm]

/-- What the map names is a target the configuration has. -/
theorem mapped_of_mapOffset {p : Params} {off : Nat} {t : Target} (h : mapOffset p off = some t) :
    t.mapped p = true := by
  rw [mapOffset] at h
  split at h
  · cases hr : regAt off with
    | none => simp [hr] at h
    | some r => simp only [hr, Option.map_some, Option.some.injEq] at h; subst h; rfl
  split at h
  · split at h
    · next hw => obtain rfl := Option.some.inj h; exact Target.mapped_msg.mpr hw
    · cases h
  split at h
  · cases h
  split at h
  · split at h
    · next hw => obtain rfl := Option.some.inj h; exact Target.mapped_pmem.mpr hw
    · cases h
  split at h
  · split at h
    · next hw => obtain rfl := Option.some.inj h; exact Target.mapped_pmems.mpr hw
    · cases h
  · cases h

theorem offset_of_regAt {off : Nat} {r : Reg} (h : regAt off = some r) : r.offset = off := by
  by_cases hb : off < 0x41
  · have key : ∀ o : Fin 0x41, ∀ r', regAt o.val = some r' → r'.offset = o.val := by decide
    exact key ⟨off, hb⟩ r h
  · unfold regAt at h
    split at h <;> first | omega | cases h

/-- The map is injective: a target is named at its own offset only. -/
theorem offset_of_mapOffset {p : Params} {off : Nat} {t : Target} (ha : off % 4 = 0)
    (h : mapOffset p off = some t) : t.offset = off := by
  rw [mapOffset] at h
  split at h
  · cases hr : regAt off with
    | none => simp [hr] at h
    | some r => simp only [hr, Option.map_some, Option.some.injEq] at h; subst h; exact offset_of_regAt hr
  split at h
  · split at h
    · obtain rfl := Option.some.inj h; rw [Target.offset]; omega
    · cases h
  split at h
  · cases h
  split at h
  · split at h
    · obtain rfl := Option.some.inj h; rw [Target.offset, slotOf, coeffOf]; omega
    · cases h
  split at h
  · split at h
    · obtain rfl := Option.some.inj h; rw [Target.offset, slotOf, coeffOf]; omega
    · cases h
  · cases h

/-! ### A mapped access -/

theorem inWindow {p : Params} (hp : p.Bounds) {t : Target} (h : t.mapped p = true) :
    p.unitBase ≤ p.unitBase + t.offset ∧ p.unitBase + t.offset < p.unitBase + windowBytes := by
  have := Target.offset_ok hp h
  omega

/-- A host read of a mapped target reaches the target's own rule. -/
theorem hostAccess_readOf {s : State} (hp : s.cfg.Bounds) {t : Target} (h : t.mapped s.cfg = true) :
    hostAccess (readOf s.cfg t) s = s.hostRead t := by
  have hw : hostAccess (readOf s.cfg t) s = s.windowAccess t.offset (readOf s.cfg t) :=
    (if_pos (inWindow hp h)).trans (congrArg (s.windowAccess · _) (Nat.add_sub_cancel_left ..))
  have ho := (Target.offset_ok hp h).1
  rw [hw, readOf, State.windowAccess, if_neg (by simp [ho]), mapOffset_offset hp h]

/-- A host write of a mapped target reaches the target's own rule. -/
theorem hostAccess_writeOf {s : State} (hp : s.cfg.Bounds) {t : Target} (h : t.mapped s.cfg = true)
    (v : Word) : hostAccess (writeOf s.cfg t v) s = s.hostWrite t.offset t v := by
  have hw : hostAccess (writeOf s.cfg t v) s = s.windowAccess t.offset (writeOf s.cfg t v) :=
    (if_pos (inWindow hp h)).trans (congrArg (s.windowAccess · _) (Nat.add_sub_cancel_left ..))
  have ho := (Target.offset_ok hp h).1
  rw [hw, writeOf, State.windowAccess, if_neg (by simp [ho]), mapOffset_offset hp h]

/-! ### Everything a host access can do -/

/-- What a host access leaves: it did not reach the unit, or it was answered with a bus error, data, an
unspecified word (with or without a recorded fault), or an acknowledgement (of a dropped write, or of a
write that took effect). -/
inductive AccessEffect (s : State) : State → Prop where
  | outside : AccessEffect s s
  | busError (off : Nat) : AccessEffect s (s.setAnswer (.busError off))
  | data (t : Target) (v : Word) (mapped : t.mapped s.cfg = true) (read : s.readTarget t = .ok v) :
      AccessEffect s (s.setAnswer (.data v))
  | busyRead (t : Target) (mapped : t.mapped s.cfg = true) (busy : s.busy = true)
      (window : t.isWindow = true) : AccessEffect s s.answerFree
  | unwritten (t : Target) (u : Uninit) (mapped : t.mapped s.cfg = true)
      (read : s.readTarget t = .error u) : AccessEffect s (s.recordFault u).answerFree
  | dropped (t : Target) (mapped : t.mapped s.cfg = true) (busy : s.busy = true)
      (drops : t.busyDrops = true) : AccessEffect s ((s.reportError .busy).setAnswer .ack)
  | written (t : Target) (v : Word) (mapped : t.mapped s.cfg = true) (rw : t.readOnly = false)
      (idle : s.busy = true → t.busyDrops = false) : AccessEffect s ((s.writeTarget t v).setAnswer .ack)

theorem hostRead_effect {s : State} {t : Target} (h : t.mapped s.cfg = true) :
    AccessEffect s (s.hostRead t) := by
  rw [State.hostRead]
  split
  · next hb =>
    simp only [Bool.and_eq_true] at hb
    exact .busyRead t h hb.1 hb.2
  · split
    · next v hv => exact .data t v h hv
    · next u hu => exact .unwritten t u h hu

theorem hostWrite_effect {s : State} {off : Nat} {t : Target} {v : Word} (h : t.mapped s.cfg = true) :
    AccessEffect s (s.hostWrite off t v) := by
  rw [State.hostWrite]
  split
  · exact .busError off
  · next hro =>
    split
    · next hb =>
      simp only [Bool.and_eq_true] at hb
      exact .dropped t h hb.1 hb.2
    · next hb =>
      exact .written t v h (by simpa using hro) (fun hbusy => by simpa [hbusy] using hb)

theorem hostAccess_effect (a : Access) (s : State) : AccessEffect s (hostAccess a s) := by
  rw [hostAccess]
  split
  · cases a with
    | read addr size =>
      simp only [State.windowAccess]
      split
      · exact .busError _
      · split
        · exact .busError _
        · next hm => exact hostRead_effect (mapped_of_mapOffset hm)
    | write addr size lanes v =>
      simp only [State.windowAccess]
      split
      · exact .busError _
      · split
        · exact .busError _
        · next hm => exact hostWrite_effect (mapped_of_mapOffset hm)
  · exact .outside

end Sys2Proof.Machine
end

