-- ==== Sys2Proof/Laws/PerInstr.lean ====
section
/-! SUPPORT. Laws/PerInstr.lean: per command, that its word selects its own row of the opcode table: the
bits the row's mask fixes are the row's match, the unused fields among them (30_encoding R75, R77). -/

namespace Sys2Proof.Laws.EncodeSelectsRow

/-- The word of a command, under its row's mask, is its row's match. -/
def Statement (i : Instr) : Prop := encode i &&& i.rowMask = i.rowMatch

/-- A packed word under a mask that keeps the opcode and keeps only fields that are 0. -/
theorem packed {opc : Byte} {rd rs1 rs2 : Nat} {m3 m2 m1 : Byte} (h3 : BitVec.ofNat 8 rs2 &&& m3 = 0#8)
    (h2 : BitVec.ofNat 8 rs1 &&& m2 = 0#8) (h1 : BitVec.ofNat 8 rd &&& m1 = 0#8) :
    packWord opc rd rs1 rs2 &&& (m3 ++ m2 ++ m1 ++ 0xFF#8 : Word) = opc.setWidth 32 := by
  rw [packWord_and, h1, h2, h3]
  revert opc
  decide

theorem unused (x : Nat) : BitVec.ofNat 8 x &&& 0x00#8 = 0#8 := BitVec.and_zero

theorem nop : Statement .nop :=
  packed (m3 := 0xFF#8) (m2 := 0xFF#8) (m1 := 0xFF#8) rfl rfl rfl

theorem pzero (rd : Nat) : Statement (.pzero rd) :=
  packed (m3 := 0xFF#8) (m2 := 0xFF#8) (m1 := 0x00#8) rfl rfl (unused _)

theorem pconst (rd : Nat) : Statement (.pconst rd) :=
  packed (m3 := 0xFF#8) (m2 := 0xFF#8) (m1 := 0x00#8) rfl rfl (unused _)

theorem pcopy (rd rs1 : Nat) : Statement (.pcopy rd rs1) :=
  packed (m3 := 0xFF#8) (m2 := 0x00#8) (m1 := 0x00#8) rfl (unused _) (unused _)

theorem padd (rd rs1 rs2 : Nat) : Statement (.padd rd rs1 rs2) :=
  packed (m3 := 0x00#8) (m2 := 0x00#8) (m1 := 0x00#8) (unused _) (unused _) (unused _)

theorem psub (rd rs1 rs2 : Nat) : Statement (.psub rd rs1 rs2) :=
  packed (m3 := 0x00#8) (m2 := 0x00#8) (m1 := 0x00#8) (unused _) (unused _) (unused _)

theorem pneg (rd rs1 : Nat) : Statement (.pneg rd rs1) :=
  packed (m3 := 0xFF#8) (m2 := 0x00#8) (m1 := 0x00#8) rfl (unused _) (unused _)

theorem pscale (rd rs1 : Nat) : Statement (.pscale rd rs1) :=
  packed (m3 := 0xFF#8) (m2 := 0x00#8) (m1 := 0x00#8) rfl (unused _) (unused _)

theorem pmul (rd rs1 rs2 : Nat) : Statement (.pmul rd rs1 rs2) :=
  packed (m3 := 0x00#8) (m2 := 0x00#8) (m1 := 0x00#8) (unused _) (unused _) (unused _)

theorem peq (rs1 rs2 : Nat) : Statement (.peq rs1 rs2) :=
  packed (m3 := 0x00#8) (m2 := 0x00#8) (m1 := 0xFF#8) (unused _) (unused _) rfl

theorem sunif (rd : Nat) : Statement (.sunif rd) :=
  packed (m3 := 0xFF#8) (m2 := 0xFF#8) (m1 := 0x00#8) rfl rfl (unused _)

theorem snoise (rd : Nat) : Statement (.snoise rd) :=
  packed (m3 := 0xFF#8) (m2 := 0xFF#8) (m1 := 0x00#8) rfl rfl (unused _)

theorem cenc (rd : Nat) : Statement (.cenc rd) :=
  packed (m3 := 0xFF#8) (m2 := 0xFF#8) (m1 := 0x00#8) rfl rfl (unused _)

theorem cdec (rs1 : Nat) : Statement (.cdec rs1) :=
  packed (m3 := 0xFF#8) (m2 := 0x00#8) (m1 := 0xFF#8) rfl (unused _) rfl

theorem keygen : Statement .keygen :=
  packed (m3 := 0xFF#8) (m2 := 0xFF#8) (m1 := 0xFF#8) rfl rfl rfl

theorem encrypt : Statement .encrypt :=
  packed (m3 := 0xFF#8) (m2 := 0xFF#8) (m1 := 0xFF#8) rfl rfl rfl

theorem decrypt : Statement .decrypt :=
  packed (m3 := 0xFF#8) (m2 := 0xFF#8) (m1 := 0xFF#8) rfl rfl rfl

end Sys2Proof.Laws.EncodeSelectsRow
end

