-- ==== Sys2Proof/Laws/Step.lean ====
section
/-! SUPPORT. Laws/Step.lean: everything a step can do (10_state R50, 20_memory R64). -/

namespace Sys2Proof.Machine

/-- What the unit step answers: with nothing pending, nothing; else the latched word was performed, or
it was rejected. -/
theorem unitStep_next {s t : State} (h : unitStep s = .next t) :
    (s.pending = none ∧ t = s)
      ∨ (∃ w i, s.pending = some w ∧ decode w = .ok i ∧ exec i s.emptyPending = .next t)
      ∨ ∃ w e, s.pending = some w ∧ decode w = .error e
          ∧ t = s.emptyPending.reportError (decodeErrorCode e) := by
  rw [unitStep] at h
  split at h
  · next hp => simp only [Host.Outcome.next.injEq] at h; exact .inl ⟨hp, h.symm⟩
  · next w hp =>
    split at h
    · next i hi => exact .inr (.inl ⟨w, i, hp, hi, h⟩)
    · next e he => exact .inr (.inr ⟨w, e, hp, he, failCommand_next.mp h⟩)

/-- The unit step always answers a next state. -/
theorem unitStep_answers (s : State) : Answers (unitStep s) := by
  rw [unitStep]
  split
  · exact ⟨_, rfl⟩
  · split
    · exact exec_answers _ _
    · exact ⟨_, rfl⟩

/-- What a step answers: the oldest event of the bus was the unit's turn (or none was left), a host
access, or a reset. -/
theorem step_next {s t : State} (h : step s = .next t) : s.cfg.legal = true ∧
    ((s.bus = [] ∧ unitStep s = .next t)
      ∨ (∃ rest, s.bus = .unit :: rest ∧ unitStep s.dropEvent = .next t)
      ∨ (∃ a rest, s.bus = .host a :: rest ∧ t = hostAccess a s.dropEvent)
      ∨ ∃ rest, s.bus = .reset :: rest ∧ t = s.dropEvent.resetUnit) := by
  rw [step, legalTurn] at h
  split at h
  · next hl =>
    refine ⟨hl, ?_⟩
    rw [turn] at h
    split at h
    · next hb => exact .inl ⟨hb, h⟩
    · next rest hb => exact .inr (.inl ⟨rest, hb, h⟩)
    · next a rest hb =>
      simp only [Host.Outcome.next.injEq] at h
      exact .inr (.inr (.inl ⟨a, rest, hb, h.symm⟩))
    · next rest hb =>
      simp only [Host.Outcome.next.injEq] at h
      exact .inr (.inr (.inr ⟨rest, hb, h.symm⟩))
    · cases h
  · cases h

/-- A run of any machine goes on from the state its first step answers. -/
theorem run_succ_of_next (M : Host.Core) {s t : M.State} (k : Nat) (h : M.step s = .next t) :
    M.run (k + 1) s = M.run k t := by
  rw [Host.Core.run, h]

/-- A run of this machine of no step. -/
theorem core_run_zero (s : State) : core.run 0 s = .next s := rfl

/-- A run of this machine goes on from the state its first step answers. -/
theorem core_run_succ {s t : State} (k : Nat) (h : step s = .next t) :
    core.run (k + 1) s = core.run k t :=
  run_succ_of_next core k h

end Sys2Proof.Machine
end

