-- ==== Sys2Proof/Tests/Slice0.lean ====
section
/-! SUPPORT. Tests/Slice0.lean: checks against 95_test_vectors (each test names its vector), and for every
statement with hypotheses a concrete state and operands that meet them together (`test_meets_…`). -/

namespace Sys2Proof.Tests

open Sys2Proof Sys2Proof.Machine

/-! ### Small states -/

/-- The reset state with some slots written. -/
def loaded (l : List (Nat × Elt)) : State := l.foldl (fun s e => s.writeSlot e.1 e.2) State.reset

/-- `a` in slot 0 and `b` in slot 1 (95, section 3). -/
def ab : State := loaded [(0, [1, 2, 3, 4]), (1, [5, 6, 7, 8])]

/-- The layout of program P3. -/
def layoutP3 : Layout := ⟨0#8, 4#8, 6#8, 8#8, 10#8⟩

/-- The public matrix, secret key and public key of V-P1. -/
def matA : List Elt := [[17, 0, 96, 50], [3, 44, 71, 8], [90, 12, 5, 61], [33, 77, 20, 1]]
def secS : List Elt := [[1, 96, 0, 0], [0, 1, 1, 96]]
def pubT : List Elt := [[31, 49, 55, 66], [13, 71, 6, 24]]

/-- The ciphertext of V-P2. -/
def ctU : List Elt := [[65, 53, 6, 38], [94, 96, 87, 74]]
def ctV : Elt := [87, 96, 75, 23]

/-- Program P3 after its ENCRYPT: key, ciphertext, layout and message. -/
def keyed : State :=
  { (((((State.reset.writeRun 0 matA).writeRun 4 pubT).writeRun 6 secS).writeRun 8 ctU).writeSlot 10
      ctV).writeMsg [true, false, true, false] with layout := layoutP3 }

/-- A machine whose latch holds NOP. -/
def busy : State := { State.reset with pending := some 0#32 }

/-- `s` with cell `(i, j)` unwritten again. -/
def without (s : State) (i j : Nat) : State := s.setCells (s.cells.filter fun e => e.1 != (i, j))

/-- Slot `i` holds exactly `a`. -/
def slotIs (t : State) (i : Nat) (a : Elt) : Bool :=
  (List.range t.cfg.n).all fun j => decide (t.cell i j = some (coef a j))

/-- The message register holds exactly `m`. -/
def msgIs (t : State) (m : List Bool) : Bool :=
  (List.range t.cfg.n).all fun j => decide (t.msgBit j = some (m.getD j false))

/-- The outcome is a next state with the property. -/
def shows (r : Result) (p : State → Bool) : Bool :=
  match r with
  | .next t => p t
  | .fault _ => false
  | .refused _ => false

/-- The outcome is exactly this next state. -/
def nextIs (r : Result) (t : State) : Bool := shows r fun u => decide (u = t)

/-- The machine after its host's accesses and its unit's steps, in order. -/
def after (l : List BusEvent) (s : State) : Result := core.run l.length { s with bus := l }

/-! ### Well-formedness: a slot number that no field holds is refused -/

theorem test_wf_smoke :
    ([.pzero 256, .pconst 256, .pcopy 256 0, .pcopy 0 256, .padd 256 0 0, .padd 0 256 0, .padd 0 0 256,
        .psub 256 0 0, .psub 0 256 0, .psub 0 0 256, .pneg 256 0, .pneg 0 256] : List Instr).all
      (fun i => !i.wellFormed) = true
    ∧ ([.pscale 256 0, .pscale 0 256, .pmul 256 0 0, .pmul 0 256 0, .pmul 0 0 256, .peq 256 0, .peq 0 256,
        .sunif 256, .snoise 256, .cenc 256, .cdec 256] : List Instr).all (fun i => !i.wellFormed) = true
    ∧ ([.nop, .padd 255 255 255, .peq 255 255, .cdec 255, .keygen, .encrypt, .decrypt] :
        List Instr).all (fun i => i.wellFormed) = true := by decide

/-! ### Decoding: every constructor's word, written out by hand in V-E1 -/

theorem test_decode_ring_words :
    decode 0x00000000#32 = .ok .nop ∧ decode 0x00000301#32 = .ok (.pzero 3)
    ∧ decode 0x00000702#32 = .ok (.pconst 7) ∧ decode 0x00000103#32 = .ok (.pcopy 1 0)
    ∧ decode 0x01000610#32 = .ok (.padd 6 0 1) ∧ decode 0x0B0A0D11#32 = .ok (.psub 13 10 11)
    ∧ decode 0x00000812#32 = .ok (.pneg 8 0) ∧ decode 0x00000913#32 = .ok (.pscale 9 0)
    ∧ decode 0x01000214#32 = .ok (.pmul 2 0 1) ∧ decode 0x04030018#32 = .ok (.peq 3 4) := by decide

theorem test_decode_other_words :
    decode 0x00000020#32 = .ok (.sunif 0) ∧ decode 0x00000521#32 = .ok (.snoise 5)
    ∧ decode 0x00000430#32 = .ok (.cenc 4) ∧ decode 0x00060031#32 = .ok (.cdec 6)
    ∧ decode 0x00000040#32 = .ok .keygen ∧ decode 0x00000041#32 = .ok .encrypt
    ∧ decode 0x00000042#32 = .ok .decrypt := by decide

/-- RD in bits 15:8, RS1 in 23:16, RS2 in 31:24, written out bit by bit (R70): PSUB s129, s2, s64. -/
theorem test_decode_bit_by_bit :
    decode 0b01000000_00000010_10000001_00010001#32 = .ok (.psub 129 2 64)
    ∧ decode 0b00000000_00000001_00000000_00110001#32 = .ok (.cdec 1)
    ∧ decode 0b00000000_00000000_10000000_00100000#32 = .ok (.sunif 128)
    ∧ decode 0b00000000_00000000_00000000_01000010#32 = .ok .decrypt := by decide

/-- V-E2: malformed words, and which check comes first. -/
theorem test_decode_malformed :
    decode 0x000000FF#32 = .error .illegalOpcode ∧ decode 0x01000004#32 = .error .illegalOpcode
    ∧ decode 0x00000140#32 = .error .reservedField ∧ decode 0x00010001#32 = .error .reservedField
    ∧ decode 0x00000118#32 = .error .reservedField ∧ decode 0x01FF0113#32 = .error .reservedField
    ∧ decode 0x10000010#32 = .ok (.padd 0 0 16) ∧ decode 0x01100011#32 = .ok (.psub 0 16 1) := by
  decide

/-- A host's bytes of a CMD word, lowest address first (20_memory R56). -/
theorem test_decode_bytes :
    decodeBytes [0x14#8, 0x02#8, 0x00#8, 0x01#8] = some (.ok (.pmul 2 0 1))
    ∧ decodeBytes [0x14#8, 0x02#8] = none := by decide

/-- The placed word is what the very next step performs; the table gives NOP the word 0. -/
theorem test_fetch_word :
    nextIs (step (State.reset.withFetchWord 32 0x00000301))
        ((State.reset.writeSlot 3 [0, 0, 0, 0]).setDone true) = true
    ∧ nextIs (step (State.reset.withFetchWord 32 0)) { State.reset with done := true } = true
    ∧ decodeTableWord 32 0x01000214 = some (.pmul 2 0 1) ∧ decodeTableWord 32 0xFF = none := by decide

/-! ### Ring commands (95, section 3) -/

/-- V-R29. -/
theorem test_nop : shows (exec .nop State.reset) (fun t => t.statusWord == 0x2#32) = true := by decide

/-- V-R24. -/
theorem test_pzero : shows (exec (.pzero 15) State.reset) (fun t => slotIs t 15 [0, 0, 0, 0]) = true := by
  decide

/-- V-R22: the scalar is unsigned and reduced. -/
theorem test_pconst : shows (exec (.pconst 7) { State.reset with arg := 0xFFFFFFFF#32 })
    (fun t => slotIs t 7 [34, 0, 0, 0]) = true := by decide

/-- V-R25. -/
theorem test_pcopy : shows (exec (.pcopy 1 0) ab) (fun t => slotIs t 1 [1, 2, 3, 4]) = true
    ∧ nextIs (exec (.pcopy 0 0) ab) { ab with done := true } = true := by decide

/-- V-R2: sums at and above Q wrap. -/
theorem test_padd : shows (exec (.padd 2 0 1) (loaded [(0, [96, 96, 50, 0]), (1, [1, 2, 47, 0])]))
    (fun t => slotIs t 2 [0, 1, 0, 0]) = true := by decide

/-- The aliasing example of 95, section 3. -/
theorem test_padd_alias : shows (exec (.padd 0 0 0) ab) (fun t => slotIs t 0 [2, 4, 6, 8]) = true := by
  decide

/-- V-R3: RS1 minus RS2, not the other way round. -/
theorem test_psub : shows (exec (.psub 7 0 1) ab) (fun t => slotIs t 7 [93, 93, 93, 93]) = true := by
  decide

/-- V-R5, V-R6: zero stays 0. -/
theorem test_pneg : shows (exec (.pneg 8 0) ab) (fun t => slotIs t 8 [96, 95, 94, 93]) = true
    ∧ shows (exec (.pneg 0 0) (loaded [(0, [0, 0, 0, 0])])) (fun t => slotIs t 0 [0, 0, 0, 0]) = true := by
  decide

/-- V-R19, V-R20. -/
theorem test_pscale : shows (exec (.pscale 9 0) { ab with arg := 0xFFFFFFFF#32 })
      (fun t => slotIs t 9 [34, 68, 5, 39]) = true
    ∧ shows (exec (.pscale 9 0) { ab with arg := 97#32 }) (fun t => slotIs t 9 [0, 0, 0, 0]) = true := by
  decide

/-- V-R7 and V-R16: a source that is also the destination. -/
theorem test_pmul : shows (exec (.pmul 2 0 1) ab) (fun t => slotIs t 2 [41, 61, 2, 60]) = true
    ∧ shows (exec (.pmul 0 0 0) ab) (fun t => slotIs t 0 [73, 77, 91, 20]) = true := by decide

/-- V-R8, V-R9, V-R11, V-R12: the fold negates. -/
theorem test_rmul_folds :
    rmul Params.reference [0, 0, 0, 1] [0, 1, 0, 0] = [96, 0, 0, 0]
    ∧ rmul Params.reference [0, 0, 0, 1] [0, 0, 0, 1] = [0, 0, 96, 0]
    ∧ rmul Params.reference [96, 0, 0, 0] [96, 0, 0, 0] = [1, 0, 0, 0]
    ∧ rmul Params.reference [96, 96, 96, 96] [96, 96, 96, 96] = [95, 0, 2, 4] := by decide

/-- V-R27 and V-R28. -/
theorem test_peq : shows (exec (.peq 0 1) { ab with eq := true }) (fun t => t.statusWord == 0x2#32) = true
    ∧ shows (exec (.peq 0 0) ab) (fun t => t.statusWord == 0xA#32) = true := by decide

/-- The uninitialised-operand example of 95, section 3: the fault is recorded and nothing is written;
the DONE flag follows 60_exceptions R159 (a). -/
theorem test_padd_unwritten :
    nextIs (exec (.padd 2 0 1) State.reset) { State.reset with faults := [.cell 0 0] } = true := by decide

/-! ### Sampler (95, section 4), on given draws: the machine's own draws are free values -/

/-- V-S1. -/
theorem test_sunif : uniformElt Params.reference (fun m => [17, 0, 96, 50].getD m 0) 0 = [17, 0, 96, 50] := by
  decide

/-- V-S2, V-S3 to V-S5: the `a` coin comes first, and -1 is stored as Q - 1. -/
theorem test_snoise :
    noiseElt Params.reference
        (fun m => [true, false, false, true, false, false, true, true].getD m false) 0 = [1, 96, 0, 0]
    ∧ noiseElt Params.reference (fun _ => true) 0 = [0, 0, 0, 0]
    ∧ noiseElt Params.reference (fun m => m % 2 == 0) 0 = [1, 1, 1, 1] := by decide

/-- V-S6: ETA = 2, N = 5. -/
theorem test_snoise_wider :
    noiseElt { Params.reference with eta := 2, n := 5 }
      (fun m => ([true, true, false, false, false, false, true, true, true, false] ++
        [false, true, true, false, true, true, false, true, false, false]).getD m false) 0
      = [2, 95, 0, 96, 1] := by decide

/-- The draw counts of 95, section 4. -/
theorem test_draw_counts : shows (exec (.sunif 0) State.reset) (fun t => t.draws == 4) = true
    ∧ shows (exec (.snoise 1) State.reset) (fun t => t.draws == 8) = true := by decide

/-! ### Codec (95, section 5) -/

/-- V-C1. -/
theorem test_cenc : shows (exec (.cenc 4) (State.reset.writeMsg [true, false, true, false]))
    (fun t => slotIs t 4 [48, 0, 48, 0]) = true := by decide

/-- V-C5. -/
theorem test_cdec : shows (exec (.cdec 6) (loaded [(6, [24, 25, 72, 73])]))
    (fun t => msgIs t [false, true, true, false]) = true := by decide

/-- V-C6 and V-C7: only the disputed value follows DEC_TIE. -/
theorem test_decode_tie :
    (List.range 7).map (decbit { Params.reference with q := 7, decTie := true })
        = [false, false, true, true, true, true, false]
    ∧ (List.range 7).map (decbit { Params.reference with q := 7, decTie := false })
        = [false, false, true, true, true, false, false] := by decide

/-! ### Engines (95, section 6) -/

/-- V-P1: t, from the drawn A, s and e. -/
theorem test_keygen_values :
    keyT Params.reference matA secS [[96, 0, 1, 0], [0, 0, 96, 1]] = pubT := by decide

/-- V-P10: which layouts KEYGEN takes. -/
theorem test_keygen_layouts :
    nextIs (exec .keygen { State.reset with layout := ⟨14#8, 4#8, 6#8, 0#8, 0#8⟩ })
        { State.reset with layout := ⟨14#8, 4#8, 6#8, 0#8, 0#8⟩, err := true, errcode := .shape } = true
    ∧ nextIs (exec .keygen { State.reset with layout := ⟨0#8, 3#8, 5#8, 0#8, 0#8⟩ })
        { State.reset with layout := ⟨0#8, 3#8, 5#8, 0#8, 0#8⟩, err := true, errcode := .overlap } = true
    ∧ shows (exec .keygen { State.reset with layout := ⟨12#8, 4#8, 6#8, 0#8, 0#8⟩ })
        (fun t => t.done && !t.err && t.draws == 48) = true := by decide

/-- V-P2: u and v, from the drawn r, e1 and e2. -/
theorem test_encrypt_values :
    cipherU Params.reference matA [[1, 0, 96, 0], [0, 96, 0, 1]] [[0, 1, 0, 0], [96, 0, 0, 0]] = ctU
    ∧ cipherV Params.reference pubT [[1, 0, 96, 0], [0, 96, 0, 1]] [0, 0, 1, 96]
        [true, false, true, false] = ctV := by decide

/-- V-P10, V-X6: OVERLAP before any read; an input run may overlap an output run. -/
theorem test_encrypt_layouts :
    nextIs (exec .encrypt { State.reset with layout := ⟨0#8, 4#8, 0#8, 8#8, 9#8⟩ })
        { State.reset with layout := ⟨0#8, 4#8, 0#8, 8#8, 9#8⟩, err := true, errcode := .overlap } = true
    ∧ shows (exec .encrypt { keyed with layout := ⟨0#8, 4#8, 6#8, 0#8, 10#8⟩ })
        (fun t => t.done && !t.err && t.draws == 40) = true := by decide

/-- V-P3. -/
theorem test_decrypt : shows (exec .decrypt (keyed.writeMsg [false, false, false, false]))
    (fun t => msgIs t [true, false, true, false] && t.done && t.draws == 0) = true := by decide

/-- V-P7: v shifted by 48 in coefficient 0. -/
theorem test_decrypt_shifted : shows (exec .decrypt (keyed.writeSlot 10 [38, 96, 75, 23]))
    (fun t => msgIs t [false, false, true, false]) = true := by decide

/-! ### Host access (95, section 7) and errors (95, section 8) -/

/-- V-H3 to V-H6: both views reduce, each its own reading of the word. -/
theorem test_window_writes :
    (hostAccess (writeOf Params.reference (.pmem 0 1) 100#32) State.reset).cell 0 1 = some 3
    ∧ (hostAccess (writeOf Params.reference (.pmem 0 1) 0xFFFFFFFF#32) State.reset).cell 0 1 = some 34
    ∧ (hostAccess (writeOf Params.reference (.pmems 1 0) 0xFFFFFFFF#32) State.reset).cell 1 0 = some 96
    ∧ (hostAccess (writeOf Params.reference (.pmems 1 0) 0x80000000#32) State.reset).cell 1 0 = some 31 := by
  decide

/-- V-H7 to V-H9. -/
theorem test_window_reads :
    (hostAccess (.read 0x100000 4) (loaded [(0, [96, 48, 49, 73])])).answer = some (.data 0x60#32)
    ∧ (hostAccess (.read 0x200000 4) (loaded [(0, [96, 48, 49, 73])])).answer = some (.data 0xFFFFFFFF#32)
    ∧ (hostAccess (.read 0x200004 4) (loaded [(0, [96, 48, 49, 73])])).answer = some (.data 0x30#32)
    ∧ (hostAccess (.read 0x200008 4) (loaded [(0, [96, 48, 49, 73])])).answer = some (.data 0xFFFFFFD0#32)
    ∧ (hostAccess (.read 0x20000C 4) (loaded [(0, [96, 48, 49, 73])])).answer
        = some (.data 0xFFFFFFE8#32) := by decide

/-- V-H10. -/
theorem test_msg_window :
    msgIs (hostAccess (.write 0x200 4 0xF#4 0xFFFFFFF5#32) State.reset) [true, false, true, false] = true
    ∧ (hostAccess (.read 0x200 4) (State.reset.writeMsg [true, false, true, false])).answer
        = some (.data 0x5#32) := by decide

/-- V-H1, V-H2, V-H11. -/
theorem test_registers :
    ([0x000, 0x004, 0x008, 0x00C, 0x010, 0x014, 0x018].map fun off =>
        (hostAccess (.read off 4) State.reset).answer)
      = (([0x50444C01#32, 97#32, 4#32, 2#32, 1#32, 16#32, 1#32] : List Word).map fun v =>
          some (Answer.data v))
    ∧ (hostAccess (.write 0x03C 4 0xF#4 0x109#32) State.reset).layout.ubase = 9#8 := by decide

/-- V-H12 and V-H13. -/
theorem test_ctrl :
    (hostAccess (.write 0x02C 4 0xF#4 0xFFFFFFFE#32) { keyed with ie := true }).ie = false
    ∧ (hostAccess (.write 0x02C 4 0xF#4 0xFFFFFFFE#32) keyed).cells = []
    ∧ (hostAccess (.write 0x02C 4 0xF#4 0x7FFFFFFF#32)
        { State.reset with err := true, errcode := .shape }).ctrlWord = 1#32
    ∧ (hostAccess (.write 0x02C 4 0xF#4 0x7FFFFFFF#32)
        { State.reset with err := true, errcode := .shape }).statusWord = 0#32 := by decide

/-- V-H14 to V-H19. -/
theorem test_bus_errors :
    ([.read 0x002 4, .read 0x028 2, .read 0x01C 4, .read 0x044 4, .read 0x204 4, .read 0x280 4,
        .read 0x300000 4, .read 0x110000 4, .read 0x100010 4] ++
      [.write 0x028 4 0xF#4 0#32, .write 0x000 4 0xF#4 0#32, .write 0x004 4 0xF#4 5#32] :
        List Access).all (fun a => decide (hostAccess a State.reset
          = { State.reset with answer := some (.busError a.addr) })) = true := by decide

/-- V-H22: the fault is recorded, and the word is free. -/
theorem test_unwritten_read : (hostAccess (.read 0x100000 4) State.reset).faults = [.cell 0 0] := by decide

/-- V-X7: a write that comes before the unit step is dropped; the command still completes. -/
theorem test_busy_write :
    shows (after [wr Params.reference (.reg .cmd) 0#32, wr Params.reference (.reg .arg) 7#32] State.reset)
      (fun t => t.statusWord == 0x405#32 && t.arg == 0#32) = true
    ∧ shows (after [wr Params.reference (.reg .cmd) 0#32, wr Params.reference (.reg .arg) 7#32, .unit]
      State.reset) (fun t => t.statusWord == 0x406#32 && t.arg == 0#32) = true := by decide

/-- V-X9, V-X8: the first error wins; the dropped command word is lost. -/
theorem test_first_error_wins :
    shows (after [wr Params.reference (.reg .cmd) 0xFF#32, wr Params.reference (.reg .arg) 7#32, .unit]
      State.reset) (fun t => t.statusWord == 0x404#32) = true
    ∧ shows (after [wr Params.reference (.reg .cmd) 0#32, wr Params.reference (.reg .cmd) 0xFF#32, .unit]
      State.reset) (fun t => t.statusWord == 0x406#32 && t.cmd == 0#32) = true := by decide

/-- V-X4: ERR is sticky beside a later DONE. -/
theorem test_sticky_error :
    shows (after (doCmd Params.reference (.padd 0 0 16) 0 ++ doCmd Params.reference (.pzero 3) 0) State.reset)
      (fun t => t.answer == some (.data 0x306#32)) = true := by decide

/-- V-X10, V-X11: the interrupt rises with DONE and falls with the acknowledgement, which keeps IE. -/
theorem test_interrupt :
    shows (after (wr Params.reference (.reg .ctrl) 3#32 :: doCmd Params.reference (.pzero 2) 1) State.reset)
      (fun t => t.irq && t.statusWord == 2#32) = true
    ∧ shows (after (wr Params.reference (.reg .ctrl) 3#32 :: doCmd Params.reference (.pzero 2) 1
        ++ ack Params.reference true) State.reset) (fun t => !t.irq && t.ie) = true := by decide

/-- V-X13: a soft reset discards the pending command. -/
theorem test_soft_reset_discards :
    shows (after [wr Params.reference (.reg .cmd) 0x40#32, wr Params.reference (.reg .ctrl) 0x80000000#32,
      .unit] State.reset) (fun t => t.statusWord == 0#32 && t.cells == []) = true := by decide

/-- V-T1 and V-T2: "Hi" in blocks of 5 and of 4 bits. -/
theorem test_text_blocks :
    splitMessage { Params.reference with n := 5 } [0x48#8, 0x69#8]
      = [[false, false, false, true, false], [false, true, false, true, false],
         [false, true, false, true, true], [false, false, false, false, false]]
    ∧ splitMessage Params.reference [0x48#8, 0x69#8]
      = [[false, false, false, true], [false, false, true, false], [true, false, false, true],
         [false, true, true, false]] := by decide

/-- 30_encoding R79. -/
theorem test_listing : listing (.pmul 2 0 1) = "PMUL s2, s0, s1" ∧ listing .keygen = "KEYGEN" := by decide

/-! ### Witnesses: every statement's hypotheses, met together -/

theorem reference_legal' : State.reset.cfg.legal = true := by decide

theorem keyed_legal : keyed.cfg.legal = true := by decide

theorem keyed_inv : keyed.Inv :=
  ⟨by decide, by decide, by decide, by decide, by decide⟩

/-- Slot `i` of `ab` is written: the hypothesis of every ring command's result. -/
theorem ab_holds : ab.SlotHolds 0 (coef [1, 2, 3, 4]) ∧ ab.SlotHolds 1 (coef [5, 6, 7, 8]) := by
  unfold State.SlotHolds; decide

theorem keyed_msg : keyed.MsgHolds fun j => [true, false, true, false].getD j false := by
  unfold State.MsgHolds; decide

theorem keyed_runA : keyed.RunHolds keyed.layout.abase.toNat (keyed.cfg.k * keyed.cfg.k)
    (fun i => coef (vecAt matA i)) := by
  unfold State.RunHolds State.SlotHolds; decide

theorem keyed_runT : keyed.RunHolds keyed.layout.tbase.toNat keyed.cfg.k
    (fun i => coef (vecAt pubT i)) := by
  unfold State.RunHolds State.SlotHolds; decide

theorem keyed_runS : keyed.RunHolds keyed.layout.sbase.toNat keyed.cfg.k
    (fun i => coef (vecAt secS i)) := by
  unfold State.RunHolds State.SlotHolds; decide

theorem keyed_runU : keyed.RunHolds keyed.layout.ubase.toNat keyed.cfg.k
    (fun i => coef (vecAt ctU i)) := by
  unfold State.RunHolds State.SlotHolds; decide

theorem keyed_v : keyed.SlotHolds keyed.layout.vslot.toNat (coef ctV) := by
  unfold State.SlotHolds; decide

/-- Runs that touch but do not meet, at the numbers of layout P3. -/
theorem runs_apart {b1 l1 b2 l2 : Nat} (h : b1 + l1 ≤ b2 ∨ b2 + l2 ≤ b1) : ¬ runsMeet b1 l1 b2 l2 := by
  rintro ⟨i, ⟨h1, h2⟩, h3, h4⟩; omega

theorem test_meets_DecodeOfEncode : (Instr.padd 255 0 255).wellFormed = true := by decide

theorem test_meets_EncodeOfDecode : decode 0xFFFFFF10#32 = .ok (.padd 255 255 255) := by decide

theorem test_meets_WordSelectsRow :
    0xFFFFFF10#32 &&& (Instr.padd 0 0 0).rowMask = (Instr.padd 0 0 0).rowMatch
    ∧ 0xFFFFFF10#32 &&& (Instr.padd 1 2 3).rowMask = (Instr.padd 1 2 3).rowMatch := by decide

/-- At the first, a middle and the last illegal opcode. -/
theorem test_meets_IllegalOpcode :
    (State.reset.withFetchWord 32 0x04).cfg.legal = true ∧ (State.reset.withFetchWord 32 0x04).unitTurn
    ∧ (State.reset.withFetchWord 32 0x04).pending = some 0x04#32
    ∧ decode 0x04#32 = .error .illegalOpcode ∧ decode 0x19#32 = .error .illegalOpcode
    ∧ decode 0xFF#32 = .error .illegalOpcode :=
  ⟨by decide, .inr ⟨_, rfl⟩, by decide, by decide, by decide, by decide⟩

theorem test_meets_ReservedField :
    (opcOf 0x80000042#32 = Instr.decrypt.opcode ∧ 0x80000042#32 &&& Instr.decrypt.rowMask
        ≠ Instr.decrypt.rowMatch)
    ∧ (State.reset.withFetchWord 32 0x118).cfg.legal = true ∧ (State.reset.withFetchWord 32 0x118).unitTurn
    ∧ (State.reset.withFetchWord 32 0x118).pending = some 0x118#32
    ∧ decode 0x118#32 = .error .reservedField :=
  ⟨by decide, by decide, .inr ⟨_, rfl⟩, by decide, by decide⟩

theorem test_meets_StepRuns :
    ((State.reset.withFetchWord 32 0x42).cfg.legal = true ∧ (State.reset.withFetchWord 32 0x42).unitTurn
      ∧ (State.reset.withFetchWord 32 0x42).pending = some 0x42#32 ∧ decode 0x42#32 = .ok .decrypt)
    ∧ State.reset.cfg.legal = true ∧ State.reset.unitTurn ∧ State.reset.pending = none :=
  ⟨⟨by decide, .inr ⟨_, rfl⟩, by decide, by decide⟩, by decide, .inl rfl, rfl⟩

/-- For PZERO, PCONST, SUNIF and SNOISE: the last slot. -/
theorem test_meets_no_source :
    15 < State.reset.cfg.nslot ∧ 0 < State.reset.cfg.q ∧ State.reset.cfg.legal = true := by decide

/-- For PCOPY, PNEG, PSCALE and CDEC, and PNEG's canonical coefficients. -/
theorem test_meets_one_source : 15 < ab.cfg.nslot ∧ 0 < ab.cfg.nslot
    ∧ ab.SlotHolds 0 (coef [1, 2, 3, 4]) ∧ ∀ j, j < ab.cfg.n → coef [1, 2, 3, 4] j < ab.cfg.q :=
  ⟨by decide, by decide, ab_holds.1, by decide⟩

/-- For PADD, PSUB, PMUL and PEQ: one slot as destination and source included. -/
theorem test_meets_two_sources : 15 < ab.cfg.nslot ∧ 0 < ab.cfg.nslot ∧ 1 < ab.cfg.nslot
    ∧ ab.SlotHolds 0 (coef [1, 2, 3, 4]) ∧ ab.SlotHolds 1 (coef [5, 6, 7, 8]) :=
  ⟨by decide, by decide, by decide, ab_holds⟩

theorem test_meets_Cenc : 15 < keyed.cfg.nslot
    ∧ keyed.MsgHolds fun j => [true, false, true, false].getD j false := ⟨by decide, keyed_msg⟩

/-- The third layout of V-P10: RA = [12, 16) ends exactly at NSLOT. -/
def layoutEdge : State := { State.reset with layout := ⟨12#8, 4#8, 6#8, 0#8, 0#8⟩ }

theorem test_meets_Keygen : layoutEdge.cfg.legal = true
    ∧ layoutEdge.layout.abase.toNat + layoutEdge.cfg.k * layoutEdge.cfg.k ≤ layoutEdge.cfg.nslot
    ∧ layoutEdge.layout.tbase.toNat + layoutEdge.cfg.k ≤ layoutEdge.cfg.nslot
    ∧ layoutEdge.layout.sbase.toNat + layoutEdge.cfg.k ≤ layoutEdge.cfg.nslot
    ∧ ¬ runsMeet layoutEdge.layout.abase.toNat (layoutEdge.cfg.k * layoutEdge.cfg.k)
        layoutEdge.layout.tbase.toNat layoutEdge.cfg.k
    ∧ ¬ runsMeet layoutEdge.layout.abase.toNat (layoutEdge.cfg.k * layoutEdge.cfg.k)
        layoutEdge.layout.sbase.toNat layoutEdge.cfg.k
    ∧ ¬ runsMeet layoutEdge.layout.tbase.toNat layoutEdge.cfg.k layoutEdge.layout.sbase.toNat
        layoutEdge.cfg.k :=
  ⟨by decide, by decide, by decide, by decide, runs_apart (by decide), runs_apart (by decide),
    runs_apart (by decide)⟩

theorem test_meets_Encrypt : keyed.cfg.legal = true
    ∧ keyed.layout.abase.toNat + keyed.cfg.k * keyed.cfg.k ≤ keyed.cfg.nslot
    ∧ keyed.layout.tbase.toNat + keyed.cfg.k ≤ keyed.cfg.nslot
    ∧ keyed.layout.ubase.toNat + keyed.cfg.k ≤ keyed.cfg.nslot
    ∧ keyed.layout.vslot.toNat < keyed.cfg.nslot
    ∧ ¬ runsMeet keyed.layout.ubase.toNat keyed.cfg.k keyed.layout.vslot.toNat 1
    ∧ keyed.RunHolds keyed.layout.abase.toNat (keyed.cfg.k * keyed.cfg.k) (fun i => coef (vecAt matA i))
    ∧ keyed.RunHolds keyed.layout.tbase.toNat keyed.cfg.k (fun i => coef (vecAt pubT i))
    ∧ keyed.MsgHolds fun j => [true, false, true, false].getD j false :=
  ⟨by decide, by decide, by decide, by decide, by decide, runs_apart (by decide), keyed_runA, keyed_runT,
    keyed_msg⟩

/-- For DECRYPT and its shifted ciphertext (`D` = 0 here, so that `v + D` is `v`). -/
theorem test_meets_Decrypt : keyed.cfg.legal = true
    ∧ keyed.layout.sbase.toNat + keyed.cfg.k ≤ keyed.cfg.nslot
    ∧ keyed.layout.ubase.toNat + keyed.cfg.k ≤ keyed.cfg.nslot
    ∧ keyed.layout.vslot.toNat < keyed.cfg.nslot
    ∧ keyed.RunHolds keyed.layout.sbase.toNat keyed.cfg.k (fun i => coef (vecAt secS i))
    ∧ keyed.RunHolds keyed.layout.ubase.toNat keyed.cfg.k (fun i => coef (vecAt ctU i))
    ∧ keyed.SlotHolds keyed.layout.vslot.toNat (coef ctV) :=
  ⟨by decide, by decide, by decide, by decide, keyed_runS, keyed_runU, keyed_v⟩

/-- V-P7: v = V-P2's plus 48 in coefficient 0 is stored reduced. -/
theorem test_meets_Shifted :
    (keyed.writeSlot 10 [38, 96, 75, 23]).SlotHolds 10
      (fun m => (coef ctV m + coef [48, 0, 0, 0] m) % keyed.cfg.q) := by
  unfold State.SlotHolds; decide

/-- Two machines that differ in a secret slot only. -/
theorem test_meets_CiphertextIgnores :
    keyed.cfg = (keyed.writeSlot 6 [0, 0, 0, 0]).cfg ∧ keyed.layout = (keyed.writeSlot 6 [0, 0, 0, 0]).layout
    ∧ keyed.draws = (keyed.writeSlot 6 [0, 0, 0, 0]).draws
    ∧ (keyed.writeSlot 6 [0, 0, 0, 0]).RunHolds 0 4 (fun i => coef (vecAt matA i))
    ∧ (keyed.writeSlot 6 [0, 0, 0, 0]).RunHolds 4 2 (fun i => coef (vecAt pubT i))
    ∧ ((keyed.writeSlot 6 [0, 0, 0, 0]).MsgHolds fun j => [true, false, true, false].getD j false)
    ∧ keyed.cell 6 0 ≠ (keyed.writeSlot 6 [0, 0, 0, 0]).cell 6 0 := by
  unfold State.RunHolds State.SlotHolds State.MsgHolds; decide

theorem test_meets_SlotOutOfRange : ∃ x ∈ (Instr.padd 0 0 16).slots, State.reset.cfg.nslot ≤ x :=
  ⟨16, by decide, by decide⟩

/-- Each run one slot too high. -/
theorem test_meets_EngineRunOutOfRange :
    State.reset.cfg.nslot < (13#8).toNat + State.reset.cfg.k * State.reset.cfg.k
    ∧ State.reset.cfg.nslot < (15#8).toNat + State.reset.cfg.k
    ∧ State.reset.cfg.nslot < (16#8).toNat + 1 := by decide

/-- V-P10: runs that share slot 3; RU that contains VSLOT; and, for the last two clauses, runs that are
accepted. -/
theorem test_meets_Overlapping : runsMeet 0 (2 * 2) 3 2 ∧ runsMeet 8 2 9 1 ∧ 0 + 2 * 2 ≤ State.reset.cfg.nslot
    ∧ 3 + 2 ≤ State.reset.cfg.nslot ∧ 5 + 2 ≤ State.reset.cfg.nslot ∧ 8 + 2 ≤ State.reset.cfg.nslot
    ∧ 9 < State.reset.cfg.nslot ∧ ¬ runsMeet 0 2 10 1 :=
  ⟨⟨3, by decide, by decide⟩, ⟨9, by decide, by decide⟩, by decide, by decide, by decide, by decide,
    by decide, runs_apart (by decide)⟩

/-- The first clause at the last coefficient, the second at the first, the third at the first bit. -/
theorem test_meets_UnwrittenSource : (without ab 0 3).FirstUnwritten 0 3
    ∧ (ab.SlotWritten 0 ∧ ab.FirstUnwritten 2 0) ∧ State.reset.FirstUnwrittenBit 0 := by
  unfold State.FirstUnwritten State.SlotWritten State.FirstUnwrittenBit; decide

/-- ENCRYPT's clauses at the last cell of RA, the first of RT's last slot, and the last message bit; the
layout is that of `test_meets_Encrypt`. -/
theorem test_meets_UnwrittenEncrypt :
    ((without keyed 3 3).RunWritten 0 3 ∧ (without keyed 3 3).FirstUnwritten (0 + 3) 3)
    ∧ ((without keyed 5 0).RunWritten 0 (2 * 2) ∧ (without keyed 5 0).RunWritten 4 1
      ∧ (without keyed 5 0).FirstUnwritten (4 + 1) 0)
    ∧ ((keyed.setMsg (keyed.msg.take 3)).RunWritten 0 (2 * 2) ∧ (keyed.setMsg (keyed.msg.take 3)).RunWritten 4 2
      ∧ (keyed.setMsg (keyed.msg.take 3)).FirstUnwrittenBit 3) := by
  unfold State.RunWritten State.SlotWritten State.FirstUnwritten State.FirstUnwrittenBit; decide

/-- DECRYPT's clauses at the last cell of RS, the first of RU's last slot, and the last cell of RV; the
layout is that of `test_meets_Decrypt`. -/
theorem test_meets_UnwrittenDecrypt :
    ((without keyed 7 3).RunWritten 6 1 ∧ (without keyed 7 3).RunWritten 8 1
      ∧ (without keyed 7 3).FirstUnwritten (6 + 1) 3)
    ∧ ((without keyed 9 0).RunWritten 6 (1 + 1) ∧ (without keyed 9 0).RunWritten 8 1
      ∧ (without keyed 9 0).FirstUnwritten (8 + 1) 0)
    ∧ ((without keyed 10 3).RunWritten 6 2 ∧ (without keyed 10 3).RunWritten 8 2
      ∧ (without keyed 10 3).FirstUnwritten 10 3) := by
  unfold State.RunWritten State.SlotWritten State.FirstUnwritten; decide

/-- 43_pke R134's line order, pair by pair (log 6): u[0] is read before s[1]. -/
theorem test_decrypt_records_pair_by_pair :
    shows (exec .decrypt (without (without keyed 7 0) 8 0)) (fun t => t.faults == [.cell 8 0] && !t.done)
      = true := by decide

theorem test_meets_CommandsLeave : ∃ t, exec (.pzero 15) ab = .next t := ⟨_, rfl⟩

/-- The last clause by a unit step that reports a second error. -/
theorem test_meets_ErrorReport : State.reset.err = false ∧ (State.reset.reportError .shape).err = true
    ∧ shows (step ((State.reset.reportError .shape).withFetchWord 32 0xFF)) (fun t => t.err) = true := by
  decide

/-- The word of R164. -/
theorem test_meets_Acknowledge : (0x3#32).getLsbD 0 = true ∧ (0x3#32).getLsbD 1 = true
    ∧ (0x3#32).getLsbD 31 = false ∧ State.reset.cfg.legal = true := by decide

/-- For every statement on host accesses of a legal, idle machine: the last cell and the last MSG word;
for the acknowledgement's second clause, ERR is 0. -/
theorem test_meets_idle_host : State.reset.cfg.legal = true ∧ State.reset.pending = none
    ∧ State.reset.err = false ∧ 15 < State.reset.cfg.nslot ∧ 3 < State.reset.cfg.n
    ∧ 0 < State.reset.cfg.msgw ∧ 96 < State.reset.cfg.q := by decide

/-- Both clauses of the window reads: a written cell and an unwritten one. -/
theorem test_meets_SlotWindowReads : keyed.Inv ∧ keyed.pending = none ∧ keyed.cell 10 1 = some 96
    ∧ keyed.cell 15 3 = none := ⟨keyed_inv, by decide, by decide, by decide⟩

/-- The last two clauses of the MSG window: all mapped bits written, and the last one unwritten. -/
theorem test_meets_MsgWindow :
    (∀ i, i < 32 → 32 * 0 + i < keyed.cfg.n →
      keyed.msgBit (32 * 0 + i) = some ([true, false, true, false].getD i false))
    ∧ (∀ i', i' < 3 → ((State.reset.setMsg [(0, true), (1, true), (2, false)]).msgBit (32 * 0 + i')).isSome
        = true)
    ∧ (State.reset.setMsg [(0, true), (1, true), (2, false)]).msgBit (32 * 0 + 3) = none
    ∧ 32 * 0 + 3 < State.reset.cfg.n := by decide

/-- The busy clause at the last MSG word, and the bus error at the first and last words beyond it. -/
theorem test_meets_MsgWindow_other : busy.pending.isSome = true ∧ 0 < busy.cfg.msgw ∧ busy.cfg.msgw ≤ 1
    ∧ busy.cfg.msgw ≤ 31 := by decide

/-- For the statements on a busy unit: every kind of target, at its last place. -/
theorem test_meets_busy : busy.cfg.legal = true ∧ busy.pending.isSome = true
    ∧ (Target.msg 0).mapped busy.cfg = true ∧ (Target.pmem 15 3).mapped busy.cfg = true
    ∧ (Target.pmems 15 3).mapped busy.cfg = true ∧ (Target.reg .ctrl).mapped busy.cfg = true
    ∧ (Target.reg .vslot).mapped busy.cfg = true
    ∧ ∀ size lanes v, Access.write 0x02C 4 0xF#4 0x7FFFFFFF#32
        = .write (busy.cfg.unitBase + 0x02C) size lanes v → v.getLsbD 31 = false := by
  refine ⟨by decide, by decide, by decide, by decide, by decide, by decide, by decide, ?_⟩
  rintro size lanes v h
  cases h
  decide

/-- Each clause of the refused accesses at the edges: a size of 2, a misaligned last byte, a lane off, the
gap after PARAM_DEC, MSG word MSGW, the last word of the window, and the first address above it. -/
theorem test_meets_Refused : (0x3FFFFF < 0x400000 ∧ 0x3FFFFF % 4 ≠ 0) ∧ (2 ≠ 4) ∧ (0xE#4 ≠ 0xF#4)
    ∧ (∀ t : Target, t.mapped State.reset.cfg = true → t.offset ≠ 0x01C)
    ∧ (∀ t : Target, t.mapped State.reset.cfg = true → t.offset ≠ 0x204)
    ∧ (∀ t : Target, t.mapped State.reset.cfg = true → t.offset ≠ 0x3FFFFC)
    ∧ State.reset.cfg.unitBase + 0x400000 ≤ (Access.read 0x400000 4).addr := by
  have none_of : ∀ off, mapOffset State.reset.cfg off = none →
      ∀ t : Target, t.mapped State.reset.cfg = true → t.offset ≠ off := by
    intro off hn t ht ho
    have := mapOffset_offset (Params.bounds reference_legal) ht
    rw [ho] at this
    exact absurd (hn.symm.trans this) (by simp)
  exact ⟨by decide, by decide, by decide, none_of _ (by decide), none_of _ (by decide),
    none_of _ (by decide), by decide⟩

theorem test_meets_Reset :
    ({ keyed with bus := [.reset, .unit] } : State).bus = .reset :: [.unit]
    ∧ ({ keyed with bus := [.host (writeOf keyed.cfg (.reg .ctrl) 0x80000000#32)] } : State).bus
        = .host (writeOf keyed.cfg (.reg .ctrl) 0x80000000#32) :: []
    ∧ (0x80000000#32).getLsbD 31 = true ∧ keyed.cfg.legal = true :=
  ⟨rfl, rfl, by decide, by decide⟩

theorem test_meets_StepKeeps : State.reset.Inv ∧ step State.reset = .next State.reset :=
  ⟨⟨by decide, by decide, by decide, by decide, by decide⟩, rfl⟩

/-- A PEQ step that changes EQ. -/
theorem test_meets_EqChanges :
    shows (step (ab.withFetchWord 32 0x00000018)) (fun t => t.eq != ab.eq) = true := by decide

theorem test_meets_Pending : busy.cfg.legal = true ∧ (∀ a, BusEvent.hostInReset a ∉ busy.bus)
    ∧ busy.pending ≠ none := ⟨by decide, (by intro a h; cases h), by decide⟩

/-- The first clause: a poll and an acknowledgement come before the unit's turn, a reset after it, so that
the latched NOP is performed; with no event left it is performed as well. -/
theorem test_meets_Pending_before :
    (∀ e ∈ [rd busy.cfg (.reg .status), wr busy.cfg (.reg .ctrl) 0x7FFFFFFF#32], ∃ a, e = .host a
      ∧ ∀ v, a = writeOf busy.cfg (.reg .ctrl) v → v.getLsbD 31 = false)
    ∧ busy.pending = some 0#32 ∧ decode 0#32 = .ok .nop ∧ busy.bus = [] ++ [] := by
  refine ⟨?_, rfl, by decide, rfl⟩
  simp only [List.mem_cons, List.not_mem_nil, or_false]
  rintro e (rfl | rfl)
  · exact ⟨_, rfl, by rintro v ⟨⟩⟩
  · exact ⟨_, rfl, by rintro v ⟨⟩; decide⟩

/-- 70_reset R186: a reset that comes first discards the command, and one that comes after does not. -/
theorem test_pending_and_reset :
    shows (core.run 2 { busy with bus := [.unit, .reset] }) (fun t => !t.busy && !t.done) = true
    ∧ shows (core.run 1 { busy with bus := [.unit, .reset] }) (fun t => t.done) = true
    ∧ shows (core.run 2 { busy with bus := [.reset, .unit] }) (fun t => !t.busy && !t.done) = true := by
  decide

/-- The bounds of a legal configuration, at both ends (00_scope R6 to R10, 20_memory R53). -/
theorem test_legal_edges :
    ({ q := 65521, n := 1024, k := 16, eta := 16, nslot := 256, decTie := false, unitBase := 4194304,
       irqLine := 0 } : Params).legal = true
    ∧ ({ q := 3, n := 1, k := 1, eta := 1, nslot := 1, decTie := true, unitBase := 0, irqLine := 0 } :
        Params).legal = true
    ∧ ({ Params.reference with q := 91 } : Params).legal = false
    ∧ ({ Params.reference with unitBase := 4096 } : Params).legal = false := by decide

/-- 93 item 11: a machine that is not built takes no step. -/
theorem test_illegal_refused :
    step { State.reset with cfg := { Params.reference with n := 1025 } } = .refused .illegalConfig := rfl

/-- The ring laws' elements, and the boundary 2 <= N at N = 2. -/
theorem test_meets_RingLaws : Params.reference.legal = true
    ∧ IsElt Params.reference (rneg Params.reference [1, 2, 3, 4])
    ∧ IsElt Params.reference (rzero Params.reference) ∧ IsElt Params.reference (rone Params.reference)
    ∧ 96 < Params.reference.q ∧ ({ Params.reference with n := 2 } : Params).legal = true :=
  ⟨by decide, isElt_eltOf (by decide) _, isElt_eltOf (by decide) _, isElt_eltOf (by decide) _, by decide,
    by decide⟩

/-- The largest noise of each sign at Q = 97, and the block of V-C1; Q = 7 has the disputed value. -/
theorem test_meets_codec : Params.reference.legal = true ∧ [true, false, true, false].length = 4
    ∧ 4 * |(23 : Int)| < (Params.reference.q : Int) - 2 ∧ 4 * |(-23 : Int)| < (Params.reference.q : Int) - 2
    ∧ ({ Params.reference with q := 7 } : Params).legal = true := by decide

/-- Every premise of the machine's correctness statement, at program P3's layout. -/
theorem test_meets_DecryptReturns : keyed.cfg.legal = true
    ∧ (keyed.MsgHolds fun j => [true, false, true, false].getD j false)
    ∧ 4 * (2 * keyed.cfg.k * keyed.cfg.n * keyed.cfg.eta ^ 2 + keyed.cfg.eta) + 2 < keyed.cfg.q
    ∧ 0 + 2 * 2 ≤ keyed.cfg.nslot ∧ 4 + 2 ≤ keyed.cfg.nslot ∧ 6 + 2 ≤ keyed.cfg.nslot
    ∧ 8 + 2 ≤ keyed.cfg.nslot ∧ 10 < keyed.cfg.nslot
    ∧ ¬ runsMeet 0 (2 * 2) 4 2 ∧ ¬ runsMeet 0 (2 * 2) 6 2 ∧ ¬ runsMeet 4 2 6 2
    ∧ ¬ runsMeet 8 2 10 1 ∧ ¬ runsMeet 8 2 6 2 ∧ ¬ runsMeet 10 1 6 2 :=
  ⟨by decide, keyed_msg, by decide, by decide, by decide, by decide, by decide, by decide,
    runs_apart (by decide), runs_apart (by decide), runs_apart (by decide), runs_apart (by decide),
    runs_apart (by decide), runs_apart (by decide)⟩

theorem test_meets_JoinOfSplit : 1 ≤ Params.reference.n := by decide

end Sys2Proof.Tests
end

/-! ### The row a word selects (30_encoding R74 to R77)

A row of the opcode table is given by its opcode and by the fields it reserves; a word of that opcode
decodes exactly when its reserved fields are 0, which is what `w & mask = match` says bit by bit. -/

namespace Sys2Proof

/-- The fields of `w` that the command's row does not use, in the order RD, RS1, RS2 (R74, R77). -/
def Instr.reserved (w : Word) : Instr → List Nat
  | .nop | .keygen | .encrypt | .decrypt => [rdOf w, rs1Of w, rs2Of w]
  | .pzero _ | .pconst _ | .sunif _ | .snoise _ | .cenc _ => [rs1Of w, rs2Of w]
  | .pcopy _ _ | .pneg _ _ | .pscale _ _ => [rs2Of w]
  | .padd _ _ _ | .psub _ _ _ | .pmul _ _ _ => []
  | .peq _ _ => [rdOf w]
  | .cdec _ => [rdOf w, rs2Of w]

/-- The command of the same row whose slot operands are the fields of `w` (R74). -/
def Instr.withFields (w : Word) : Instr → Instr
  | .nop => .nop
  | .pzero _ => .pzero (rdOf w)
  | .pconst _ => .pconst (rdOf w)
  | .pcopy _ _ => .pcopy (rdOf w) (rs1Of w)
  | .padd _ _ _ => .padd (rdOf w) (rs1Of w) (rs2Of w)
  | .psub _ _ _ => .psub (rdOf w) (rs1Of w) (rs2Of w)
  | .pneg _ _ => .pneg (rdOf w) (rs1Of w)
  | .pscale _ _ => .pscale (rdOf w) (rs1Of w)
  | .pmul _ _ _ => .pmul (rdOf w) (rs1Of w) (rs2Of w)
  | .peq _ _ => .peq (rs1Of w) (rs2Of w)
  | .sunif _ => .sunif (rdOf w)
  | .snoise _ => .snoise (rdOf w)
  | .cenc _ => .cenc (rdOf w)
  | .cdec _ => .cdec (rs1Of w)
  | .keygen => .keygen
  | .encrypt => .encrypt
  | .decrypt => .decrypt

@[simp] theorem Instr.rowMask_withFields (w : Word) (i : Instr) : (i.withFields w).rowMask = i.rowMask := by
  cases i <;> rfl

@[simp] theorem Instr.rowMatch_withFields (w : Word) (i : Instr) :
    (i.withFields w).rowMatch = i.rowMatch := by
  cases i <;> rfl

/-! #### The mask and match of a row, field by field -/

/-- Words are equal when their four fields are (R70). -/
theorem word_eq_iff {v w : Word} : v = w ↔
    opcOf v = opcOf w ∧ rdOf v = rdOf w ∧ rs1Of v = rs1Of w ∧ rs2Of v = rs2Of w := by
  refine ⟨fun h => h ▸ ⟨rfl, rfl, rfl, rfl⟩, fun ⟨hopc, hrd, hrs1, hrs2⟩ => ?_⟩
  rw [← pack_fields v, hopc, hrd, hrs1, hrs2, pack_fields]

/-- A word is a match, a zero-extended opcode, when that is its opcode and its other fields are 0. -/
theorem eq_setWidth_iff {v : Word} {opc : Byte} : v = opc.setWidth 32 ↔
    opcOf v = opc ∧ rdOf v = 0 ∧ rs1Of v = 0 ∧ rs2Of v = 0 := by
  have fields : opcOf (opc.setWidth 32) = opc ∧ rdOf (opc.setWidth 32) = 0
      ∧ rs1Of (opc.setWidth 32) = 0 ∧ rs2Of (opc.setWidth 32) = 0 := by
    revert opc; decide
  obtain ⟨h0, h1, h2, h3⟩ := fields
  rw [word_eq_iff, h0, h1, h2, h3]

/-- The fields that a row's mask keeps: the opcode and the reserved ones (R75). -/
theorem and_rowMask_eq_iff {w : Word} {i : Instr} : w &&& i.rowMask = i.rowMatch ↔
    opcOf w = i.opcode ∧ ∀ f ∈ i.reserved w, f = 0 := by
  rw [Instr.rowMatch, eq_setWidth_iff]
  have keep (x : Byte) : x &&& 255#8 = x := BitVec.and_allOnes
  cases i <;>
    simp [Instr.rowMask, Instr.reserved, opcOf, rdOf, rs1Of, rs2Of, byteField, BitVec.extractLsb'_and, keep]

/-! #### Decoding at a row's opcode and elsewhere -/

theorem needZero_eq (l : List Nat) (i : Instr) :
    needZero l i = if ∀ f ∈ l, f = 0 then .ok i else .error .reservedField := by
  simp [needZero]

/-- At a row's opcode the decoder takes that row: step 2 of R78 is all that is left. -/
theorem decode_of_opcode {w : Word} {i : Instr} (h : opcOf w = i.opcode) :
    decode w = needZero (i.reserved w) (i.withFields w) := by
  unfold decode
  rw [h]
  cases i <;> rfl

/-- At a row's opcode a word is accepted, as the row's command with the word's fields, exactly when it
is the row's match under the row's mask (R75, R77). -/
theorem decode_eq_ite_of_opcode {w : Word} {i : Instr} (h : opcOf w = i.opcode) :
    decode w = if w &&& i.rowMask = i.rowMatch then .ok (i.withFields w) else .error .reservedField := by
  simp only [decode_of_opcode h, needZero_eq, and_rowMask_eq_iff, h, true_and]

/-- The six ranges of opcodes that no row has (R76). -/
abbrev IllegalOpcodeRange (o : Nat) : Prop :=
  (0x04 ≤ o ∧ o ≤ 0x0F) ∨ (0x15 ≤ o ∧ o ≤ 0x17) ∨ (0x19 ≤ o ∧ o ≤ 0x1F) ∨ (0x22 ≤ o ∧ o ≤ 0x2F)
    ∨ (0x32 ≤ o ∧ o ≤ 0x3F) ∨ (0x43 ≤ o ∧ o ≤ 0xFF)

/-- The seventeen rows, each by its command with all operands 0 (R74). -/
def opcodeRows : List Instr :=
  [.nop, .pzero 0, .pconst 0, .pcopy 0 0, .padd 0 0 0, .psub 0 0 0, .pneg 0 0, .pscale 0 0, .pmul 0 0 0,
    .peq 0 0, .sunif 0, .snoise 0, .cenc 0, .cdec 0, .keygen, .encrypt, .decrypt]

/-- The opcodes of the rows, as numbers. -/
def definedOpcodes : List Nat := opcodeRows.map fun i => i.opcode.toNat

theorem definedOpcodes_eq : definedOpcodes = [0x00, 0x01, 0x02, 0x03, 0x10, 0x11, 0x12, 0x13, 0x14, 0x18,
    0x20, 0x21, 0x30, 0x31, 0x40, 0x41, 0x42] := rfl

/-- The ranges are the opcodes that no row has. -/
theorem illegalOpcodeRange_iff {o : Nat} (h : o < 256) : IllegalOpcodeRange o ↔ o ∉ definedOpcodes := by
  simp only [IllegalOpcodeRange, definedOpcodes_eq, List.mem_cons, List.not_mem_nil, or_false, not_or]
  omega

/-- Every opcode outside the ranges is some row's. -/
theorem exists_opcode_of_not_range {opc : Byte} (h : ¬ IllegalOpcodeRange opc.toNat) :
    ∃ i : Instr, opc = i.opcode := by
  rw [illegalOpcodeRange_iff opc.isLt, not_not] at h
  obtain ⟨i, -, hi⟩ := List.mem_map.mp h
  exact ⟨i, BitVec.eq_of_toNat_eq hi.symm⟩

/-- An opcode of the ranges matches no row of the decoder's table: step 1 of R78. -/
theorem decode_of_range {w : Word} (h : IllegalOpcodeRange (opcOf w).toNat) :
    decode w = .error .illegalOpcode := by
  unfold IllegalOpcodeRange at h
  unfold decode
  split
  case h_18 => rfl
  all_goals omega

/-- At every other opcode the decoder gets to step 2 and never answers ILLEGAL_OPCODE (R76, R78). -/
theorem decode_illegal_iff {w : Word} :
    decode w = .error .illegalOpcode ↔ IllegalOpcodeRange (opcOf w).toNat := by
  refine ⟨fun h => by_contra fun hr => ?_, decode_of_range⟩
  obtain ⟨i, hi⟩ := exists_opcode_of_not_range hr
  rw [decode_eq_ite_of_opcode hi] at h
  split at h <;> cases h

/-- A decoded command's row is the row the word selects (R75). -/
theorem decode_ok_selects {w : Word} {i : Instr} (h : decode w = .ok i) : w &&& i.rowMask = i.rowMatch := by
  have hr : ¬ IllegalOpcodeRange (opcOf w).toNat := fun hr => by rw [decode_of_range hr] at h; cases h
  obtain ⟨r, hopc⟩ := exists_opcode_of_not_range hr
  rw [decode_eq_ite_of_opcode hopc] at h
  split at h
  · next hsel => cases h; simpa using hsel
  · cases h

/-- A word decodes to a command of row `i` exactly when it selects the row (R75). -/
theorem selects_iff_decode {w : Word} {i : Instr} : w &&& i.rowMask = i.rowMatch ↔
    ∃ i', decode w = .ok i' ∧ i'.rowMatch = i.rowMatch ∧ i'.rowMask = i.rowMask := by
  refine ⟨fun h => ⟨i.withFields w, ?_, by simp, by simp⟩, fun ⟨i', hd, hmatch, hmask⟩ => ?_⟩
  · rw [decode_eq_ite_of_opcode (and_rowMask_eq_iff.mp h).1, if_pos h]
  · rw [← hmatch, ← hmask]
    exact decode_ok_selects hd

/-- A word below 256 is illegal exactly when, as an opcode, no row has it. -/
theorem decode_ofNat_illegal_iff {o : Nat} (h : o < 256) :
    decode (BitVec.ofNat 32 o) = .error .illegalOpcode ↔ o ∉ definedOpcodes := by
  have hopc : (opcOf (BitVec.ofNat 32 o)).toNat = o := by
    rw [opcOf_toNat, BitVec.toNat_ofNat]
    omega
  rw [decode_illegal_iff, hopc, illegalOpcodeRange_iff h]

/-- Of the 256 opcodes all but the seventeen defined ones are illegal (R76). -/
theorem card_illegal_opcodes :
    ((Finset.range 256).filter fun o => decode (BitVec.ofNat 32 o) = .error .illegalOpcode).card = 239 := by
  have hsub : definedOpcodes.toFinset ⊆ Finset.range 256 := by decide
  have hset : ((Finset.range 256).filter fun o => decode (BitVec.ofNat 32 o) = .error .illegalOpcode)
      = Finset.range 256 \ definedOpcodes.toFinset := by
    ext o
    simp only [Finset.mem_filter, Finset.mem_sdiff, List.mem_toFinset]
    exact and_congr_right fun h => decode_ofNat_illegal_iff (Finset.mem_range.mp h)
  rw [hset, Finset.card_sdiff_of_subset hsub, Finset.card_range]
  rfl

end Sys2Proof

/-! ### A step at the unit's turn (10_state R50, 60_exceptions R156) -/

namespace Sys2Proof.Machine

/-- At the unit's turn of a legal configuration the step is the unit's, on the bus without its oldest
event. -/
theorem step_of_unitTurn {s : State} (hl : s.cfg.legal = true) (ht : s.unitTurn) :
    step s = unitStep s.dropEvent := by
  rw [step, legalTurn, if_pos hl]
  rcases ht with hb | ⟨rest, hb⟩
  · have hdrop : s.dropEvent = s := by cases s; subst hb; rfl
    rw [turn, hb, hdrop]
  · rw [turn, hb]

/-- A pending word that is no command ends in its error report. -/
theorem unitStep_of_decode_error {s : State} {w : Word} {e : DecodeError} (hp : s.pending = some w)
    (hd : decode w = .error e) :
    unitStep s = .next (s.emptyPending.reportError (decodeErrorCode e)) := by
  rw [unitStep, hp]
  simp only [hd]
  rfl

/-- A word that is no command changes nothing but STATUS: its latch is emptied and its turn is over. -/
theorem step_of_decode_error {s : State} {w : Word} {e : DecodeError} (hl : s.cfg.legal = true)
    (ht : s.unitTurn) (hp : s.pending = some w) (hd : decode w = .error e) :
    step s = .next { s.reported (decodeErrorCode e) with pending := none, bus := s.bus.tail } := by
  rw [step_of_unitTurn hl ht]
  exact unitStep_of_decode_error hp hd

end Sys2Proof.Machine

/-! ### The encoding obligations -/

section

open Sys2Proof Sys2Proof.Machine

/-- Settles O3: a word selects a row exactly when the decoder takes that row, and what it selects fixes
the opcode. -/
theorem wordSelectsRowByMaskAndMatch : Obligations.WordSelectsRowByMaskAndMatch :=
  ⟨rfl, fun _ _ => selects_iff_decode, fun _ _ _ h h' =>
    (and_rowMask_eq_iff.mp h).1.symm.trans (and_rowMask_eq_iff.mp h').1⟩

/-- Settles O4: the decoder's fall-through case is the listed ranges, and the step reports it. -/
theorem illegalOpcodeIsReported : Obligations.IllegalOpcodeIsReported :=
  ⟨fun _ => decode_illegal_iff, card_illegal_opcodes, fun _ _ => step_of_decode_error⟩

/-- Settles O5: at a row's opcode only the reserved fields can differ from the row's match. -/
theorem reservedFieldIsReported : Obligations.ReservedFieldIsReported :=
  ⟨fun _ _ hopc hsel => by rw [decode_eq_ite_of_opcode hopc, if_neg hsel],
    fun _ _ => step_of_decode_error⟩

end

/-! ### What a ring command writes (40_ring R90)

The shared shape of the ring commands: slot checks, whole sources, one destination slot. -/

namespace Sys2Proof.Machine

/-- A slot written whole, and then DONE, is all that `WroteSlot` allows. -/
theorem wroteSlot_writeSlot {s : State} {rd : Nat} {e : Elt} {f : Nat → Nat}
    (h : ∀ j, j < s.cfg.n → coef e j = f j) : WroteSlot s ((s.writeSlot rd e).setDone true) rd f := by
  have cell (i j : Nat) : ((s.writeSlot rd e).setDone true).cell i j
      = if rd = i ∧ j < s.cfg.n then some (coef e j) else s.cell i j := s.cell_writeSlot rd e i j
  refine ⟨rfl, fun j hj => ?_, fun i j hij => ?_⟩
  · rw [cell, if_pos ⟨rfl, hj⟩, h j hj]
  · rw [cell, if_neg fun ⟨hi, hj⟩ => hij.elim (fun hne => hne hi.symm) fun hle => absurd hj (by omega)]

/-- A command of one source slot, with its slot fields in range and the source written, goes on with it. -/
theorem oneSource_holds {s : State} {slots : List Nat} {rs1 : Nat} {a : Nat → Nat} {k : Elt → Result}
    (hslots : ∀ i ∈ slots, i < s.cfg.nslot) (ha : s.SlotHolds rs1 a) :
    requireSlots s slots (withSlot s rs1 k) = k (eltFrom s.cfg a) := by
  rw [requireSlots_ok hslots, withSlot_holds ha]

/-- A command of two source slots, with its slot fields in range and both written, goes on with both. -/
theorem twoSource_holds {s : State} {slots : List Nat} {rs1 rs2 : Nat} {a b : Nat → Nat}
    {k : Elt → Elt → Result} (hslots : ∀ i ∈ slots, i < s.cfg.nslot) (ha : s.SlotHolds rs1 a)
    (hb : s.SlotHolds rs2 b) :
    requireSlots s slots (withSlot s rs1 fun x => withSlot s rs2 fun y => k x y)
      = k (eltFrom s.cfg a) (eltFrom s.cfg b) := by
  rw [requireSlots_ok hslots, withSlot_holds ha, withSlot_holds hb]

end Sys2Proof.Machine

/-! ### The coefficients of negations and products -/

namespace Sys2Proof.Machine

/-- The residue of the negation of a canonical coefficient (40_ring R84). -/
theorem zmod_neg {q c : Nat} (h : c < q) : zmod q (-(c : Int)) = if c = 0 then 0 else q - c := by
  split
  · next h0 => simp [h0, zmod]
  · next h0 =>
    have hshift : -(c : Int) % q = ((q - c : Nat) : Int) % q := by
      rw [Nat.cast_sub h.le, ← Int.add_emod_left, sub_eq_add_neg]
    rw [zmod_eq_of_emod hshift, zmod_natCast, Nat.mod_eq_of_lt (by omega)]

theorem coef_eltFrom_of_lt {p : Params} {a : Nat → Nat} {j : Nat} (h : j < p.n) :
    coef (eltFrom p a) j = a j := by
  rw [coef_eltFrom, if_pos h]

/-- Coefficients from N up do not enter a product. -/
theorem negacyclic_congr {n : Nat} {a a' b b' : Nat → Nat} (ha : ∀ i, i < n → a i = a' i)
    (hb : ∀ j, j < n → b j = b' j) (m : Nat) : negacyclic n a b m = negacyclic n a' b' m := by
  have sums (d : Nat) :
      (∑ i ∈ Finset.range n, ∑ j ∈ Finset.range n, if i + j = d then (a i : Int) * b j else 0)
        = ∑ i ∈ Finset.range n, ∑ j ∈ Finset.range n, if i + j = d then (a' i : Int) * b' j else 0 :=
    Finset.sum_congr rfl fun i hi => Finset.sum_congr rfl fun j hj => by
      rw [ha i (Finset.mem_range.mp hi), hb j (Finset.mem_range.mp hj)]
  rw [negacyclic, negacyclic, sums, sums]

/-- The machine's product is the negacyclic one of its operands' coefficients (40_ring R86). -/
theorem rmul_eq_negacyclic (p : Params) (a b : Elt) :
    rmul p a b = eltOf p (negacyclic p.n (coef a) (coef b)) :=
  congrArg (eltOf p) (funext fun m => by rw [convAt_eq, convAt_eq, negacyclic])

theorem coef_rmul_eltFrom {p : Params} {a b : Nat → Nat} {m : Nat} (h : m < p.n) :
    coef (rmul p (eltFrom p a) (eltFrom p b)) m = zmod p.q (negacyclic p.n a b m) := by
  rw [rmul_eq_negacyclic, coef_eltOf, if_pos h,
    negacyclic_congr (fun _ => coef_eltFrom_of_lt) (fun _ => coef_eltFrom_of_lt)]

end Sys2Proof.Machine

/-! ### The ring `Z_q[X]/(X^N + 1)` (40_ring R86, R89)

The machine's elements are compared with the quotient ring of Mathlib: `toRing` carries every ring
function to the operation it stands for and is injective on canonical elements, so that the laws of R89
are the laws of a commutative ring. -/

namespace Sys2Proof.Machine

open Polynomial

/-- Multiplying out, term by term, in any ring where `x^n = -1`: the terms of degree `n` and up fold back
negated (40_ring R86). -/
theorem sum_negacyclic {R : Type} [CommRing R] {x : R} {n : Nat} (hx : x ^ n = -1) (a b : Nat → Nat) :
    ∑ m ∈ Finset.range n, (negacyclic n a b m : R) * x ^ m
      = (∑ i ∈ Finset.range n, (a i : R) * x ^ i) * ∑ j ∈ Finset.range n, (b j : R) * x ^ j := by
  have fold (c : R) {d : Nat} (hd : d < n + n) :
      ∑ m ∈ Finset.range n, ((if d = m then c else 0) * x ^ m - (if d = m + n then c else 0) * x ^ m)
        = c * x ^ d := by
    rw [Finset.sum_sub_distrib]
    simp only [ite_mul, zero_mul]
    rcases lt_or_ge d n with hlt | hge
    · have hno : ∀ m, d ≠ m + n := fun m => by omega
      simp [hno, hlt]
    · obtain ⟨m₀, rfl⟩ := Nat.exists_eq_add_of_le' hge
      have hno : ∀ m ∈ Finset.range n, (if m₀ + n = m then c * x ^ m else 0) = 0 := fun m hm =>
        if_neg (by have := Finset.mem_range.mp hm; omega)
      have hm₀ : m₀ < n := by omega
      rw [Finset.sum_eq_zero hno]
      simp [hm₀, pow_add, hx]
  calc ∑ m ∈ Finset.range n, (negacyclic n a b m : R) * x ^ m
      = ∑ m ∈ Finset.range n, ∑ i ∈ Finset.range n, ∑ j ∈ Finset.range n,
          ((if i + j = m then (a i : R) * b j else 0) * x ^ m
            - (if i + j = m + n then (a i : R) * b j else 0) * x ^ m) := by
        refine Finset.sum_congr rfl fun m _ => ?_
        simp only [negacyclic, Finset.sum_sub_distrib, ← Finset.sum_mul, ← sub_mul]
        push_cast
        rfl
    _ = ∑ i ∈ Finset.range n, ∑ j ∈ Finset.range n, (a i : R) * b j * x ^ (i + j) := by
        rw [Finset.sum_comm]
        refine Finset.sum_congr rfl fun i hi => ?_
        rw [Finset.sum_comm]
        refine Finset.sum_congr rfl fun j hj => fold _ ?_
        exact add_lt_add (Finset.mem_range.mp hi) (Finset.mem_range.mp hj)
    _ = (∑ i ∈ Finset.range n, (a i : R) * x ^ i) * ∑ j ∈ Finset.range n, (b j : R) * x ^ j := by
        rw [Finset.sum_mul_sum]
        refine Finset.sum_congr rfl fun i _ => Finset.sum_congr rfl fun j _ => ?_
        ring

/-- The ring of the machine's elements. -/
abbrev NegacyclicRing (p : Params) : Type := AdjoinRoot (X ^ p.n + 1 : (ZMod p.q)[X])

/-- The class of `X`. -/
noncomputable abbrev ringX (p : Params) : NegacyclicRing p := AdjoinRoot.root (X ^ p.n + 1 : (ZMod p.q)[X])

/-- The class of the polynomial with an element's coefficients. -/
noncomputable def toRing (p : Params) (a : Elt) : NegacyclicRing p :=
  ∑ j ∈ Finset.range p.n, (coef a j : NegacyclicRing p) * ringX p ^ j

/-- `X^N = -1`. -/
theorem ringX_pow (p : Params) : ringX p ^ p.n = -1 := by
  have h : AdjoinRoot.mk (X ^ p.n + 1 : (ZMod p.q)[X]) (X ^ p.n + 1) = 0 := AdjoinRoot.mk_self
  rw [map_add, map_pow, map_one, AdjoinRoot.mk_X] at h
  exact eq_neg_of_add_eq_zero_left h

theorem cast_zmod {p : Params} (hq : 0 < p.q) (x : Int) :
    ((zmod p.q x : Nat) : NegacyclicRing p) = (x : NegacyclicRing p) := by
  simpa using congrArg (AdjoinRoot.of (X ^ p.n + 1 : (ZMod p.q)[X])) (zmod_cast hq x)

theorem cast_q (p : Params) : ((p.q : Nat) : NegacyclicRing p) = 0 := by
  rw [← map_natCast (AdjoinRoot.of (X ^ p.n + 1 : (ZMod p.q)[X])), ZMod.natCast_self, map_zero]

theorem toRing_eltFrom (p : Params) (f : Nat → Nat) :
    toRing p (eltFrom p f) = ∑ j ∈ Finset.range p.n, (f j : NegacyclicRing p) * ringX p ^ j :=
  Finset.sum_congr rfl fun j hj => by rw [coef_eltFrom_of_lt (Finset.mem_range.mp hj)]

/-- Reducing the coefficients mod Q does not change the class. -/
theorem toRing_eltOf {p : Params} (hq : 0 < p.q) (f : Nat → Int) :
    toRing p (eltOf p f) = ∑ j ∈ Finset.range p.n, (f j : NegacyclicRing p) * ringX p ^ j :=
  Finset.sum_congr rfl fun j hj => by
    rw [coef_eltOf, if_pos (Finset.mem_range.mp hj), cast_zmod hq]

/-- The element with `c` at coefficient `k` and 0 elsewhere is `c * X^k`. -/
theorem toRing_monomial {p : Params} {k : Nat} (hk : k < p.n) (c : Nat) :
    toRing p (eltFrom p fun j => if j = k then c else 0) = c * ringX p ^ k := by
  rw [toRing_eltFrom, Finset.sum_eq_single_of_mem k (Finset.mem_range.mpr hk)]
  · rw [if_pos rfl]
  · intro j _ hjk
    rw [if_neg hjk, Nat.cast_zero, zero_mul]

theorem toRing_rzero {p : Params} (hq : 0 < p.q) : toRing p (rzero p) = 0 := by
  simp [rzero, toRing_eltOf hq]

theorem toRing_rone {p : Params} (hq : 0 < p.q) (hn : 0 < p.n) : toRing p (rone p) = 1 := by
  rw [rone, rconst, toRing_eltOf hq, Finset.sum_eq_single_of_mem 0 (Finset.mem_range.mpr hn)]
  · simp
  · intro j _ hj
    rw [if_neg hj, Int.cast_zero, zero_mul]

theorem toRing_radd {p : Params} (hq : 0 < p.q) (a b : Elt) :
    toRing p (radd p a b) = toRing p a + toRing p b := by
  rw [radd, toRing_eltOf hq]
  simp [toRing, add_mul, Finset.sum_add_distrib]

theorem toRing_rsub {p : Params} (hq : 0 < p.q) (a b : Elt) :
    toRing p (rsub p a b) = toRing p a - toRing p b := by
  rw [rsub, toRing_eltOf hq]
  simp [toRing, sub_mul, Finset.sum_sub_distrib]

theorem toRing_rneg {p : Params} (hq : 0 < p.q) (a : Elt) : toRing p (rneg p a) = -toRing p a := by
  rw [rneg, toRing_eltOf hq]
  simp [toRing]

theorem toRing_rscale {p : Params} (hq : 0 < p.q) (c : Nat) (a : Elt) :
    toRing p (rscale p c a) = c * toRing p a := by
  rw [rscale, toRing_eltOf hq]
  simp [toRing, mul_assoc, Finset.mul_sum]

theorem toRing_rmul {p : Params} (hq : 0 < p.q) (a b : Elt) :
    toRing p (rmul p a b) = toRing p a * toRing p b := by
  rw [rmul_eq_negacyclic, toRing_eltOf hq, sum_negacyclic (ringX_pow p)]
  rfl

/-- Repeated products are powers. -/
theorem toRing_foldl_rmul {p : Params} (hq : 0 < p.q) (x : Elt) (k : Nat) (a : Elt) :
    toRing p ((List.replicate k x).foldl (rmul p) a) = toRing p a * toRing p x ^ k := by
  induction k generalizing a with
  | zero => simp
  | succ k ih => rw [List.replicate_succ, List.foldl_cons, ih, toRing_rmul hq, pow_succ', mul_assoc]

theorem isElt_foldl_rmul {p : Params} (hq : 0 < p.q) (l : List Elt) {a : Elt} (ha : IsElt p a) :
    IsElt p (l.foldl (rmul p) a) := by
  induction l generalizing a with
  | nil => exact ha
  | cons x l ih => exact ih (isElt_eltOf hq _)

/-! #### Canonical elements are equal when their classes are -/

/-- The polynomial with an element's coefficients; its degree is below N. -/
noncomputable def toPoly (p : Params) (a : Elt) : (ZMod p.q)[X] :=
  ∑ j ∈ Finset.range p.n, C (coef a j : ZMod p.q) * X ^ j

theorem mk_toPoly (p : Params) (a : Elt) : AdjoinRoot.mk (X ^ p.n + 1) (toPoly p a) = toRing p a := by
  simp [toPoly, toRing, map_sum]

theorem coeff_toPoly {p : Params} {a : Elt} {j : Nat} (h : j < p.n) :
    (toPoly p a).coeff j = (coef a j : ZMod p.q) := by
  simp [toPoly, h]

theorem degree_toPoly_lt (p : Params) (a : Elt) : (toPoly p a).degree < p.n := by
  refine (degree_lt_iff_coeff_zero _ _).mpr fun m hm => ?_
  simp [toPoly, hm]

/-- Below degree N a polynomial is determined by its class modulo `X^N + 1`. -/
theorem toPoly_eq_of_toRing_eq {p : Params} (hp : p.Bounds) {a b : Elt}
    (h : toRing p a = toRing p b) : toPoly p a = toPoly p b := by
  have : Fact p.q.Prime := ⟨hp.prime⟩
  have hn : p.n ≠ 0 := Nat.one_le_iff_ne_zero.mp hp.n_pos
  rw [← mk_toPoly, ← mk_toPoly, AdjoinRoot.mk_eq_mk] at h
  refine sub_eq_zero.mp (eq_zero_of_dvd_of_degree_lt h ?_)
  rw [← C_1, degree_X_pow_add_C (Nat.pos_of_ne_zero hn)]
  exact (degree_sub_le _ _).trans_lt (max_lt (degree_toPoly_lt p a) (degree_toPoly_lt p b))

/-- Canonical elements of the same class are equal. -/
theorem elt_eq_of_toRing_eq {p : Params} (hp : p.Bounds) {a b : Elt} (ha : IsElt p a)
    (hb : IsElt p b) (h : toRing p a = toRing p b) : a = b := by
  obtain ⟨hla, hca⟩ := ha
  obtain ⟨hlb, hcb⟩ := hb
  refine elt_ext hla hlb fun j hj => ?_
  have hcast : (coef a j : ZMod p.q) = coef b j := by
    rw [← coeff_toPoly hj, ← coeff_toPoly hj, toPoly_eq_of_toRing_eq hp h]
  exact Nat.ModEq.eq_of_lt_of_lt ((ZMod.natCast_eq_natCast_iff _ _ _).mp hcast) (hca j) (hcb j)

end Sys2Proof.Machine

/-! ### The laws of the ring functions (40_ring R89) -/

namespace Sys2Proof.Machine

theorem isElt_rsub {p : Params} (hq : 0 < p.q) (a b : Elt) : IsElt p (rsub p a b) := isElt_eltOf hq _

theorem isElt_rneg {p : Params} (hq : 0 < p.q) (a : Elt) : IsElt p (rneg p a) := isElt_eltOf hq _

theorem isElt_rmul {p : Params} (hq : 0 < p.q) (a b : Elt) : IsElt p (rmul p a b) := isElt_eltOf hq _

theorem isElt_rscale {p : Params} (hq : 0 < p.q) (c : Nat) (a : Elt) : IsElt p (rscale p c a) :=
  isElt_eltOf hq _

section

variable {p : Params} (hp : p.Bounds)

include hp

theorem radd_comm (a b : Elt) : radd p a b = radd p b a := by
  have hq := hp.prime.pos
  refine elt_eq_of_toRing_eq hp (isElt_radd hq _ _) (isElt_radd hq _ _) ?_
  rw [toRing_radd hq, toRing_radd hq, add_comm]

theorem radd_assoc (a b c : Elt) : radd p (radd p a b) c = radd p a (radd p b c) := by
  have hq := hp.prime.pos
  refine elt_eq_of_toRing_eq hp (isElt_radd hq _ _) (isElt_radd hq _ _) ?_
  simp only [toRing_radd hq, add_assoc]

theorem radd_rzero {a : Elt} (ha : IsElt p a) : radd p a (rzero p) = a := by
  have hq := hp.prime.pos
  refine elt_eq_of_toRing_eq hp (isElt_radd hq _ _) ha ?_
  rw [toRing_radd hq, toRing_rzero hq, add_zero]

theorem radd_rneg (a : Elt) : radd p a (rneg p a) = rzero p := by
  have hq := hp.prime.pos
  refine elt_eq_of_toRing_eq hp (isElt_radd hq _ _) (isElt_eltOf hq _) ?_
  rw [toRing_radd hq, toRing_rneg hq, toRing_rzero hq, add_neg_cancel]

theorem rsub_eq_radd_rneg (a b : Elt) : rsub p a b = radd p a (rneg p b) := by
  have hq := hp.prime.pos
  refine elt_eq_of_toRing_eq hp (isElt_rsub hq _ _) (isElt_radd hq _ _) ?_
  rw [toRing_rsub hq, toRing_radd hq, toRing_rneg hq, sub_eq_add_neg]

theorem rmul_comm (a b : Elt) : rmul p a b = rmul p b a := by
  have hq := hp.prime.pos
  refine elt_eq_of_toRing_eq hp (isElt_rmul hq _ _) (isElt_rmul hq _ _) ?_
  rw [toRing_rmul hq, toRing_rmul hq, mul_comm]

theorem rmul_assoc (a b c : Elt) : rmul p (rmul p a b) c = rmul p a (rmul p b c) := by
  have hq := hp.prime.pos
  refine elt_eq_of_toRing_eq hp (isElt_rmul hq _ _) (isElt_rmul hq _ _) ?_
  simp only [toRing_rmul hq, mul_assoc]

theorem rmul_rone {a : Elt} (ha : IsElt p a) : rmul p a (rone p) = a := by
  have hq := hp.prime.pos
  refine elt_eq_of_toRing_eq hp (isElt_rmul hq _ _) ha ?_
  rw [toRing_rmul hq, toRing_rone hq hp.n_pos, mul_one]

theorem rmul_radd (a b c : Elt) : rmul p a (radd p b c) = radd p (rmul p a b) (rmul p a c) := by
  have hq := hp.prime.pos
  refine elt_eq_of_toRing_eq hp (isElt_rmul hq _ _) (isElt_radd hq _ _) ?_
  simp only [toRing_rmul hq, toRing_radd hq, mul_add]

/-- `X^N = -1` for the machine's `X`, which has a coefficient 1 only for `N >= 2`. -/
theorem foldl_rmul_X_eq_rneg_rone (hn : 2 ≤ p.n) :
    (List.replicate p.n (eltFrom p fun j => if j = 1 then 1 else 0)).foldl (rmul p) (rone p)
      = rneg p (rone p) := by
  have hq := hp.prime.pos
  refine elt_eq_of_toRing_eq hp (isElt_foldl_rmul hq _ (isElt_eltOf hq _)) (isElt_rneg hq _) ?_
  rw [toRing_foldl_rmul hq, toRing_monomial hn, toRing_rneg hq, toRing_rone hq hp.n_pos, Nat.cast_one,
    one_mul, one_mul, pow_one, ringX_pow]

theorem rscale_eq_rmul (x : Nat) (a : Elt) :
    rscale p x a = rmul p (eltFrom p fun j => if j = 0 then x else 0) a := by
  have hq := hp.prime.pos
  refine elt_eq_of_toRing_eq hp (isElt_rscale hq _ _) (isElt_rmul hq _ _) ?_
  rw [toRing_rscale hq, toRing_rmul hq, toRing_monomial hp.n_pos, pow_zero, mul_one]

theorem rneg_eq_rscale (a : Elt) : rneg p a = rscale p (p.q - 1) a := by
  have hq := hp.prime.pos
  refine elt_eq_of_toRing_eq hp (isElt_rneg hq _) (isElt_rscale hq _ _) ?_
  rw [toRing_rneg hq, toRing_rscale hq, Nat.cast_pred hq, cast_q, zero_sub, neg_one_mul]

end

end Sys2Proof.Machine

/-! ### The ring obligations -/

section

open Sys2Proof Sys2Proof.Machine

/-- Settles O13: the machine's residue is the statement's, coefficient by coefficient. -/
theorem psubWritesTheDifference : Obligations.PsubWritesTheDifference :=
  fun s rd rs1 rs2 a b hrd hrs1 hrs2 ha hb =>
    ⟨_, twoSource_holds (slots := [rd, rs1, rs2]) (by simp [hrd, hrs1, hrs2]) ha hb,
      wroteSlot_writeSlot fun j hj => by
        rw [coef_rsub hj, coef_eltFrom_of_lt hj, coef_eltFrom_of_lt hj, zmod]⟩

/-- Settles O14: for canonical coefficients the residue of `-a[j]` is the case split of R84. -/
theorem pnegWritesTheNegation : Obligations.PnegWritesTheNegation :=
  fun s rd rs1 a hrd hrs1 ha hcan =>
    ⟨_, oneSource_holds (slots := [rd, rs1]) (by simp [hrd, hrs1]) ha, wroteSlot_writeSlot fun j hj => by
      rw [coef_rneg hj, coef_eltFrom_of_lt hj, zmod_neg (hcan j hj)]⟩

/-- Settles O16: the machine's fold is the negacyclic sum of the slots' coefficients. -/
theorem pmulWritesTheNegacyclicProduct : Obligations.PmulWritesTheNegacyclicProduct :=
  fun s rd rs1 rs2 a b hrd hrs1 hrs2 ha hb =>
    ⟨_, twoSource_holds (slots := [rd, rs1, rs2]) (by simp [hrd, hrs1, hrs2]) ha hb,
      wroteSlot_writeSlot fun _ => coef_rmul_eltFrom⟩

/-- Settles O17: `req` compares the coefficients that the slots hold. -/
theorem peqComparesIntoEq : Obligations.PeqComparesIntoEq :=
  fun s rs1 rs2 a b hrs1 hrs2 ha hb =>
    ⟨_, twoSource_holds (slots := [rs1, rs2]) (by simp [hrs1, hrs2]) ha hb, rfl,
      req_iff.trans (forall₂_congr fun j hj => by
        rw [coef_eltFrom_of_lt hj, coef_eltFrom_of_lt hj])⟩

/-- Settles O55: each law of R89 holds because it holds for the classes in `Z_q[X]/(X^N + 1)`. -/
theorem ringLaws : Obligations.RingLaws := by
  intro p hl a b c ha _ _
  have hp := Params.bounds hl
  exact ⟨⟨radd_comm hp a b, radd_assoc hp a b c, radd_rzero hp ha, radd_rneg hp a,
      rsub_eq_radd_rneg hp a b⟩,
    ⟨rmul_comm hp a b, rmul_assoc hp a b c, rmul_rone hp ha, rmul_radd hp a b c⟩,
    foldl_rmul_X_eq_rneg_rone hp,
    fun x _ => ⟨rscale_eq_rmul hp x a, rneg_eq_rscale hp a⟩⟩

end

/-! ### What a codec command writes (42_codec R120, R121) -/

namespace Sys2Proof.Machine

/-- A command that reads the message register, with its slot fields in range and the register written,
goes on with it. -/
theorem msgSource_holds {s : State} {slots : List Nat} {m : Nat → Bool} {k : List Bool → Result}
    (hslots : ∀ i ∈ slots, i < s.cfg.nslot) (hm : s.MsgHolds m) :
    requireSlots s slots (withMsg s k) = k (blockFrom s.cfg m) := by
  rw [requireSlots_ok hslots, withMsg_holds hm]

/-- The message register written whole, and then DONE, is all that `WroteMsg` allows. -/
theorem wroteMsg_writeMsg {s : State} {b : List Bool} {f : Nat → Bool}
    (h : ∀ j, j < s.cfg.n → blockBit b j = f j) : WroteMsg s ((s.writeMsg b).setDone true) f := by
  have bit (j : Nat) : ((s.writeMsg b).setDone true).msgBit j
      = if j < s.cfg.n then some (blockBit b j) else s.msgBit j := s.msgBit_writeMsg b j
  refine ⟨rfl, fun j hj => ?_, fun j hj => ?_⟩
  · rw [bit, if_pos hj, h j hj]
  · rw [bit, if_neg (Nat.not_lt.mpr hj)]

/-- The model's `decbit` is R114's, whose disputed value is `(3Q - 1)/4`. -/
theorem decbit_eq_decodedBit (p : Params) (c : Nat) : decbit p c = decodedBit p c := by
  have htie : (p.q % 4 = 3 ∧ 4 * c + 1 = 3 * p.q) ↔ (p.q % 4 = 3 ∧ 4 * c = 3 * p.q - 1) := by omega
  rw [decbit, decodedBit, if_congr htie rfl rfl, Bool.decide_and]

end Sys2Proof.Machine

/-! ### Decoding what was encoded (42_codec R118, R119) -/

namespace Sys2Proof.Machine

/-! #### The interval of R114, for a coefficient and for a residue -/

/-- Inside the interval, away from the disputed value, the bit is 1. -/
theorem decbit_eq_true {p : Params} {c : Nat} (hlo : p.q < 4 * c) (hhi : 4 * c ≤ 3 * p.q)
    (htie : 4 * c + 1 ≠ 3 * p.q) : decbit p c = true := by
  rw [decbit, if_neg fun h => htie h.2]
  exact decide_eq_true ⟨hlo, hhi⟩

/-- Outside the interval the bit is 0, and no such coefficient is disputed. -/
theorem decbit_eq_false {p : Params} {c : Nat} (h : 4 * c ≤ p.q ∨ 3 * p.q < 4 * c) :
    decbit p c = false := by
  rw [decbit, if_neg (by omega)]
  exact decide_eq_false (by omega)

/-- An integer inside the interval is its own residue. -/
theorem decbit_zmod_eq_true {p : Params} {x : Int} (hlo : (p.q : Int) < 4 * x)
    (hhi : 4 * x ≤ 3 * p.q) (htie : 4 * x + 1 ≠ 3 * p.q) : decbit p (zmod p.q x) = true := by
  have hx : (zmod p.q x : Int) = x := by
    rw [zmod_int (by omega), Int.emod_eq_of_lt (by omega) (by omega)]
  exact decbit_eq_true (by omega) (by omega) (by omega)

/-- An integer within a quarter of Q around 0 decodes to 0: its residue is itself, or itself plus Q. -/
theorem decbit_zmod_eq_false {p : Params} {x : Int} (hlo : -(p.q : Int) < 4 * x)
    (hhi : 4 * x ≤ p.q) : decbit p (zmod p.q x) = false := by
  have hq : 0 < p.q := by omega
  rcases lt_or_ge x 0 with hneg | hpos
  · have hx : (zmod p.q x : Int) = x + p.q := by
      rw [zmod_int hq, ← Int.add_emod_right, Int.emod_eq_of_lt (by omega) (by omega)]
    exact decbit_eq_false (by omega)
  · have hx : (zmod p.q x : Int) = x := by
      rw [zmod_int hq, Int.emod_eq_of_lt hpos (by omega)]
    exact decbit_eq_false (by omega)

/-! #### Encoded bits, with and without noise -/

/-- R119: with noise below the margin an encoded bit decodes to itself, since `4*HALF = 2Q - 2`. -/
theorem decbit_encodedBit_add {p : Params} (hp : p.Bounds) (b : Bool) {e : Int}
    (he : 4 * |e| < (p.q : Int) - 2) :
    decbit p (zmod p.q ((if b = true then p.half else 0 : Nat) + e)) = b := by
  obtain ⟨hlo, hhi⟩ := abs_le.mp (le_refl |e|)
  cases b with
  | false =>
    simp only [Bool.false_eq_true, if_false]
    exact decbit_zmod_eq_false (by omega) (by omega)
  | true =>
    have hhalf : 4 * (p.half : Int) = 2 * p.q - 2 := by
      have := hp.q_odd
      simp only [Params.half]
      omega
    simp only [if_true]
    exact decbit_zmod_eq_true (by omega) (by omega) (by omega)

/-- An encoded bit decodes to itself: no noise is below the margin, and HALF is below Q. -/
theorem decbit_encodedBit {p : Params} (hp : p.Bounds) (b : Bool) :
    decbit p (if b = true then p.half else 0) = b := by
  have hq := hp.q_ge
  have hcanonical : (if b = true then p.half else 0) < p.q := by
    simp only [Params.half]
    split <;> omega
  have h := decbit_encodedBit_add hp b (e := 0) (by simp only [abs_zero]; omega)
  rwa [add_zero, zmod_natCast, Nat.mod_eq_of_lt hcanonical] at h

/-! #### Whole blocks -/

@[simp] theorem length_decodeBlock (p : Params) (r : Elt) : (decodeBlock p r).length = p.n := by
  simp [decodeBlock]

/-- Two blocks with the same bits and the right length are equal. -/
theorem block_ext {p : Params} {a b : List Bool} (ha : a.length = p.n) (hb : b.length = p.n)
    (h : ∀ i, i < p.n → blockBit a i = blockBit b i) : a = b := by
  refine List.ext_getElem (ha.trans hb.symm) fun i hia hib => ?_
  rw [← List.getD_eq_getElem a false hia, ← List.getD_eq_getElem b false hib]
  exact h i (ha ▸ hia)

/-- R118: decoding an encoded block gives the block back. -/
theorem decodeBlock_encodeBlock {p : Params} (hp : p.Bounds) {m : List Bool} (hm : m.length = p.n) :
    decodeBlock p (encodeBlock p m) = m :=
  block_ext (length_decodeBlock _ _) hm fun i hi => by
    rw [blockBit_decodeBlock hi, coef_encodeBlock hi, decbit_encodedBit hp]

end Sys2Proof.Machine

/-! ### The codec obligations -/

section

open Sys2Proof Sys2Proof.Machine

/-- Settles O20: the encoded block's coefficients are those of the bits the register holds. -/
theorem cencEncodesTheMessage : Obligations.CencEncodesTheMessage :=
  fun s rd m hrd hm =>
    ⟨_, msgSource_holds (slots := [rd]) (by simp [hrd]) hm, wroteSlot_writeSlot fun j hj => by
      rw [coef_encodeBlock hj, blockBit_blockFrom hj, Params.half]⟩

/-- Settles O21: the decoded block's bits are R114's of the coefficients the slot holds. -/
theorem cdecDecodesTheSlot : Obligations.CdecDecodesTheSlot :=
  fun s rs1 a hrs1 ha =>
    ⟨_, oneSource_holds (slots := [rs1]) (by simp [hrs1]) ha, wroteMsg_writeMsg fun j hj => by
      rw [blockBit_decodeBlock hj, coef_eltFrom_of_lt hj, decbit_eq_decodedBit]⟩

/-- Settles O56: each bit's coefficient decodes to it, and HALF, with `4*HALF <= 2Q`, lies below the
disputed value. -/
theorem decodeOfEncodedBlockIsTheBlock : Obligations.DecodeOfEncodedBlockIsTheBlock := by
  intro p hl
  have hp := Params.bounds hl
  refine ⟨fun m => decodeBlock_encodeBlock hp, decbit_encodedBit hp false,
    decbit_encodedBit hp true, ?_⟩
  have hge := hp.q_ge
  omega

/-- Settles O57: the general margin, then at Q = 97 the two quarters of R114 and the four integers next
to them. -/
theorem noiseBelowTheMarginDecodesRight : Obligations.NoiseBelowTheMarginDecodesRight := by
  refine ⟨fun p b e hl => decbit_encodedBit_add (Params.bounds hl) b, fun tie => ?_⟩
  intro p
  have hq : p.q = 97 := rfl
  refine ⟨fun e hlo hhi => ?_, fun e hlo hhi => ?_, ?_⟩
  · exact decbit_zmod_eq_false (p := p) (by omega) (by omega)
  · exact decbit_zmod_eq_true (p := p) (by omega) (by omega) (by omega)
  · revert tie
    decide

end

/-! ### An engine's runs that do not fit (43_pke R127) -/

section

open Sys2Proof Sys2Proof.Machine

/-- Settles O27: the check of the used runs comes first in each engine, so whichever run ends above
NSLOT, it fails there. -/
theorem engineRunOutOfRangeIsShape : Obligations.EngineRunOutOfRangeIsShape := by
  intro s
  refine ⟨?keygen, ?encrypt, ?decrypt⟩
  case keygen =>
    rintro (hA | hT | hS)
    · exact requireRuns_fail (r := s.runA) (by simp) hA
    · exact requireRuns_fail (r := s.runT) (by simp) hT
    · exact requireRuns_fail (r := s.runS) (by simp) hS
  case encrypt =>
    rintro (hA | hT | hU | hV)
    · exact requireRuns_fail (r := s.runA) (by simp) hA
    · exact requireRuns_fail (r := s.runT) (by simp) hT
    · exact requireRuns_fail (r := s.runU) (by simp) hU
    · exact requireRuns_fail (r := s.runV) (by simp) hV
  case decrypt =>
    rintro (hS | hU | hV)
    · exact requireRuns_fail (r := s.runS) (by simp) hS
    · exact requireRuns_fail (r := s.runU) (by simp) hU
    · exact requireRuns_fail (r := s.runV) (by simp) hV

end

/-! ### Host writes and reads of mapped targets (44_host_access R138, R142, R144)

What an access to a mapped target answers, by the kind of target: a read-only register refuses the write,
CTRL takes it at any time, and every other target takes it while idle and drops it while BUSY. -/

namespace Sys2Proof.Machine

/-- A write to a read-only register is refused (R141). -/
theorem hostAccess_writeOf_readOnly {s : State} (hp : s.cfg.Bounds) {t : Target}
    (ht : t.mapped s.cfg = true) (hro : t.readOnly = true) (v : Word) :
    hostAccess (writeOf s.cfg t v) s = s.setAnswer (.busError t.offset) := by
  rw [hostAccess_writeOf hp ht, State.hostWrite, if_pos hro]

/-- A write that BUSY drops: reported and acknowledged while a command is pending, else the target's own
rule (R142). -/
theorem hostAccess_writeOf_busyDrops {s : State} (hp : s.cfg.Bounds) {t : Target}
    (ht : t.mapped s.cfg = true) (hro : t.readOnly = false) (hd : t.busyDrops = true) (v : Word) :
    hostAccess (writeOf s.cfg t v) s =
      if s.pending.isSome = true then { s.reported .busy with answer := some .ack }
      else (s.writeTarget t v).setAnswer .ack := by
  rw [hostAccess_writeOf hp ht, State.hostWrite, hro, hd, Bool.and_true, if_neg Bool.false_ne_true]
  rfl

/-- A CTRL write takes effect, busy or not (R142, R148). -/
theorem hostAccess_writeOf_ctrl {s : State} (hp : s.cfg.Bounds) (v : Word) :
    hostAccess (writeOf s.cfg (.reg .ctrl) v) s = (s.writeCtrl v).setAnswer .ack := by
  have hkept : ¬ (s.busy && (Target.reg .ctrl).busyDrops) = true := by simp [Target.busyDrops]
  rw [hostAccess_writeOf hp rfl, State.hostWrite, if_neg (by decide), if_neg hkept]
  rfl

/-- A register read answers the register, busy or not (R143, R144). -/
theorem hostAccess_readOf_reg {s : State} (hp : s.cfg.Bounds) (r : Reg) :
    hostAccess (readOf s.cfg (.reg r)) s = s.setAnswer (.data (s.readReg r)) := by
  have hplain : ¬ (s.busy && (Target.reg r).isWindow) = true := by simp [Target.isWindow]
  rw [hostAccess_readOf hp rfl, State.hostRead, if_neg hplain]
  rfl

/-- A one-bit value as a word. -/
theorem ofNat_toNat_bool (b : Bool) : BitVec.ofNat 32 b.toNat = if b = true then 1#32 else 0#32 := by
  cases b <;> rfl

theorem readReg_paramDec (s : State) :
    s.readReg .paramDec = if s.cfg.decTie = true then 1#32 else 0#32 :=
  ofNat_toNat_bool s.cfg.decTie

theorem readReg_ctrl (s : State) : s.readReg .ctrl = if s.ie = true then 1#32 else 0#32 :=
  ofNat_toNat_bool s.ie

/-- The low byte of a word is the word cut to eight bits (R147). -/
theorem lowByte_eq_setWidth (v : Word) : lowByte v = v.setWidth 8 := 
  (BitVec.setWidth_eq_extractLsb' (by decide)).symm

/-- CTRL's rule on the fields it writes (R148). -/
theorem writeCtrl_eq (s : State) (v : Word) : s.writeCtrl v =
    if v.getLsbD 31 = true then s.resetUnit
    else if v.getLsbD 1 = true then
      { s with ie := v.getLsbD 0, done := false, err := false, errcode := .noError }
    else { s with ie := v.getLsbD 0 } := rfl

end Sys2Proof.Machine

/-! ### The two views of a slot cell (44_host_access R150 to R154) -/

namespace Sys2Proof.Machine

/-- A PMEM write while idle stores the unsigned word's residue (R151). -/
theorem hostAccess_writeOf_pmem {s : State} (hp : s.cfg.Bounds) {i j : Nat} (hidle : s.pending = none)
    (hij : i < s.cfg.nslot ∧ j < s.cfg.n) (v : Word) :
    hostAccess (writeOf s.cfg (.pmem i j) v) s
      = (s.writeCell i j (v.toNat % s.cfg.q)).setAnswer .ack := by
  rw [hostAccess_writeOf_busyDrops hp (Target.mapped_pmem.mpr hij) rfl rfl, if_neg (by simp [hidle]),
    State.writeTarget, zmod_natCast]

/-- A PMEMS write while idle stores the signed word's residue (R153). -/
theorem hostAccess_writeOf_pmems {s : State} (hp : s.cfg.Bounds) {i j : Nat} (hidle : s.pending = none)
    (hij : i < s.cfg.nslot ∧ j < s.cfg.n) (v : Word) :
    hostAccess (writeOf s.cfg (.pmems i j) v) s
      = (s.writeCell i j (zmod s.cfg.q v.toInt)).setAnswer .ack := by
  rw [hostAccess_writeOf_busyDrops hp (Target.mapped_pmems.mpr hij) rfl rfl, if_neg (by simp [hidle]),
    State.writeTarget]

/-- A PMEM read of a written cell while idle answers its value (R150). -/
theorem hostAccess_readOf_pmem {s : State} (hp : s.cfg.Bounds) {i j c : Nat} (hidle : s.pending = none)
    (hij : i < s.cfg.nslot ∧ j < s.cfg.n) (hc : s.cell i j = some c) :
    hostAccess (readOf s.cfg (.pmem i j)) s = s.setAnswer (.data (BitVec.ofNat 32 c)) := by
  rw [hostAccess_readOf hp (Target.mapped_pmem.mpr hij), State.hostRead,
    if_neg (by simp [State.busy, hidle])]
  simp [State.readTarget, State.readCell, hc]

/-- A PMEMS read of a written cell while idle answers its centred value (R152). -/
theorem hostAccess_readOf_pmems {s : State} (hp : s.cfg.Bounds) {i j c : Nat} (hidle : s.pending = none)
    (hij : i < s.cfg.nslot ∧ j < s.cfg.n) (hc : s.cell i j = some c) :
    hostAccess (readOf s.cfg (.pmems i j)) s = s.setAnswer (.data (BitVec.ofInt 32 (centred s.cfg c))) := by
  rw [hostAccess_readOf hp (Target.mapped_pmems.mpr hij), State.hostRead,
    if_neg (by simp [State.busy, hidle])]
  simp [State.readTarget, State.readCell, hc]

/-- An acknowledged write of a cell stores the value. -/
theorem cell_writeCell_ack (s : State) (i j c : Nat) :
    ((s.writeCell i j c).setAnswer .ack).cell i j = some c := by
  rw [State.setAnswer_cell, State.cell_writeCell, if_pos ⟨rfl, rfl⟩]

/-- A cell written through either view is the only change beside the acknowledgement. -/
theorem writeCell_ack_frame (s : State) (i j c : Nat) :
    (s.writeCell i j c).setAnswer .ack =
        { s with cells := ((s.writeCell i j c).setAnswer .ack).cells, answer := some .ack }
      ∧ ((s.writeCell i j c).setAnswer .ack).cell i j = some c
      ∧ ∀ x y, (x, y) ≠ (i, j) → ((s.writeCell i j c).setAnswer .ack).cell x y = s.cell x y := by
  refine ⟨rfl, cell_writeCell_ack s i j c, fun x y hxy => ?_⟩
  rw [State.setAnswer_cell, State.cell_writeCell, if_neg]
  rintro ⟨rfl, rfl⟩
  exact hxy rfl

/-- A canonical coefficient is the residue of the word PMEM reads for it. -/
theorem ofNat_toNat_mod {p : Params} (hp : p.Bounds) {c : Nat} (hc : c < p.q) :
    (BitVec.ofNat 32 c).toNat % p.q = c := by
  have := hp.q_le
  rw [BitVec.toNat_ofNat, Nat.mod_eq_of_lt (a := c) (by omega), Nat.mod_eq_of_lt hc]

/-- The centred value of a canonical coefficient has the coefficient as its residue. -/
theorem zmod_centred {p : Params} {c : Nat} (hc : c < p.q) : zmod p.q (centred p c) = c := by
  have hmod : centred p c % (p.q : Int) = (c : Int) % p.q := by
    rw [centred]
    split
    · rfl
    · exact Int.sub_emod_right ..
  rw [zmod_eq_of_emod hmod, zmod_natCast, Nat.mod_eq_of_lt hc]

/-- A centred value fits a word, so the signed word PMEMS reads is the value itself. -/
theorem toInt_ofInt_centred {p : Params} (hp : p.Bounds) {c : Nat} (hc : c < p.q) :
    (BitVec.ofInt 32 (centred p c)).toInt = centred p c := by
  have hq := hp.q_le
  have hlo : -65521 ≤ centred p c := by rw [centred]; split <;> omega
  have hhi : centred p c ≤ 65521 := by rw [centred]; split <;> omega
  rw [BitVec.toInt_ofInt, Int.bmod_eq_of_le (by omega) (by omega)]

/-- The word PMEM reads for a canonical coefficient, written back through PMEM, stores it again (R154). -/
theorem cell_writeBack_pmem {s : State} (hp : s.cfg.Bounds) {i j c : Nat} (hidle : s.pending = none)
    (hij : i < s.cfg.nslot ∧ j < s.cfg.n) (hc : c < s.cfg.q) (a : Answer) :
    (hostAccess (writeOf s.cfg (.pmem i j) (BitVec.ofNat 32 c)) (s.setAnswer a)).cell i j = some c := by
  have hwrite := hostAccess_writeOf_pmem (s := s.setAnswer a) hp hidle hij (BitVec.ofNat 32 c)
  rw [State.setAnswer_cfg, ofNat_toNat_mod hp hc] at hwrite
  rw [hwrite, cell_writeCell_ack]

/-- The word PMEMS reads for a canonical coefficient, written back through PMEMS, stores it again
(R154). -/
theorem cell_writeBack_pmems {s : State} (hp : s.cfg.Bounds) {i j c : Nat} (hidle : s.pending = none)
    (hij : i < s.cfg.nslot ∧ j < s.cfg.n) (hc : c < s.cfg.q) (a : Answer) :
    (hostAccess (writeOf s.cfg (.pmems i j) (BitVec.ofInt 32 (centred s.cfg c)))
      (s.setAnswer a)).cell i j = some c := by
  have hwrite := hostAccess_writeOf_pmems (s := s.setAnswer a) hp hidle hij
    (BitVec.ofInt 32 (centred s.cfg c))
  rw [State.setAnswer_cfg, toInt_ofInt_centred hp hc, zmod_centred hc] at hwrite
  rw [hwrite, cell_writeCell_ack]

/-- A cell that holds `c` is read through both views, each in its own form (R154). -/
theorem both_views_read {s : State} (hp : s.cfg.Bounds) {i j c : Nat} (hidle : s.pending = none)
    (hij : i < s.cfg.nslot ∧ j < s.cfg.n) (hc : s.cell i j = some c) :
    (hostAccess (readOf s.cfg (.pmem i j)) s).answer = some (.data (BitVec.ofNat 32 c))
      ∧ (hostAccess (readOf s.cfg (.pmems i j)) s).answer
        = some (.data (BitVec.ofInt 32 (centred s.cfg c))) := by
  rw [hostAccess_readOf_pmem hp hidle hij hc, hostAccess_readOf_pmems hp hidle hij hc]
  exact ⟨rfl, rfl⟩

end Sys2Proof.Machine

/-! ### Refused accesses (44_host_access R139 to R141, 20_memory R53) -/

namespace Sys2Proof.Machine

/-- An access at an offset of the window is decided by the unit. -/
theorem hostAccess_inside {s : State} {a : Access} {off : Nat} (hoff : off < windowBytes)
    (ha : a.addr = s.cfg.unitBase + off) : hostAccess a s = s.windowAccess off a := by
  rw [hostAccess, ha, if_pos (by omega), Nat.add_sub_cancel_left]

/-- An access outside the window does not reach the unit. -/
theorem hostAccess_outside {s : State} {a : Access}
    (h : a.addr < s.cfg.unitBase ∨ s.cfg.unitBase + windowBytes ≤ a.addr) : hostAccess a s = s := by
  rw [hostAccess, if_neg (by omega)]

theorem windowAccess_read_misshapen {s : State} {off size : Nat} (h : size ≠ 4 ∨ off % 4 ≠ 0)
    (addr : Nat) : s.windowAccess off (.read addr size) = s.setAnswer (.busError off) :=
  if_pos h

theorem windowAccess_write_misshapen {s : State} {off size : Nat} {lanes : BitVec 4}
    (h : size ≠ 4 ∨ off % 4 ≠ 0 ∨ lanes ≠ 0xF#4) (addr : Nat) (v : Word) :
    s.windowAccess off (.write addr size lanes v) = s.setAnswer (.busError off) :=
  if_pos h

/-- An unmapped offset refuses reads and writes of any shape. -/
theorem windowAccess_unmapped {s : State} {off : Nat} (h : mapOffset s.cfg off = none) (a : Access) :
    s.windowAccess off a = s.setAnswer (.busError off) := by
  cases a with
  | read addr size => simp only [State.windowAccess, h, ite_self]
  | write addr size lanes v => simp only [State.windowAccess, h, ite_self]

/-- The map names nothing at an aligned offset that no mapped target has. -/
theorem mapOffset_eq_none {p : Params} {off : Nat} (haligned : off % 4 = 0)
    (h : ∀ t : Target, t.mapped p = true → t.offset ≠ off) : mapOffset p off = none :=
  Option.eq_none_iff_forall_ne_some.mpr fun t ht =>
    h t (mapped_of_mapOffset ht) (offset_of_mapOffset haligned ht)

/-- A misshapen access of the window is a bus error, a read and a write alike (R139). -/
theorem hostAccess_misshapen {s : State} {off size : Nat} (hoff : off < windowBytes)
    (h : size ≠ 4 ∨ off % 4 ≠ 0) (lanes : BitVec 4) (v : Word) :
    ∀ a ∈ [Access.read (s.cfg.unitBase + off) size, Access.write (s.cfg.unitBase + off) size lanes v],
      hostAccess a s = s.setAnswer (.busError off) := by
  intro a ha
  obtain rfl | rfl := List.mem_pair.mp ha
  · rw [hostAccess_inside hoff rfl, windowAccess_read_misshapen h]
  · rw [hostAccess_inside hoff rfl, windowAccess_write_misshapen (h.imp_right .inl)]

end Sys2Proof.Machine

/-! ### The host access obligations -/

section

open Sys2Proof Sys2Proof.Machine

/-- Settles O34: a register read is answered from `readReg`, which has the sixteen listed values. -/
theorem registerReadsAnswerTheRegisters : Obligations.RegisterReadsAnswerTheRegisters := by
  intro s hl rv hrv
  have hval : s.readReg rv.1 = rv.2 := by
    revert rv
    simp only [List.cons_append, List.nil_append, List.forall_mem_cons]
    exact ⟨rfl, rfl, rfl, rfl, rfl, rfl, readReg_paramDec s, rfl, rfl, rfl, readReg_ctrl s, rfl, rfl, rfl,
      rfl, rfl, List.forall_mem_nil _⟩
  rw [hostAccess_readOf_reg (Params.bounds hl), hval]
  rfl

/-- Settles O35: either view's write is one cell's, with the residue of its own reading of the word. -/
theorem slotWindowWritesStoreTheResidue : Obligations.SlotWindowWritesStoreTheResidue := by
  intro s i j v hl hidle hi hj
  have hp := Params.bounds hl
  rw [hostAccess_writeOf_pmem hp hidle ⟨hi, hj⟩, hostAccess_writeOf_pmems hp hidle ⟨hi, hj⟩]
  exact ⟨writeCell_ack_frame .., writeCell_ack_frame ..⟩

/-- Settles O37: both views read and write one cell, and each view's word for a canonical coefficient has
that coefficient as its residue. -/
theorem slotViewsAgree : Obligations.SlotViewsAgree := by
  intro s i j hl hidle hi hj
  have hp := Params.bounds hl
  have hij := And.intro hi hj
  refine ⟨fun v => List.forall_mem_cons.mpr ⟨?_, List.forall_mem_singleton.mpr ?_⟩, fun c hc hcan =>
    List.forall_mem_cons.mpr ⟨?_, List.forall_mem_singleton.mpr ?_⟩⟩
  · rw [hostAccess_writeOf_pmem hp hidle hij]
    exact both_views_read (s := (s.writeCell i j _).setAnswer .ack) hp hidle hij (cell_writeCell_ack ..)
  · rw [hostAccess_writeOf_pmems hp hidle hij]
    exact both_views_read (s := (s.writeCell i j _).setAnswer .ack) hp hidle hij (cell_writeCell_ack ..)
  · rw [hostAccess_readOf_pmem hp hidle hij hc]
    exact ⟨_, rfl, cell_writeBack_pmem hp hidle hij hcan _⟩
  · rw [hostAccess_readOf_pmems hp hidle hij hc]
    exact ⟨_, rfl, cell_writeBack_pmems hp hidle hij hcan _⟩

/-- Settles O39: CMD is a target that BUSY drops, and its own rule is the issue. -/
theorem cmdWriteIssuesTheCommand : Obligations.CmdWriteIssuesTheCommand :=
  fun _ v hl => hostAccess_writeOf_busyDrops (Params.bounds hl) rfl rfl rfl v

/-- Settles O40: ARG is a target that BUSY drops, and its own rule stores the word. -/
theorem argWriteStoresTheWord : Obligations.ArgWriteStoresTheWord :=
  fun _ v hl => hostAccess_writeOf_busyDrops (Params.bounds hl) rfl rfl rfl v

/-- Settles O41: each layout register is a target that BUSY drops, and its own rule stores the low
byte. -/
theorem layoutWriteStoresTheLowByte : Obligations.LayoutWriteStoresTheLowByte := by
  intro s v hl
  have write {r : Reg} (hro : (Target.reg r).readOnly = false) (hd : (Target.reg r).busyDrops = true) :=
    hostAccess_writeOf_busyDrops (Params.bounds hl) rfl hro hd v
  simp only [← lowByte_eq_setWidth, List.forall_mem_cons]
  exact ⟨write rfl rfl, write rfl rfl, write rfl rfl, write rfl rfl, write rfl rfl, List.forall_mem_nil _⟩

/-- Settles O42: CTRL's rule with the acknowledgement, branch by branch. -/
theorem ctrlWriteControlsTheUnit : Obligations.CtrlWriteControlsTheUnit := by
  intro s v hl
  rw [hostAccess_writeOf_ctrl (Params.bounds hl), writeCtrl_eq, apply_ite (State.setAnswer · .ack),
    apply_ite (State.setAnswer · .ack)]
  rfl

/-- Settles O43: the named targets are those that BUSY drops; CTRL is not. -/
theorem busyWritesAreDropped : Obligations.BusyWritesAreDropped := by
  intro s t v hl hbusy hmapped
  have hp := Params.bounds hl
  refine ⟨fun ht => ?_, ?_⟩
  · have hkind : t.readOnly = false ∧ t.busyDrops = true := by
      rcases ht with hr | ⟨w, rfl⟩ | ⟨i, j, rfl⟩ | ⟨i, j, rfl⟩
      · obtain ⟨r, hmem, rfl⟩ := List.mem_map.mp hr
        clear hmapped
        revert r
        decide
      · exact ⟨rfl, rfl⟩
      · exact ⟨rfl, rfl⟩
      · exact ⟨rfl, rfl⟩
    rw [hostAccess_writeOf_busyDrops hp hmapped hkind.1 hkind.2, if_pos hbusy]
  · rintro rfl
    exact hostAccess_writeOf_ctrl hp v

/-- Settles O45: the shape of the access is judged first, then the map, then the read-only registers. -/
theorem refusedAccessesAreBusErrors : Obligations.RefusedAccessesAreBusErrors := by
  intro s hl
  have hp := Params.bounds hl
  refine ⟨fun off size hoff hbad lanes v => hostAccess_misshapen hoff hbad lanes v,
    fun off lanes v hoff hlanes => ?lanes, fun off hoff hnone v a ha => ?unmapped,
    fun v r hr => ?readOnly, fun a ha => hostAccess_outside ha⟩
  case lanes =>
    rw [hostAccess_inside hoff rfl, windowAccess_write_misshapen (.inr (.inr hlanes))]
    rfl
  case unmapped =>
    by_cases haligned : off % 4 = 0
    · have hmap := mapOffset_eq_none haligned hnone
      have haddr : a.addr = s.cfg.unitBase + off := by
        obtain rfl | rfl := List.mem_pair.mp ha <;> rfl
      exact (hostAccess_inside hoff haddr).trans (windowAccess_unmapped hmap a)
    · exact hostAccess_misshapen hoff (.inr haligned) 0xF#4 v a ha
  case readOnly =>
    have hro : (Target.reg r).readOnly = true := by
      revert r
      decide
    exact hostAccess_writeOf_readOnly hp rfl hro v

end

/-! ### How a command ends (10_state R50) -/

namespace Sys2Proof.Machine

/-- The command completed: DONE is set, and nothing but what a command may write has changed. -/
def Completed (s t : State) : Prop :=
  t = { s with cells := t.cells, msg := t.msg, eq := t.eq, draws := t.draws, done := true }

theorem completed_afterKeygen (s : State) : Completed s (s.afterKeygen.setDone true) := by
  rw [State.afterKeygen, State.writeRun_eq, State.writeRun_eq (s.writeRun ..), State.writeRun_eq s]
  rfl

theorem completed_afterEncrypt (s : State) (A tv : List Elt) (m : List Bool) :
    Completed s ((s.afterEncrypt A tv m).setDone true) := by
  rw [State.afterEncrypt, State.writeRun_eq]
  rfl

/-- A command ends without effect, or it completes. -/
theorem exec_next {i : Instr} {s t : State} (h : exec i s = .next t) : Failed s t ∨ Completed s t := by
  cases i with
  | nop => exact .inr (complete_next.mp h ▸ rfl)
  | pzero rd => exact (execPzero_next h).imp_right fun ⟨_, ht⟩ => ht ▸ rfl
  | pconst rd => exact (execPconst_next h).imp_right fun ⟨_, ht⟩ => ht ▸ rfl
  | pcopy rd rs1 => exact (execPcopy_next h).imp_right fun ⟨_, _, _, ht⟩ => ht ▸ rfl
  | padd rd rs1 rs2 => exact (execPadd_next h).imp_right fun ⟨_, _, _, _, _, ht⟩ => ht ▸ rfl
  | psub rd rs1 rs2 => exact (execPsub_next h).imp_right fun ⟨_, _, _, _, _, ht⟩ => ht ▸ rfl
  | pneg rd rs1 => exact (execPneg_next h).imp_right fun ⟨_, _, _, ht⟩ => ht ▸ rfl
  | pscale rd rs1 => exact (execPscale_next h).imp_right fun ⟨_, _, _, ht⟩ => ht ▸ rfl
  | pmul rd rs1 rs2 => exact (execPmul_next h).imp_right fun ⟨_, _, _, _, _, ht⟩ => ht ▸ rfl
  | peq rs1 rs2 => exact (execPeq_next h).imp_right fun ⟨_, _, _, _, _, ht⟩ => ht ▸ rfl
  | sunif rd => exact (execSunif_next h).imp_right fun ⟨_, ht⟩ => ht ▸ rfl
  | snoise rd => exact (execSnoise_next h).imp_right fun ⟨_, ht⟩ => ht ▸ rfl
  | cenc rd => exact (execCenc_next h).imp_right fun ⟨_, _, _, ht⟩ => ht ▸ rfl
  | cdec rs1 => exact (execCdec_next h).imp_right fun ⟨_, _, _, ht⟩ => ht ▸ rfl
  | keygen => exact (execKeygen_next h).imp_right fun ⟨_, _, ht⟩ => ht ▸ completed_afterKeygen s
  | encrypt =>
    exact (execEncrypt_next h).imp_right fun ⟨_, _, _, _, _, _, _, _, ht⟩ =>
      ht ▸ completed_afterEncrypt s _ _ _
  | decrypt => exact (execDecrypt_next h).imp_right fun ⟨_, _, _, _, _, ht⟩ => ht ▸ rfl

end Sys2Proof.Machine

/-! ### Which access a host access was (44_host_access R138) -/

namespace Sys2Proof.Machine

/-- A host access is the read or the write of a mapped target, or it does not reach the unit, or it is a
bus error. -/
theorem hostAccess_cases (a : Access) (s : State) :
    (∃ t : Target, t.mapped s.cfg = true ∧ a = readOf s.cfg t)
      ∨ (∃ (t : Target) (v : Word), t.mapped s.cfg = true ∧ a = writeOf s.cfg t v)
      ∨ hostAccess a s = s
      ∨ ∃ off, hostAccess a s = s.setAnswer (.busError off) := by
  by_cases hin : s.cfg.unitBase ≤ a.addr ∧ a.addr < s.cfg.unitBase + windowBytes
  case neg => exact .inr (.inr (.inl (if_neg hin)))
  obtain ⟨off, haddr⟩ := Nat.exists_eq_add_of_le hin.1
  have hacc := hostAccess_inside (by omega) haddr
  cases hm : mapOffset s.cfg off with
  | none => exact .inr (.inr (.inr ⟨off, hacc.trans (windowAccess_unmapped hm a)⟩))
  | some t =>
    have hmapped := mapped_of_mapOffset hm
    cases a with
    | read addr size =>
      obtain rfl : addr = s.cfg.unitBase + off := haddr
      by_cases hshape : size ≠ 4 ∨ off % 4 ≠ 0
      · exact .inr (.inr (.inr ⟨off, hacc.trans (windowAccess_read_misshapen hshape _)⟩))
      · obtain ⟨rfl, haligned⟩ : size = 4 ∧ off % 4 = 0 := by simpa using hshape
        exact .inl ⟨t, hmapped, by rw [readOf, offset_of_mapOffset haligned hm]⟩
    | write addr size lanes v =>
      obtain rfl : addr = s.cfg.unitBase + off := haddr
      by_cases hshape : size ≠ 4 ∨ off % 4 ≠ 0 ∨ lanes ≠ 0xF#4
      · exact .inr (.inr (.inr ⟨off, hacc.trans (windowAccess_write_misshapen hshape _ v)⟩))
      · obtain ⟨rfl, haligned, rfl⟩ : size = 4 ∧ off % 4 = 0 ∧ lanes = 0xF#4 := by simpa using hshape
        exact .inr (.inl ⟨t, v, hmapped, by rw [writeOf, offset_of_mapOffset haligned hm]⟩)

end Sys2Proof.Machine

/-! ### ERR is sticky and ERRCODE keeps the first code (60_exceptions R156) -/

namespace Sys2Proof.Machine

/-- From `s` to `t` an error that was set stays set, with its code. -/
def KeepsError (s t : State) : Prop := s.err = true → t.err = true ∧ t.errcode = s.errcode

theorem KeepsError.of_eq {s t : State} (herr : t.err = s.err) (hcode : t.errcode = s.errcode) :
    KeepsError s t :=
  fun h => ⟨herr.trans h, hcode⟩

theorem reportError_of_err {s : State} (h : s.err = true) (c : ErrCode) : s.reportError c = s := by
  cases s
  subst h
  rfl

theorem keepsError_reportError (s : State) (c : ErrCode) : KeepsError s (s.reportError c) :=
  fun h => by rw [reportError_of_err h]; exact ⟨h, rfl⟩

theorem Failed.keepsError {s t : State} (h : Failed s t) : KeepsError s t := by
  obtain ⟨c, -, rfl⟩ | ⟨w, rfl⟩ := h
  · exact keepsError_reportError s c
  · exact .of_eq rfl rfl

theorem Completed.keepsError {s t : State} (h : Completed s t) : KeepsError s t := by
  rw [Completed] at h
  exact .of_eq (by rw [h]) (by rw [h])

/-- The unit step can only report a further error. -/
theorem unitStep_keepsError {s t : State} (h : unitStep s = .next t) : KeepsError s t := by
  obtain ⟨-, rfl⟩ | ⟨_, _, -, -, hexec⟩ | ⟨_, _, -, -, rfl⟩ := unitStep_next h
  · exact .of_eq rfl rfl
  · have kept : KeepsError s.emptyPending t := (exec_next hexec).elim Failed.keepsError Completed.keepsError
    exact kept
  · exact keepsError_reportError s.emptyPending _

theorem hostRead_keepsError (s : State) (t : Target) : KeepsError s (s.hostRead t) := by
  rw [State.hostRead]
  split
  · exact .of_eq rfl rfl
  · split <;> exact .of_eq rfl rfl

theorem writeReg_keepsError {r : Reg} (h : r ≠ .ctrl) (s : State) (v : Word) :
    KeepsError s (s.writeReg r v) := by
  cases r with
  | ctrl => exact absurd rfl h
  | _ => exact .of_eq rfl rfl

theorem writeTarget_keepsError {t : Target} (h : t ≠ .reg .ctrl) (s : State) (v : Word) :
    KeepsError s (s.writeTarget t v) := by
  cases t with
  | reg r => exact writeReg_keepsError (fun hr => h (congrArg Target.reg hr)) s v
  | msg | pmem | pmems => exact .of_eq rfl rfl

/-- A mapped write but CTRL's is refused, dropped with a report, or writes no flag but DONE. -/
theorem hostWrite_keepsError {t : Target} (h : t ≠ .reg .ctrl) (s : State) (off : Nat) (v : Word) :
    KeepsError s (s.hostWrite off t v) := by
  rw [State.hostWrite]
  split
  · exact .of_eq rfl rfl
  · split
    · exact keepsError_reportError s .busy
    · exact writeTarget_keepsError h s v

/-- A CTRL write with neither CLR nor SRST writes IE only (R148). -/
theorem writeCtrl_keepsError {v : Word} (hclr : v.getLsbD 1 ≠ true) (hsrst : v.getLsbD 31 ≠ true)
    (s : State) : KeepsError s (s.writeCtrl v) := by
  rw [writeCtrl_eq, if_neg hsrst, if_neg hclr]
  exact .of_eq rfl rfl

/-- The only host access that lets go of an error is a CTRL write with CLR or SRST. -/
theorem hostAccess_keepsError_or_clears {s : State} (hp : s.cfg.Bounds) (a : Access) :
    KeepsError s (hostAccess a s)
      ∨ ∃ v, a = writeOf s.cfg (.reg .ctrl) v ∧ (v.getLsbD 1 = true ∨ v.getLsbD 31 = true) := by
  obtain ⟨t, ht, rfl⟩ | ⟨t, v, ht, rfl⟩ | hacc | ⟨off, hacc⟩ := hostAccess_cases a s
  · rw [hostAccess_readOf hp ht]
    exact .inl (hostRead_keepsError s t)
  · by_cases hctrl : t = .reg .ctrl
    · subst hctrl
      by_cases hclears : v.getLsbD 1 = true ∨ v.getLsbD 31 = true
      · exact .inr ⟨v, rfl, hclears⟩
      · obtain ⟨hclr, hsrst⟩ := not_or.mp hclears
        rw [hostAccess_writeOf_ctrl hp]
        exact .inl (writeCtrl_keepsError hclr hsrst s)
    · rw [hostAccess_writeOf hp ht]
      exact .inl (hostWrite_keepsError hctrl s _ v)
  · rw [hacc]
    exact .inl (.of_eq rfl rfl)
  · rw [hacc]
    exact .inl (.of_eq rfl rfl)

/-- A step keeps an error and its code unless its event is a reset or a CTRL write with CLR or SRST. -/
theorem step_keepsError_or_clears {s t : State} (h : step s = .next t) :
    KeepsError s t
      ∨ (∃ rest, s.bus = .reset :: rest)
      ∨ ∃ rest v, s.bus = .host (writeOf s.cfg (.reg .ctrl) v) :: rest
          ∧ (v.getLsbD 1 = true ∨ v.getLsbD 31 = true) := by
  obtain ⟨hl, ⟨-, hunit⟩ | ⟨rest, -, hunit⟩ | ⟨a, rest, hbus, rfl⟩ | ⟨rest, hbus, -⟩⟩ := step_next h
  · exact .inl (unitStep_keepsError hunit)
  · have kept : KeepsError s.dropEvent t := unitStep_keepsError hunit
    exact .inl kept
  · obtain kept | ⟨v, rfl, hclears⟩ :=
      hostAccess_keepsError_or_clears (s := s.dropEvent) (Params.bounds hl) a
    · exact .inl kept
    · exact .inr (.inr ⟨rest, v, hbus, hclears⟩)
  · exact .inr (.inl ⟨rest, hbus⟩)

end Sys2Proof.Machine

/-! ### The interrupt output (60_exceptions R162) -/

namespace Sys2Proof.Machine

/-- With neither DONE nor ERR set, IRQ is low whatever IE is. -/
theorem irq_eq_false {s : State} (hdone : s.done = false) (herr : s.err = false) : s.irq = false := by
  rw [State.irq, hdone, herr, Bool.or_false, Bool.and_false]

end Sys2Proof.Machine

/-! ### The exception obligations -/

section

open Sys2Proof Sys2Proof.Machine

/-- Settles O31: a report is the first or changes nothing, and of all a step can do only a reset and a
CTRL write with CLR or SRST clear ERR. -/
theorem errorReportKeepsTheFirstCode : Obligations.ErrorReportKeepsTheFirstCode := by
  refine ⟨fun s c herr => ?first, fun s c herr => reportError_of_err herr c,
    fun s c d => ⟨reportError_of_err rfl d, rfl⟩, fun s t hstep herr => ?sticky⟩
  case first => rw [State.reportError, herr, if_neg Bool.false_ne_true]
  case sticky => exact (step_keepsError_or_clears hstep).imp_left fun kept => kept herr

/-- Settles O33: CLR and the issue of a command both clear DONE, and CLR clears ERR as well. -/
theorem acknowledgeLowersTheInterrupt : Obligations.AcknowledgeLowersTheInterrupt := by
  intro s hl
  refine ⟨fun v hie hclr hsrst => ?acknowledge, fun v hidle herr => ?issue⟩
  case acknowledge =>
    have hnoReset : ¬ v.getLsbD 31 = true := by rw [hsrst]; exact Bool.false_ne_true
    rw [ctrlWriteControlsTheUnit s v hl, if_neg hnoReset, if_pos hclr]
    exact ⟨irq_eq_false rfl rfl, hie, rfl, rfl⟩
  case issue =>
    have hnotBusy : ¬ s.pending.isSome = true := by rw [hidle]; exact Bool.false_ne_true
    rw [cmdWriteIssuesTheCommand s v hl, if_neg hnotBusy]
    exact irq_eq_false rfl herr

end

/-! ### A step at a reset and at a host access (20_memory R64, 70_reset R174) -/

namespace Sys2Proof.Machine

/-- The step of the reset input's event resets the unit. -/
theorem step_of_reset {s : State} {rest : List BusEvent} (hl : s.cfg.legal = true)
    (hbus : s.bus = .reset :: rest) : step s = .next s.dropEvent.resetUnit := by
  rw [step, legalTurn, if_pos hl, turn, hbus]

/-- The step of a host access performs it. -/
theorem step_of_host {s : State} {a : Access} {rest : List BusEvent} (hl : s.cfg.legal = true)
    (hbus : s.bus = .host a :: rest) : step s = .next (hostAccess a s.dropEvent) := by
  rw [step, legalTurn, if_pos hl, turn, hbus]

/-- With nothing pending and every flag clear STATUS reads 0 (R52). -/
theorem statusWord_eq_zero {s : State} (hpending : s.pending = none) (hdone : s.done = false)
    (herr : s.err = false) (heq : s.eq = false) (hcode : s.errcode = .noError) :
    s.statusWord = 0#32 := by
  rw [State.statusWord, State.busy, hpending, hdone, herr, heq, hcode]
  rfl

end Sys2Proof.Machine

/-! ### The reset obligation -/

section

open Sys2Proof Sys2Proof.Machine

/-- Settles O47: the reset input's step is the reset action and a CTRL write with SRST is that action
acknowledged, so the two differ in the model's own fields only. -/
theorem resetClearsTheUnit : Obligations.ResetClearsTheUnit := by
  intro s hl
  refine ⟨fun rest hbus => ?resetInput, fun rest v hbus hsrst => ?softReset, fun t => ?cleared⟩
  case resetInput => exact ⟨_, step_of_reset hl hbus, rfl⟩
  case softReset =>
    have hwrite := ctrlWriteControlsTheUnit s.dropEvent v hl
    rw [if_pos hsrst] at hwrite
    exact ⟨_, (step_of_host hl hbus).trans (congrArg Host.Outcome.next hwrite), rfl⟩
  case cleared =>
    exact ⟨fun _ _ => rfl, fun _ => rfl, statusWord_eq_zero rfl rfl rfl rfl rfl, irq_eq_false rfl rfl⟩

end

/-! ### The word of a command and the command of a word (30_encoding R70, R77) -/

namespace Sys2Proof

/-- A command's word selects the command's own row, for each row of the table (R75). -/
theorem encode_selects (i : Instr) : encode i &&& i.rowMask = i.rowMatch := by
  cases i with
  | nop => exact Laws.EncodeSelectsRow.nop
  | pzero rd => exact Laws.EncodeSelectsRow.pzero rd
  | pconst rd => exact Laws.EncodeSelectsRow.pconst rd
  | pcopy rd rs1 => exact Laws.EncodeSelectsRow.pcopy rd rs1
  | padd rd rs1 rs2 => exact Laws.EncodeSelectsRow.padd rd rs1 rs2
  | psub rd rs1 rs2 => exact Laws.EncodeSelectsRow.psub rd rs1 rs2
  | pneg rd rs1 => exact Laws.EncodeSelectsRow.pneg rd rs1
  | pscale rd rs1 => exact Laws.EncodeSelectsRow.pscale rd rs1
  | pmul rd rs1 rs2 => exact Laws.EncodeSelectsRow.pmul rd rs1 rs2
  | peq rs1 rs2 => exact Laws.EncodeSelectsRow.peq rs1 rs2
  | sunif rd => exact Laws.EncodeSelectsRow.sunif rd
  | snoise rd => exact Laws.EncodeSelectsRow.snoise rd
  | cenc rd => exact Laws.EncodeSelectsRow.cenc rd
  | cdec rs1 => exact Laws.EncodeSelectsRow.cdec rs1
  | keygen => exact Laws.EncodeSelectsRow.keygen
  | encrypt => exact Laws.EncodeSelectsRow.encrypt
  | decrypt => exact Laws.EncodeSelectsRow.decrypt

/-- A word that selects a row decodes to the row's command with the word's fields (R74, R75). -/
theorem decode_of_selects {w : Word} {i : Instr} (h : w &&& i.rowMask = i.rowMatch) :
    decode w = .ok (i.withFields w) := by
  rw [decode_eq_ite_of_opcode (and_rowMask_eq_iff.mp h).1, if_pos h]

theorem wellFormed_iff {i : Instr} : i.wellFormed = true ↔ ∀ x ∈ i.slots, x < 256 := by
  simp [Instr.wellFormed, fieldFits]

section

variable (opc : Byte) {rd rs1 rs2 : Nat} (hrd : rd < 256) (hrs1 : rs1 < 256) (hrs2 : rs2 < 256)

include hrd hrs1 hrs2

theorem rdOf_packWord : rdOf (packWord opc rd rs1 rs2) = rd :=
  let ⟨_, h, _, _⟩ := fields_pack opc hrd hrs1 hrs2
  h

theorem rs1Of_packWord : rs1Of (packWord opc rd rs1 rs2) = rs1 :=
  let ⟨_, _, h, _⟩ := fields_pack opc hrd hrs1 hrs2
  h

theorem rs2Of_packWord : rs2Of (packWord opc rd rs1 rs2) = rs2 :=
  let ⟨_, _, _, h⟩ := fields_pack opc hrd hrs1 hrs2
  h

end

/-- The word of a well-formed command holds the command's operands in its fields (R71). -/
theorem withFields_encode {i : Instr} (h : i.wellFormed = true) : i.withFields (encode i) = i := by
  have hfit := wellFormed_iff.mp h
  cases i <;>
    simp_all [Instr.slots, Instr.withFields, encode, rdOf_packWord, rs1Of_packWord, rs2Of_packWord]

/-- A word that selects a row is the packing of the fields the row uses, the others being 0 (R77). -/
theorem encode_withFields {w : Word} {i : Instr} (h : w &&& i.rowMask = i.rowMatch) :
    encode (i.withFields w) = w := by
  obtain ⟨hopc, hreserved⟩ := and_rowMask_eq_iff.mp h
  have hpack := pack_fields w
  rw [hopc] at hpack
  cases i <;> simp_all [Instr.reserved, Instr.withFields, encode, Instr.opcode]

/-- The fields of a word fit eight bits. -/
theorem wellFormed_withFields (w : Word) (i : Instr) : (i.withFields w).wellFormed = true := by
  have fits (lo : Nat) : (byteField w lo).toNat < 256 := (byteField w lo).isLt
  refine wellFormed_iff.mpr ?_
  cases i <;> simp [Instr.slots, Instr.withFields, rdOf, rs1Of, rs2Of, fits]

end Sys2Proof

/-! ### The round trips of the encoding -/

section

open Sys2Proof

/-- Settles O1: a command's word selects its row, and the row's command with the word's fields is the
command itself. -/
theorem decodeOfEncodeIsTheCommand : Obligations.DecodeOfEncodeIsTheCommand := fun i hwf => by
  rw [decode_of_selects (encode_selects i), withFields_encode hwf]

/-- Settles O2: an accepted word selects the row of its command, so that the command is the row's with
the word's fields. -/
theorem encodeOfDecodeIsTheWord : Obligations.EncodeOfDecodeIsTheWord := by
  intro w i hdecode
  have hselects := decode_ok_selects hdecode
  have hfields : i.withFields w = i := Except.ok.inj ((decode_of_selects hselects).symm.trans hdecode)
  rw [← hfields]
  exact ⟨encode_withFields hselects, wellFormed_withFields w i⟩

/-- Settles O6: the decoder computes each of the nine words. -/
theorem listedWordsDecode : Obligations.ListedWordsDecode :=
  ⟨rfl, rfl, rfl, rfl, rfl, rfl, rfl, rfl, rfl⟩

end

/-! ### What keeps the invariant (10_state R21, R22, R25, R35, R37)

The invariant reads the configuration, the two storage lists and the error flags, so a change of any other
field keeps it, and each write keeps it for the values the machine writes. -/

namespace Sys2Proof.Machine

/-- A change of none of the fields the invariant reads keeps it. -/
theorem State.Inv.congr {s t : State} (h : s.Inv) (hcfg : t.cfg = s.cfg) (hcells : t.cells = s.cells)
    (hmsg : t.msg = s.msg) (herr : t.err = s.err) (hcode : t.errcode = s.errcode) : t.Inv where
  legal := by rw [hcfg]; exact h.legal
  wf := by rw [Memory.wf, hcells, hmsg]; exact h.wf
  cells := by rw [hcfg, hcells]; exact h.cells
  msg := by rw [hcfg, hmsg]; exact h.msg
  errcode := by rw [herr, hcode]; exact h.errcode

/-- A cleared machine of a legal configuration meets the invariant. -/
theorem State.Inv.of_cleared {s : State} (hl : s.cfg.legal = true) (hcells : s.cells = [])
    (hmsg : s.msg = []) (herr : s.err = false) (hcode : s.errcode = .noError) : s.Inv where
  legal := hl
  wf := by rw [Memory.wf, hcells, hmsg]; rfl
  cells := by rw [hcells]; exact List.forall_mem_nil _
  msg := by rw [hmsg]; exact List.forall_mem_nil _
  errcode := iff_of_true herr hcode

/-- The modulus of a machine that meets the invariant is positive. -/
theorem State.Inv.q_pos {s : State} (h : s.Inv) : 0 < s.cfg.q := (Params.bounds h.legal).prime.pos

/-! #### Flags -/

theorem State.Inv.setDone {s : State} (h : s.Inv) (b : Bool) : (s.setDone b).Inv :=
  h.congr rfl rfl rfl rfl rfl

/-- A report sets ERR, and a code that is not 0 where ERR was 0 (R156). -/
theorem State.Inv.reportError {s : State} (h : s.Inv) {c : ErrCode} (hc : c ≠ .noError) :
    (s.reportError c).Inv where
  legal := h.legal
  wf := h.wf
  cells := h.cells
  msg := h.msg
  errcode := by
    have hcode : (if s.err = true then s.errcode else c) ≠ .noError := by
      split
      · next herr => exact fun h0 => by simp [h.errcode.mpr h0] at herr
      · exact hc
    simpa using hcode

theorem State.Inv.clearFlags {s : State} (h : s.Inv) : s.clearFlags.Inv where
  legal := h.legal
  wf := h.wf
  cells := h.cells
  msg := h.msg
  errcode := iff_of_true rfl rfl

/-- A reset leaves a cleared machine of the same configuration. -/
theorem State.Inv.resetUnit {s : State} (h : s.Inv) : s.resetUnit.Inv :=
  .of_cleared h.legal rfl rfl rfl rfl

/-! #### Storage -/

theorem State.Inv.setCells {s : State} (h : s.Inv) {cells : List ((Nat × Nat) × Nat)}
    (hwf : Sparse.sorted cellLt cells = true)
    (hmem : ∀ e ∈ cells, e ∈ s.cells ∨ (e.1.1 < s.cfg.nslot ∧ e.1.2 < s.cfg.n ∧ e.2 < s.cfg.q)) :
    (s.setCells cells).Inv where
  legal := h.legal
  wf := (Memory.wf_iff _).mpr ⟨hwf, ((Memory.wf_iff s).mp h.wf).2⟩
  cells := fun e he => (hmem e he).elim (h.cells e) id
  msg := h.msg
  errcode := h.errcode

theorem State.Inv.setMsg {s : State} (h : s.Inv) {msg : List (Nat × Bool)}
    (hwf : Sparse.sorted bitLt msg = true) (hmem : ∀ e ∈ msg, e ∈ s.msg ∨ e.1 < s.cfg.n) :
    (s.setMsg msg).Inv where
  legal := h.legal
  wf := (Memory.wf_iff _).mpr ⟨((Memory.wf_iff s).mp h.wf).1, hwf⟩
  cells := h.cells
  msg := fun e he => (hmem e he).elim (h.msg e) id
  errcode := h.errcode

theorem State.Inv.writeCell {s : State} (h : s.Inv) {i j c : Nat} (hi : i < s.cfg.nslot)
    (hj : j < s.cfg.n) (hc : c < s.cfg.q) : (s.writeCell i j c).Inv :=
  h.setCells (Sparse.sorted_set cellLt_order _ _ _ ((Memory.wf_iff s).mp h.wf).1) fun e he => by
    obtain rfl | he := Sparse.mem_set he
    · exact .inr ⟨hi, hj, hc⟩
    · exact .inl he

/-- A slot of the slot file may take every ring element of the machine. -/
theorem State.Inv.writeSlot {s : State} (h : s.Inv) {i : Nat} {a : Elt} (hi : i < s.cfg.nslot)
    (ha : IsElt s.cfg a) : (s.writeSlot i a).Inv :=
  h.setCells (sorted_writeCoeffs _ _ _ _ ((Memory.wf_iff s).mp h.wf).1) fun e he => by
    obtain ⟨j, hj, rfl⟩ | he := mem_writeCoeffs he
    · exact .inr ⟨hi, List.mem_range.mp hj, ha.2 j⟩
    · exact .inl he

/-- A run of the slot file may take ring elements of the machine. -/
theorem State.Inv.writeRun {s : State} (h : s.Inv) {base : Nat} {es : List Elt}
    (hfits : base + es.length ≤ s.cfg.nslot) (hes : ∀ a ∈ es, IsElt s.cfg a) :
    (s.writeRun base es).Inv := by
  induction es generalizing s base with
  | nil => exact h
  | cons a rest ih =>
    obtain ⟨ha, hrest⟩ := List.forall_mem_cons.mp hes
    rw [List.length_cons] at hfits
    exact ih (h.writeSlot (by omega) ha) (by rw [State.writeSlot_cfg]; omega) hrest

/-- Bits of the message register may take any value. -/
theorem State.Inv.writeBits {s : State} (h : s.Inv) (f : Nat → Bool) {js : List Nat}
    (hjs : ∀ j ∈ js, j < s.cfg.n) : (s.setMsg (writeBits s.msg f js)).Inv :=
  h.setMsg (sorted_writeBits _ _ _ ((Memory.wf_iff s).mp h.wf).2) fun e he => by
    obtain ⟨j, hj, rfl⟩ | he := mem_writeBits he
    · exact .inr (hjs j hj)
    · exact .inl he

theorem State.Inv.writeMsg {s : State} (h : s.Inv) (bits : List Bool) : (s.writeMsg bits).Inv :=
  h.writeBits _ fun _ => List.mem_range.mp

theorem mem_msgWordBits {p : Params} {w j : Nat} : j ∈ msgWordBits p w ↔ j / 32 = w ∧ j < p.n := by
  simp only [msgWordBits, List.mem_filter, List.mem_map, List.mem_range, decide_eq_true_eq]
  refine and_congr_left fun _ => ⟨?_, fun h => ⟨j % 32, by omega, by omega⟩⟩
  rintro ⟨i, hi, rfl⟩
  omega

theorem State.Inv.writeMsgWord {s : State} (h : s.Inv) (w : Nat) (v : Word) : (s.writeMsgWord w v).Inv :=
  h.writeBits _ fun _ hj => (mem_msgWordBits.mp hj).2

/-! #### What a machine of the invariant reads -/

/-- A read that succeeds answers a value that is stored. -/
theorem Sparse.mem_of_get {κ ν : Type} [DecidableEq κ] {l : List (κ × ν)} {k : κ} {v : ν}
    (h : Sparse.get l k = some v) : (k, v) ∈ l := by
  induction l with
  | nil => cases h
  | cons e rest ih =>
    obtain ⟨k', v'⟩ := e
    rw [Sparse.get] at h
    split at h
    · next hk => cases h; subst hk; exact List.mem_cons_self
    · exact List.mem_cons_of_mem _ (ih h)

/-- A written cell holds a canonical coefficient (R22). -/
theorem State.Inv.cell_lt {s : State} (h : s.Inv) {i j c : Nat} (hc : s.cell i j = some c) :
    c < s.cfg.q :=
  (h.cells _ (Sparse.mem_of_get hc)).2.2

/-- A slot that is read is a ring element of the machine. -/
theorem State.Inv.isElt_readSlot {s : State} (h : s.Inv) {i : Nat} {a : Elt}
    (ha : s.readSlot i = .ok a) : IsElt s.cfg a := by
  have hreads := readEach_ok_inv ha
  refine ⟨by rw [← hreads.length_eq, List.length_range], fun j => ?_⟩
  rw [coef, List.getD_eq_getElem?_getD]
  by_cases hj : j < a.length
  · have hread := (List.forall₂_iff_get.mp hreads).2 j (by rw [hreads.length_eq]; exact hj) hj
    rw [State.readCell] at hread
    split at hread
    · next c hc =>
      cases hread
      rw [List.getElem?_eq_getElem hj]
      exact h.cell_lt hc
    · cases hread
  · rw [List.getElem?_eq_none (Nat.le_of_not_lt hj)]
    exact h.q_pos

end Sys2Proof.Machine

/-! ### Every step keeps the invariant -/

namespace Sys2Proof.Machine

/-! #### Commands -/

theorem isElt_rzero {p : Params} (hq : 0 < p.q) : IsElt p (rzero p) := isElt_eltOf hq _

theorem isElt_rconst {p : Params} (hq : 0 < p.q) (c : Nat) : IsElt p (rconst p c) := isElt_eltOf hq _

theorem isElt_noiseElt {p : Params} (hq : 0 < p.q) (coin : Nat → Bool) (c : Nat) :
    IsElt p (noiseElt p coin c) :=
  (isNoise_noiseElt p coin c).isElt hq

theorem length_noiseElts (p : Params) (coin : Nat → Bool) (c m : Nat) :
    (noiseElts p coin c m).length = m := by
  simp [noiseElts]

theorem length_uniformElts (p : Params) (u : Nat → Nat) (c m : Nat) :
    (uniformElts p u c m).length = m := by
  simp [uniformElts]

/-- A vector of elements made one by one. -/
theorem forall_isElt_map {p : Params} {m : Nat} {f : Nat → Elt} (h : ∀ i, IsElt p (f i)) :
    ∀ a ∈ (List.range m).map f, IsElt p a :=
  List.forall_mem_map.mpr fun i _ => h i

/-- A command that failed has reported an error with a code that is not 0, or recorded a fault. -/
theorem Failed.inv {s t : State} (h : Failed s t) (hs : s.Inv) : t.Inv := by
  obtain ⟨c, hc, rfl⟩ | ⟨w, rfl⟩ := h
  · exact hs.reportError (by rcases hc with rfl | rfl <;> decide)
  · exact hs.congr rfl rfl rfl rfl rfl

/-- KEYGEN writes ring elements into runs that it has checked (R127, R131). -/
theorem State.Inv.afterKeygen {s : State} (h : s.Inv)
    (hfits : ∀ r ∈ [s.runA, s.runT, s.runS], r.base + r.len ≤ s.cfg.nslot) : s.afterKeygen.Inv := by
  have hq := h.q_pos
  simp only [List.forall_mem_cons] at hfits
  obtain ⟨hA, hT, hS, -⟩ := hfits
  have wroteA := h.writeRun (es := s.keyA) (by rw [State.keyA, length_uniformElts]; exact hA)
    (forall_isElt_map fun _ => isElt_uniformElt hq _ _)
  have wroteT := wroteA.writeRun (base := s.runT.base) (es := keyT s.cfg s.keyA s.keyS s.keyE)
    (by rw [keyT, length_vadd, State.writeRun_cfg]; exact hT)
    (by rw [State.writeRun_cfg]; exact forall_isElt_map fun _ => isElt_radd hq _ _)
  have wroteS := wroteT.writeRun (base := s.runS.base) (es := s.keyS)
    (by rw [State.keyS, length_noiseElts, State.writeRun_cfg, State.writeRun_cfg]; exact hS)
    (by rw [State.writeRun_cfg, State.writeRun_cfg]; exact forall_isElt_map fun _ => isElt_noiseElt hq _ _)
  exact wroteS.congr rfl rfl rfl rfl rfl

/-- ENCRYPT writes ring elements into runs that it has checked (R127, R133). -/
theorem State.Inv.afterEncrypt {s : State} (h : s.Inv)
    (hfits : ∀ r ∈ [s.runA, s.runT, s.runU, s.runV], r.base + r.len ≤ s.cfg.nslot) (A tv : List Elt)
    (m : List Bool) : (s.afterEncrypt A tv m).Inv := by
  have hq := h.q_pos
  simp only [List.forall_mem_cons] at hfits
  obtain ⟨-, -, hU, hV, -⟩ := hfits
  have wroteU := h.writeRun (base := s.runU.base) (es := cipherU s.cfg A s.encR s.encE1)
    (by rw [cipherU, length_vadd]; exact hU) (forall_isElt_map fun _ => isElt_radd hq _ _)
  have wroteV := wroteU.writeSlot (i := s.runV.base) (a := cipherV s.cfg tv s.encR s.encE2 m)
    (by rw [State.writeRun_cfg]; exact hV) (by rw [State.writeRun_cfg]; exact isElt_radd hq _ _)
  exact wroteV.congr rfl rfl rfl rfl rfl

/-- Every command writes canonical coefficients into slots it has checked, and message bits of the
register. -/
theorem exec_keepsInv {i : Instr} {s t : State} (hs : s.Inv) (h : exec i s = .next t) : t.Inv := by
  have hq := hs.q_pos
  have slot {rd : Nat} {a : Elt} (hrd : rd < s.cfg.nslot) (ha : IsElt s.cfg a) :
      ((s.writeSlot rd a).setDone true).Inv := (hs.writeSlot hrd ha).setDone true
  have failed : Failed s t → t.Inv := fun hf => hf.inv hs
  cases i with
  | nop => exact complete_next.mp h ▸ hs.setDone true
  | pzero rd => exact (execPzero_next h).elim failed fun ⟨hrd, ht⟩ => ht ▸ slot hrd (isElt_rzero hq)
  | pconst rd => exact (execPconst_next h).elim failed fun ⟨hrd, ht⟩ => ht ▸ slot hrd (isElt_rconst hq _)
  | pcopy rd rs1 =>
    exact (execPcopy_next h).elim failed fun ⟨⟨hrd, _⟩, _, ha, ht⟩ => ht ▸ slot hrd (hs.isElt_readSlot ha)
  | padd rd rs1 rs2 =>
    exact (execPadd_next h).elim failed fun ⟨⟨hrd, _⟩, _, _, _, _, ht⟩ => ht ▸ slot hrd (isElt_radd hq _ _)
  | psub rd rs1 rs2 =>
    exact (execPsub_next h).elim failed fun ⟨⟨hrd, _⟩, _, _, _, _, ht⟩ => ht ▸ slot hrd (isElt_rsub hq _ _)
  | pneg rd rs1 =>
    exact (execPneg_next h).elim failed fun ⟨⟨hrd, _⟩, _, _, ht⟩ => ht ▸ slot hrd (isElt_rneg hq _)
  | pscale rd rs1 =>
    exact (execPscale_next h).elim failed fun ⟨⟨hrd, _⟩, _, _, ht⟩ => ht ▸ slot hrd (isElt_rscale hq _ _)
  | pmul rd rs1 rs2 =>
    exact (execPmul_next h).elim failed fun ⟨⟨hrd, _⟩, _, _, _, _, ht⟩ => ht ▸ slot hrd (isElt_rmul hq _ _)
  | peq rs1 rs2 =>
    exact (execPeq_next h).elim failed fun ⟨_, _, _, _, _, ht⟩ => ht ▸ hs.congr rfl rfl rfl rfl rfl
  | sunif rd =>
    exact (execSunif_next h).elim failed fun ⟨hrd, ht⟩ =>
      ht ▸ (slot hrd (isElt_uniformElt hq _ _)).congr rfl rfl rfl rfl rfl
  | snoise rd =>
    exact (execSnoise_next h).elim failed fun ⟨hrd, ht⟩ =>
      ht ▸ (slot hrd (isElt_noiseElt hq _ _)).congr rfl rfl rfl rfl rfl
  | cenc rd =>
    exact (execCenc_next h).elim failed fun ⟨hrd, _, _, ht⟩ => ht ▸ slot hrd (isElt_encodeBlock hq _)
  | cdec rs1 =>
    exact (execCdec_next h).elim failed fun ⟨_, _, _, ht⟩ => ht ▸ (hs.writeMsg _).setDone true
  | keygen =>
    exact (execKeygen_next h).elim failed fun ⟨hfits, _, ht⟩ => ht ▸ (hs.afterKeygen hfits).setDone true
  | encrypt =>
    exact (execEncrypt_next h).elim failed fun ⟨hfits, _, _, _, _, _, _, _, ht⟩ =>
      ht ▸ (hs.afterEncrypt hfits _ _ _).setDone true
  | decrypt =>
    exact (execDecrypt_next h).elim failed fun ⟨_, _, _, _, _, ht⟩ => ht ▸ (hs.writeMsg _).setDone true

theorem unitStep_keepsInv {s t : State} (hs : s.Inv) (h : unitStep s = .next t) : t.Inv := by
  have hempty : s.emptyPending.Inv := hs.congr rfl rfl rfl rfl rfl
  obtain ⟨-, rfl⟩ | ⟨_, _, -, -, hexec⟩ | ⟨_, e, -, -, rfl⟩ := unitStep_next h
  · exact hs
  · exact exec_keepsInv hempty hexec
  · exact hempty.reportError (by cases e <;> decide)

/-! #### Host accesses -/

theorem writeCtrl_keepsInv {s : State} (hs : s.Inv) (v : Word) : (s.writeCtrl v).Inv := by
  have hie : (s.setIe (v.getLsbD 0)).Inv := hs.congr rfl rfl rfl rfl rfl
  rw [State.writeCtrl]
  split
  · exact hs.resetUnit
  · split
    · exact hie.clearFlags
    · exact hie

/-- A write of a mapped target stores a residue in a cell of the slot file, or message bits of the
register, or a register. -/
theorem writeTarget_keepsInv {s : State} (hs : s.Inv) {t : Target} (ht : t.mapped s.cfg = true)
    (v : Word) : (s.writeTarget t v).Inv := by
  cases t with
  | reg r =>
    cases r with
    | ctrl => exact writeCtrl_keepsInv hs v
    | _ => exact hs.congr rfl rfl rfl rfl rfl
  | msg w => exact hs.writeMsgWord w v
  | pmem i j =>
    obtain ⟨hi, hj⟩ := Target.mapped_pmem.mp ht
    exact hs.writeCell hi hj (zmod_lt hs.q_pos _)
  | pmems i j =>
    obtain ⟨hi, hj⟩ := Target.mapped_pmems.mp ht
    exact hs.writeCell hi hj (zmod_lt hs.q_pos _)

/-- Whatever a host access leaves meets the invariant. -/
theorem AccessEffect.inv {s t : State} (h : AccessEffect s t) (hs : s.Inv) : t.Inv := by
  cases h with
  | outside => exact hs
  | dropped => exact (hs.reportError (c := .busy) (by decide)).congr rfl rfl rfl rfl rfl
  | written t v ht => exact (writeTarget_keepsInv hs ht v).congr rfl rfl rfl rfl rfl
  | busError | data | busyRead | unwritten => exact hs.congr rfl rfl rfl rfl rfl

end Sys2Proof.Machine

/-! ### The invariant obligations -/

section

open Sys2Proof Sys2Proof.Machine

/-- Settles O50: each event of a step, the unit's turn, a host access or a reset, keeps the invariant. -/
theorem stepKeepsTheInvariant : Obligations.StepKeepsTheInvariant := by
  intro s t hs hstep
  have hdrop : s.dropEvent.Inv := hs.congr rfl rfl rfl rfl rfl
  obtain ⟨-, ⟨-, hunit⟩ | ⟨_, -, hunit⟩ | ⟨a, _, -, rfl⟩ | ⟨_, -, rfl⟩⟩ := step_next hstep
  · exact unitStep_keepsInv hs hunit
  · exact unitStep_keepsInv hdrop hunit
  · exact (hostAccess_effect a s.dropEvent).inv hdrop
  · exact hdrop.resetUnit

/-- Settles O49: the reset state is a cleared machine of the reference configuration. -/
theorem initialStateMeetsTheInvariant : Obligations.InitialStateMeetsTheInvariant :=
  .of_cleared reference_legal rfl rfl rfl rfl

/-- Settles O48: the reset state's fields, and what is read from cleared storage and flags. -/
theorem initialStateIsTheResetState : Obligations.InitialStateIsTheResetState :=
  ⟨rfl, rfl, rfl, rfl, rfl, rfl, fun _ _ => rfl, fun _ => rfl, rfl, rfl, rfl,
    statusWord_eq_zero rfl rfl rfl rfl rfl, rfl, rfl, irq_eq_false rfl rfl⟩

end

/-! ### The values that the ring and sampler commands write (40_ring section 3, 41_sampler section 2) -/

namespace Sys2Proof.Machine

/-- The ones among `m` coins, counted over the indices of the coins. -/
theorem ones_drawCoins (c m : Nat) : ones (drawCoins Config.freeCoin c m) = coinsUp c m := by
  rw [ones, drawCoins, List.count, List.countP_map, coinsUp, ← Nat.count_eq_card_filter_range, Nat.count]
  rfl

theorem coinsUp_le (c m : Nat) : coinsUp c m ≤ m := by
  rw [← ones_drawCoins]
  exact (ones_le _).trans_eq (by simp [drawCoins])

/-- The machine's noise element has the coefficients of R109, drawn from its own coins. -/
theorem coef_noiseElt_freeCoin {p : Params} {c j : Nat} (h : j < p.n) :
    coef (noiseElt p Config.freeCoin c) j = noiseCoef p c j := by
  rw [coef_noiseElt h, cbd, ones_drawCoins, ones_drawCoins, noiseCoef]

theorem coef_uniformElt_freeUniform {p : Params} {c j : Nat} (h : j < p.n) :
    coef (uniformElt p Config.freeUniform c) j = uniformCoef p c j :=
  coef_uniformElt h

/-- The residue of a small integer is the integer, or Q more. -/
theorem zmod_small {q m : Nat} {x : Int} (hlo : -(m : Int) ≤ x) (hhi : x ≤ m) (hm : 2 * m < q) :
    zmod q x ≤ m ∨ (q - m ≤ zmod q x ∧ zmod q x < q) := by
  have hq : 0 < q := by omega
  rcases lt_or_ge x 0 with hneg | hpos
  · have hx : (zmod q x : Int) = x + q := by
      rw [zmod_int hq, ← Int.add_emod_right, Int.emod_eq_of_lt (by omega) (by omega)]
    omega
  · have hx : (zmod q x : Int) = x := by
      rw [zmod_int hq, Int.emod_eq_of_lt hpos (by omega)]
    omega

/-- A centred binomial sample is the residue of an integer in `[-ETA, ETA]` (R108). -/
theorem noiseCoef_range {p : Params} (hp : p.Bounds) (c j : Nat) :
    noiseCoef p c j ≤ p.eta ∨ (p.q - p.eta ≤ noiseCoef p c j ∧ noiseCoef p c j < p.q) := by
  have ha := coinsUp_le (c + 2 * p.eta * j) p.eta
  have hb := coinsUp_le (c + 2 * p.eta * j + p.eta) p.eta
  exact zmod_small (by omega) (by omega) hp.eta_lt

end Sys2Proof.Machine

/-! ### The ring and sampler obligations -/

section

open Sys2Proof Sys2Proof.Machine

/-- Settles O8: NOP has no check and no rule but its completion. -/
theorem nopOnlySetsDone : Obligations.NopOnlySetsDone := fun _ => rfl

/-- Settles O9: the zero element's coefficients are 0. -/
theorem pzeroWritesZero : Obligations.PzeroWritesZero := fun s rd hrd =>
  ⟨_, requireSlots_ok (l := [rd]) (by simp [hrd]), wroteSlot_writeSlot fun j _ => coef_rzero s.cfg j⟩

/-- Settles O10: the constant element's coefficients, ARG being reduced already. -/
theorem pconstWritesTheScalar : Obligations.PconstWritesTheScalar := fun s rd hrd =>
  ⟨_, requireSlots_ok (l := [rd]) (by simp [hrd]), wroteSlot_writeSlot fun j hj => by
    rw [coef_rconst hj, State.scalar, Nat.mod_mod]⟩

/-- Settles O11: the element read has the source's coefficients. -/
theorem pcopyCopiesTheSlot : Obligations.PcopyCopiesTheSlot := fun _ rd rs1 _ hrd hrs1 ha =>
  ⟨_, oneSource_holds (slots := [rd, rs1]) (by simp [hrd, hrs1]) ha,
    wroteSlot_writeSlot fun _ => coef_eltFrom_of_lt⟩

/-- Settles O12: the machine's sum, coefficient by coefficient. -/
theorem paddWritesTheSum : Obligations.PaddWritesTheSum :=
  fun _ rd rs1 rs2 _ _ hrd hrs1 hrs2 ha hb =>
    ⟨_, twoSource_holds (slots := [rd, rs1, rs2]) (by simp [hrd, hrs1, hrs2]) ha hb,
      wroteSlot_writeSlot fun j hj => by
        rw [coef_radd hj, coef_eltFrom_of_lt hj, coef_eltFrom_of_lt hj]⟩

/-- Settles O15: the machine's scalar multiple, coefficient by coefficient. -/
theorem pscaleWritesTheMultiple : Obligations.PscaleWritesTheMultiple :=
  fun _ rd rs1 _ hrd hrs1 ha =>
    ⟨_, oneSource_holds (slots := [rd, rs1]) (by simp [hrd, hrs1]) ha, wroteSlot_writeSlot fun j hj => by
      rw [coef_rscale hj, coef_eltFrom_of_lt hj, State.scalar]⟩

/-- Settles O18: the element drawn has the draws reduced mod Q as its coefficients. -/
theorem sunifWritesFreshUniformDraws : Obligations.SunifWritesFreshUniformDraws := fun s rd hrd hq =>
  ⟨_, requireSlots_ok (l := [rd]) (by simp [hrd]),
    wroteSlot_writeSlot (s := s.takeDraws s.cfg.n) fun _ => coef_uniformElt_freeUniform,
    fun _ => Nat.mod_lt _ hq⟩

/-- Settles O19: the element drawn has the differences of its coins' counts as its coefficients, and each
count is at most ETA. -/
theorem snoiseWritesCentredBinomialNoise : Obligations.SnoiseWritesCentredBinomialNoise :=
  fun s rd hrd hl =>
    ⟨_, requireSlots_ok (l := [rd]) (by simp [hrd]),
      wroteSlot_writeSlot (s := s.takeDraws (noiseCoins s.cfg)) fun _ => coef_noiseElt_freeCoin,
      noiseCoef_range (Params.bounds hl) s.draws⟩

/-- Settles O26: every command with slot fields checks exactly those fields before all else. -/
theorem slotOutOfRangeIsShape : Obligations.SlotOutOfRangeIsShape := by
  rintro i s ⟨x, hx, hge⟩
  cases i with
  | nop | keygen | encrypt | decrypt => cases hx
  | _ => exact requireSlots_fail hx hge

end

/-! ### The unit step on a command and with nothing pending (10_state R50) -/

namespace Sys2Proof.Machine

/-- A pending word that is a command is performed on the state with the latch emptied. -/
theorem unitStep_of_decode_ok {s : State} {w : Word} {i : Instr} (hp : s.pending = some w)
    (hd : decode w = .ok i) : unitStep s = exec i s.emptyPending := by
  rw [unitStep, hp]
  simp only [hd]

/-- With nothing pending the unit step changes nothing. -/
theorem unitStep_of_idle {s : State} (hp : s.pending = none) : unitStep s = .next s := by
  rw [unitStep, hp]

end Sys2Proof.Machine

section

open Sys2Proof Sys2Proof.Machine

/-- Settles O7: the step is the unit's, by what the latch holds. -/
theorem stepRunsTheDecodedCommand : Obligations.StepRunsTheDecodedCommand := fun _ hl ht =>
  ⟨fun _ _ hp hd => (step_of_unitTurn hl ht).trans (unitStep_of_decode_ok hp hd),
    fun hp => (step_of_unitTurn hl ht).trans (unitStep_of_idle hp)⟩

end

/-! ### STATUS bit by bit (10_state R32, R37) -/

namespace Sys2Proof.Machine

theorem ErrCode.number_le (c : ErrCode) : c.number ≤ 5 := by
  cases c <;> decide

/-- STATUS as a number: four flags of one bit, and the code from bit 8 up. -/
theorem statusWord_toNat (s : State) : s.statusWord.toNat = s.busy.toNat + 2 * s.done.toNat
    + 4 * s.err.toNat + 8 * s.eq.toNat + 256 * s.errcode.number := by
  have hbusy := s.busy.toNat_lt
  have hdone := s.done.toNat_lt
  have herr := s.err.toNat_lt
  have heq := s.eq.toNat_lt
  have hcode := s.errcode.number_le
  rw [State.statusWord, BitVec.toNat_ofNat, Nat.mod_eq_of_lt (by omega)]

/-- A bit of a word, read from the word as a number. -/
theorem getLsbD_eq_of_toNat {w : Word} {i : Nat} {b : Bool} (h : w.toNat / 2 ^ i % 2 = b.toNat) :
    w.getLsbD i = b := by
  rw [← BitVec.testBit_toNat, Nat.testBit_eq_decide_div_mod_eq, h]
  cases b <;> rfl

end Sys2Proof.Machine

section

open Sys2Proof Sys2Proof.Machine

/-- Settles O32: each bit of STATUS is a digit of the sum of its flags and its code, which is below
`2^12`. -/
theorem statusWordAndInterrupt : Obligations.StatusWordAndInterrupt := by
  intro s
  have hstatus := statusWord_toNat s
  have hbusy := s.busy.toNat_lt
  have hdone := s.done.toNat_lt
  have herr := s.err.toNat_lt
  have heq := s.eq.toNat_lt
  have hcode := s.errcode.number_le
  refine ⟨?busy, ?done, ?err, ?eq, ?code, ?zeros, ?irq, ?line⟩
  case busy => exact getLsbD_eq_of_toNat (b := s.busy) (by omega)
  case done => exact getLsbD_eq_of_toNat (by omega)
  case err => exact getLsbD_eq_of_toNat (by omega)
  case eq => exact getLsbD_eq_of_toNat (by omega)
  case code =>
    have hfield : (s.statusWord.extractLsb' 8 4).toNat = s.errcode.number := by
      rw [BitVec.extractLsb'_toNat, Nat.shiftRight_eq_div_pow]
      omega
    rw [hfield]
    cases s.errcode <;> rfl
  case zeros =>
    rintro i (⟨hlo, hhi⟩ | hge)
    · refine getLsbD_eq_of_toNat (b := false) ?_
      rw [Bool.toNat_false]
      interval_cases i <;> omega
    · rw [← BitVec.testBit_toNat]
      exact Nat.testBit_lt_two_pow (lt_of_lt_of_le (by omega) (Nat.pow_le_pow_right two_pos hge))
  case irq => simp [State.irq]
  case line => simp [State.irqOnLine]

end

/-! ### What a command never changes or takes back (10_state sections 3 and 7, R36, R105) -/

namespace Sys2Proof.Machine

/-- A command that did not fail has taken no draw back, and none but PEQ has written EQ. -/
def DrawsAndEq (i : Instr) (s t : State) : Prop :=
  s.draws ≤ t.draws ∧ (t.eq = s.eq ∨ ∃ rs1 rs2, i = .peq rs1 rs2)

/-- A command that takes no draw and writes no flag. -/
theorem DrawsAndEq.of_eq {i : Instr} {s t : State} (hdraws : t.draws = s.draws) (heq : t.eq = s.eq) :
    DrawsAndEq i s t :=
  ⟨hdraws.ge, .inl heq⟩

/-- KEYGEN changes cells, the draws and DONE. -/
theorem afterKeygen_frame (s : State) : s.afterKeygen.setDone true =
    { s with cells := (s.afterKeygen.setDone true).cells, done := true,
             draws := s.draws + (s.cfg.k * s.cfg.k * s.cfg.n + 2 * s.cfg.k * noiseCoins s.cfg) } := by
  rw [State.afterKeygen, State.writeRun_eq, State.writeRun_eq (s.writeRun ..), State.writeRun_eq s]
  rfl

/-- ENCRYPT changes cells, the draws and DONE. -/
theorem afterEncrypt_frame (s : State) (A tv : List Elt) (b : List Bool) :
    (s.afterEncrypt A tv b).setDone true =
      { s with cells := ((s.afterEncrypt A tv b).setDone true).cells, done := true,
               draws := s.draws + (2 * s.cfg.k + 1) * noiseCoins s.cfg } := by
  rw [State.afterEncrypt, State.writeRun_eq]
  rfl

theorem drawsAndEq_afterKeygen (s : State) : DrawsAndEq .keygen s (s.afterKeygen.setDone true) := by
  rw [afterKeygen_frame]
  exact ⟨Nat.le_add_right .., .inl rfl⟩

theorem drawsAndEq_afterEncrypt (s : State) (A tv : List Elt) (m : List Bool) :
    DrawsAndEq .encrypt s ((s.afterEncrypt A tv m).setDone true) := by
  rw [afterEncrypt_frame]
  exact ⟨Nat.le_add_right .., .inl rfl⟩

theorem Failed.drawsAndEq {i : Instr} {s t : State} (h : Failed s t) : DrawsAndEq i s t := by
  obtain ⟨c, -, rfl⟩ | ⟨w, rfl⟩ := h <;> exact .of_eq rfl rfl

theorem exec_drawsAndEq {i : Instr} {s t : State} (h : exec i s = .next t) : DrawsAndEq i s t := by
  have failed : Failed s t → DrawsAndEq i s t := Failed.drawsAndEq
  cases i with
  | nop => exact complete_next.mp h ▸ .of_eq rfl rfl
  | pzero rd => exact (execPzero_next h).elim failed fun ⟨_, ht⟩ => ht ▸ .of_eq rfl rfl
  | pconst rd => exact (execPconst_next h).elim failed fun ⟨_, ht⟩ => ht ▸ .of_eq rfl rfl
  | pcopy rd rs1 => exact (execPcopy_next h).elim failed fun ⟨_, _, _, ht⟩ => ht ▸ .of_eq rfl rfl
  | padd rd rs1 rs2 => exact (execPadd_next h).elim failed fun ⟨_, _, _, _, _, ht⟩ => ht ▸ .of_eq rfl rfl
  | psub rd rs1 rs2 => exact (execPsub_next h).elim failed fun ⟨_, _, _, _, _, ht⟩ => ht ▸ .of_eq rfl rfl
  | pneg rd rs1 => exact (execPneg_next h).elim failed fun ⟨_, _, _, ht⟩ => ht ▸ .of_eq rfl rfl
  | pscale rd rs1 => exact (execPscale_next h).elim failed fun ⟨_, _, _, ht⟩ => ht ▸ .of_eq rfl rfl
  | pmul rd rs1 rs2 => exact (execPmul_next h).elim failed fun ⟨_, _, _, _, _, ht⟩ => ht ▸ .of_eq rfl rfl
  | peq rs1 rs2 =>
    exact (execPeq_next h).elim failed fun ⟨_, _, _, _, _, ht⟩ => ht ▸ ⟨le_rfl, .inr ⟨rs1, rs2, rfl⟩⟩
  | sunif rd =>
    exact (execSunif_next h).elim failed fun ⟨_, ht⟩ => ht ▸ ⟨Nat.le_add_right .., .inl rfl⟩
  | snoise rd =>
    exact (execSnoise_next h).elim failed fun ⟨_, ht⟩ => ht ▸ ⟨Nat.le_add_right .., .inl rfl⟩
  | cenc rd => exact (execCenc_next h).elim failed fun ⟨_, _, _, ht⟩ => ht ▸ .of_eq rfl rfl
  | cdec rs1 => exact (execCdec_next h).elim failed fun ⟨_, _, _, ht⟩ => ht ▸ .of_eq rfl rfl
  | keygen => exact (execKeygen_next h).elim failed fun ⟨_, _, ht⟩ => ht ▸ drawsAndEq_afterKeygen s
  | encrypt =>
    exact (execEncrypt_next h).elim failed fun ⟨_, _, _, _, _, _, _, _, ht⟩ =>
      ht ▸ drawsAndEq_afterEncrypt s _ _ _
  | decrypt => exact (execDecrypt_next h).elim failed fun ⟨_, _, _, _, _, ht⟩ => ht ▸ .of_eq rfl rfl

/-- From `s` to `t` a command left the configuration, the registers the host writes, the latch, the bus
and its answer alone. -/
def KeepsHostSide (s t : State) : Prop :=
  t.cfg = s.cfg ∧ t.arg = s.arg ∧ t.cmd = s.cmd ∧ t.ie = s.ie ∧ t.layout = s.layout
    ∧ t.pending = s.pending ∧ t.bus = s.bus ∧ t.answer = s.answer ∧ t.freeReads = s.freeReads
    ∧ s.faults <+: t.faults

theorem Failed.keepsHostSide {s t : State} (h : Failed s t) : KeepsHostSide s t := by
  obtain ⟨c, -, rfl⟩ | ⟨w, rfl⟩ := h
  · exact ⟨rfl, rfl, rfl, rfl, rfl, rfl, rfl, rfl, rfl, ⟨[], List.append_nil _⟩⟩
  · exact ⟨rfl, rfl, rfl, rfl, rfl, rfl, rfl, rfl, rfl, ⟨_, rfl⟩⟩

theorem Completed.keepsHostSide {s t : State} (h : Completed s t) : KeepsHostSide s t := by
  rw [Completed] at h
  rw [h]
  exact ⟨rfl, rfl, rfl, rfl, rfl, rfl, rfl, rfl, rfl, ⟨[], List.append_nil _⟩⟩

theorem exec_keepsHostSide {i : Instr} {s t : State} (h : exec i s = .next t) : KeepsHostSide s t :=
  (exec_next h).elim Failed.keepsHostSide Completed.keepsHostSide

end Sys2Proof.Machine

section

open Sys2Proof Sys2Proof.Machine

/-- Settles O30: a command fails without effect or completes, and neither writes the host's side. -/
theorem commandsLeaveTheHostRegisters : Obligations.CommandsLeaveTheHostRegisters := by
  intro i s t hexec
  obtain ⟨hcfg, harg, hcmd, hie, hlayout, hpending, hbus, hanswer, hfree, hfaults⟩ := exec_keepsHostSide hexec
  exact ⟨hcfg, harg, hcmd, hie, hlayout, hpending, hbus, hanswer, hfree, hfaults, (exec_drawsAndEq hexec).1⟩

end

/-! ### What a step never takes back (R28, R49, R105) -/

namespace Sys2Proof.Machine

/-- From `s` to `t` the configuration is kept, the fault record extended or kept, and no draw given back. -/
def TakesNothingBack (s t : State) : Prop :=
  t.cfg = s.cfg ∧ s.faults <+: t.faults ∧ s.draws ≤ t.draws

theorem TakesNothingBack.of_eq {s t : State} (hcfg : t.cfg = s.cfg) (hfaults : t.faults = s.faults)
    (hdraws : t.draws = s.draws) : TakesNothingBack s t :=
  ⟨hcfg, ⟨[], by rw [List.append_nil, hfaults]⟩, hdraws.ge⟩

theorem exec_takesNothingBack {i : Instr} {s t : State} (h : exec i s = .next t) :
    TakesNothingBack s t := by
  obtain ⟨hcfg, -, -, -, -, -, -, -, -, hfaults⟩ := exec_keepsHostSide h
  exact ⟨hcfg, hfaults, (exec_drawsAndEq h).1⟩

theorem unitStep_takesNothingBack {s t : State} (h : unitStep s = .next t) : TakesNothingBack s t := by
  obtain ⟨-, rfl⟩ | ⟨_, _, -, -, hexec⟩ | ⟨_, _, -, -, rfl⟩ := unitStep_next h
  · exact .of_eq rfl rfl rfl
  · have taken : TakesNothingBack s.emptyPending t := exec_takesNothingBack hexec
    exact taken
  · exact .of_eq rfl rfl rfl

theorem writeCtrl_takesNothingBack (s : State) (v : Word) : TakesNothingBack s (s.writeCtrl v) := by
  rw [State.writeCtrl]
  split
  · exact .of_eq rfl rfl rfl
  · split <;> exact .of_eq rfl rfl rfl

theorem writeTarget_takesNothingBack (s : State) (t : Target) (v : Word) :
    TakesNothingBack s (s.writeTarget t v) := by
  cases t with
  | reg r =>
    cases r with
    | ctrl => exact writeCtrl_takesNothingBack s v
    | _ => exact .of_eq rfl rfl rfl
  | msg | pmem | pmems => exact .of_eq rfl rfl rfl

theorem AccessEffect.takesNothingBack {s t : State} (h : AccessEffect s t) : TakesNothingBack s t := by
  cases h with
  | written t v => exact writeTarget_takesNothingBack s t v
  | unwritten => exact ⟨rfl, ⟨_, rfl⟩, le_rfl⟩
  | outside | busError | data | busyRead | dropped => exact .of_eq rfl rfl rfl

end Sys2Proof.Machine

section

open Sys2Proof Sys2Proof.Machine

/-- Settles O51: neither the unit step nor a host access takes anything back, and a reset keeps all
three. -/
theorem stepsNeverTakeBack : Obligations.StepsNeverTakeBack := by
  intro s t hstep
  obtain ⟨-, ⟨-, hunit⟩ | ⟨_, -, hunit⟩ | ⟨a, _, -, rfl⟩ | ⟨_, -, rfl⟩⟩ := step_next hstep
  · exact unitStep_takesNothingBack hunit
  · exact unitStep_takesNothingBack (s := s.dropEvent) hunit
  · exact (hostAccess_effect a s.dropEvent).takesNothingBack
  · exact TakesNothingBack.of_eq rfl rfl rfl

end

/-! ### What writes EQ (10_state R36) -/

namespace Sys2Proof.Machine

/-- The unit step writes EQ only when it performs a PEQ. -/
theorem unitStep_eq_or_peq {s t : State} (h : unitStep s = .next t) :
    t.eq = s.eq ∨ ∃ w rs1 rs2, s.pending = some w ∧ decode w = .ok (.peq rs1 rs2) := by
  obtain ⟨-, rfl⟩ | ⟨w, i, hpending, hdecode, hexec⟩ | ⟨_, _, -, -, rfl⟩ := unitStep_next h
  · exact .inl rfl
  · obtain ⟨-, heq | ⟨rs1, rs2, rfl⟩⟩ := exec_drawsAndEq hexec
    · exact .inl heq
    · exact .inr ⟨w, rs1, rs2, hpending, hdecode⟩
  · exact .inl rfl

theorem hostRead_eq_flag (s : State) (t : Target) : (s.hostRead t).eq = s.eq := by
  rw [State.hostRead]
  split
  · rfl
  · split <;> rfl

/-- A CTRL write without SRST writes no EQ (R148). -/
theorem writeCtrl_eq_flag {v : Word} (hsrst : v.getLsbD 31 ≠ true) (s : State) :
    (s.writeCtrl v).eq = s.eq := by
  rw [writeCtrl_eq, if_neg hsrst]
  split <;> rfl

/-- A write of a mapped target but CTRL writes no EQ. -/
theorem writeTarget_eq_flag {t : Target} (h : t ≠ .reg .ctrl) (s : State) (v : Word) :
    (s.writeTarget t v).eq = s.eq := by
  cases t with
  | reg r =>
    cases r with
    | ctrl => exact absurd rfl h
    | _ => rfl
  | msg | pmem | pmems => rfl

theorem hostWrite_eq_flag {t : Target} (h : t ≠ .reg .ctrl) (s : State) (off : Nat) (v : Word) :
    (s.hostWrite off t v).eq = s.eq := by
  rw [State.hostWrite]
  split
  · rfl
  · split
    · rfl
    · exact writeTarget_eq_flag h s v

/-- A host access writes EQ only as a CTRL write with SRST. -/
theorem hostAccess_eq_or_srst {s : State} (hp : s.cfg.Bounds) (a : Access) :
    (hostAccess a s).eq = s.eq ∨ ∃ v, a = writeOf s.cfg (.reg .ctrl) v ∧ v.getLsbD 31 = true := by
  obtain ⟨t, ht, rfl⟩ | ⟨t, v, ht, rfl⟩ | hacc | ⟨off, hacc⟩ := hostAccess_cases a s
  · rw [hostAccess_readOf hp ht]
    exact .inl (hostRead_eq_flag s t)
  · by_cases hctrl : t = .reg .ctrl
    · subst hctrl
      by_cases hsrst : v.getLsbD 31 = true
      · exact .inr ⟨v, rfl, hsrst⟩
      · rw [hostAccess_writeOf_ctrl hp]
        exact .inl (writeCtrl_eq_flag hsrst s)
    · rw [hostAccess_writeOf hp ht]
      exact .inl (hostWrite_eq_flag hctrl s _ v)
  · rw [hacc]
    exact .inl rfl
  · rw [hacc]
    exact .inl rfl

end Sys2Proof.Machine

section

open Sys2Proof Sys2Proof.Machine

/-- Settles O52: of the events of a step only a performed PEQ, a reset and a CTRL write with SRST write
EQ. -/
theorem eqChangesOnlyByPeqOrReset : Obligations.EqChangesOnlyByPeqOrReset := by
  intro s t hstep hne
  obtain ⟨hl, ⟨hbus, hunit⟩ | ⟨rest, hbus, hunit⟩ | ⟨a, rest, hbus, rfl⟩ | ⟨rest, hbus, -⟩⟩ :=
    step_next hstep
  · obtain ⟨w, rs1, rs2, hpeq⟩ := (unitStep_eq_or_peq hunit).resolve_left hne
    exact .inl ⟨w, rs1, rs2, .inl hbus, hpeq⟩
  · obtain ⟨w, rs1, rs2, hpeq⟩ := (unitStep_eq_or_peq hunit).resolve_left hne
    exact .inl ⟨w, rs1, rs2, .inr ⟨rest, hbus⟩, hpeq⟩
  · obtain ⟨v, rfl, hsrst⟩ :=
      (hostAccess_eq_or_srst (s := s.dropEvent) (Params.bounds hl) a).resolve_left hne
    exact .inr (.inr ⟨rest, v, hbus, hsrst⟩)
  · exact .inr (.inl ⟨rest, hbus⟩)

end

/-! ### Legal configurations, and when a step stops (00_scope R6 to R10, 70_reset R176) -/

namespace Sys2Proof

/-- A legal configuration is one that meets every bound. -/
theorem Params.legal_iff_bounds {p : Params} : p.legal = true ↔ p.Bounds := by
  refine ⟨Params.bounds, fun hp => ?_⟩
  have hq := hp.q_le
  simp only [Params.legal, Bool.and_eq_true, decide_eq_true_eq]
  exact ⟨hq, (isPrime_iff (by omega)).mpr hp.prime, hp.n_pos, hp.n_le, hp.k_pos, hp.k_le, hp.eta_pos,
    hp.eta_le, hp.eta_lt, hp.nslot_pos, hp.nslot_le, hp.base⟩

end Sys2Proof

section

open Sys2Proof Sys2Proof.Machine

/-- Settles O54: the bounds one by one, and then the events that a step can find. -/
theorem stepStopsOnlyInResetOrIllegalConfig : Obligations.StepStopsOnlyInResetOrIllegalConfig := by
  refine ⟨fun p => Params.legal_iff_bounds.trans ⟨fun hp => ?_, ?_⟩, fun s =>
    ⟨fun hl => ?legal, fun hl => ?illegal⟩⟩
  · exact ⟨hp.prime, hp.q_le, ⟨hp.n_pos, hp.n_le⟩, ⟨hp.k_pos, hp.k_le⟩,
      ⟨hp.eta_pos, hp.eta_le, hp.eta_lt⟩, ⟨hp.nslot_pos, hp.nslot_le⟩, hp.base⟩
  · rintro ⟨hprime, hq, ⟨hn, hn'⟩, ⟨hk, hk'⟩, ⟨he, he', he''⟩, ⟨hs, hs'⟩, hbase⟩
    exact ⟨hprime, hq, hn, hn', hk, hk', he, he', he'', hs, hs', hbase⟩
  case legal =>
    cases hbus : s.bus with
    | nil => exact .inl (step_of_unitTurn hl (.inl hbus) ▸ unitStep_answers _)
    | cons e rest =>
      cases e with
      | unit => exact .inl (step_of_unitTurn hl (.inr ⟨rest, hbus⟩) ▸ unitStep_answers _)
      | host a => exact .inl ⟨_, step_of_host hl hbus⟩
      | reset => exact .inl ⟨_, step_of_reset hl hbus⟩
      | hostInReset a =>
        refine .inr ⟨a, rest, rfl, ?_⟩
        rw [step, legalTurn, if_pos hl, turn, hbus]
  case illegal => rw [step, legalTurn, if_neg (by simp [hl])]

end

/-! ### Window reads (44_host_access R143, 60_exceptions R159 (b)) -/

namespace Sys2Proof.Machine

/-- While idle a mapped read of what can be read answers it and changes nothing else. -/
theorem hostAccess_readOf_ok {s : State} (hp : s.cfg.Bounds) {t : Target} (ht : t.mapped s.cfg = true)
    (hidle : s.pending = none) {v : Word} (hread : s.readTarget t = .ok v) :
    hostAccess (readOf s.cfg t) s = s.setAnswer (.data v) := by
  rw [hostAccess_readOf hp ht, State.hostRead, if_neg (by simp [State.busy, hidle])]
  simp only [hread]

/-- While idle a mapped read of an unwritten place records it and answers a free value. -/
theorem hostAccess_readOf_error {s : State} (hp : s.cfg.Bounds) {t : Target} (ht : t.mapped s.cfg = true)
    (hidle : s.pending = none) {u : Uninit} (hread : s.readTarget t = .error u) :
    hostAccess (readOf s.cfg t) s = (s.recordFault u).answerFree := by
  rw [hostAccess_readOf hp ht, State.hostRead, if_neg (by simp [State.busy, hidle])]
  simp only [hread]

/-- While BUSY a window read answers a free value, whatever the window holds. -/
theorem hostAccess_readOf_busy {s : State} (hp : s.cfg.Bounds) {t : Target} (ht : t.mapped s.cfg = true)
    (hbusy : s.pending.isSome = true) (hwindow : t.isWindow = true) :
    hostAccess (readOf s.cfg t) s = s.answerFree := by
  rw [hostAccess_readOf hp ht, State.hostRead, if_pos (by rw [State.busy, hbusy, hwindow]; rfl)]

end Sys2Proof.Machine

section

open Sys2Proof Sys2Proof.Machine

/-- Settles O36: both views read the one cell, which the invariant bounds. -/
theorem slotWindowReadsAnswerTheCell : Obligations.SlotWindowReadsAnswerTheCell := by
  intro s i j hs hidle hi hj
  have hp := Params.bounds hs.legal
  have hij := And.intro hi hj
  refine ⟨fun c hc => ⟨hs.cell_lt hc, hostAccess_readOf_pmem hp hidle hij hc,
    hostAccess_readOf_pmems hp hidle hij hc⟩, fun hnone => ?_⟩
  have hread : s.readCell i j = .error (.cell i j) := by rw [State.readCell, hnone]
  simp only [List.forall_mem_cons]
  exact ⟨hostAccess_readOf_error hp (Target.mapped_pmem.mpr hij) hidle (by rw [State.readTarget, hread]),
    hostAccess_readOf_error hp (Target.mapped_pmems.mpr hij) hidle (by rw [State.readTarget, hread]),
    List.forall_mem_nil _⟩

/-- Settles O44: the three windows are what a read while BUSY is free for; a register is read as ever. -/
theorem busyWindowReadsAreFree : Obligations.BusyWindowReadsAreFree := by
  intro s t hl hbusy ht
  have hp := Params.bounds hl
  refine ⟨fun hwindow => hostAccess_readOf_busy hp ht hbusy ?_, fun r hr => ?_⟩
  · obtain ⟨_, rfl⟩ | ⟨_, _, rfl⟩ | ⟨_, _, rfl⟩ := hwindow <;> rfl
  · rw [hr]
    exact hostAccess_readOf_reg hp r

end

/-! ### The message window (44_host_access R149, 20_memory R59) -/

namespace Sys2Proof.Machine

/-- The message bits of MSG word `w`: 32 of them, or as many as the register has left. -/
theorem msgWordBits_eq (p : Params) (w : Nat) :
    msgWordBits p w = (List.range (min 32 (p.n - 32 * w))).map fun i => 32 * w + i := by
  have hsplit : List.range 32 = List.range (min 32 (p.n - 32 * w))
      ++ (List.range (32 - min 32 (p.n - 32 * w))).map (min 32 (p.n - 32 * w) + ·) := by
    rw [← List.range_add, Nat.add_sub_cancel' (Nat.min_le_left ..)]
  have hmapped : ∀ j ∈ (List.range (min 32 (p.n - 32 * w))).map fun i => 32 * w + i,
      decide (j < p.n) = true := by
    simp only [List.forall_mem_map, List.mem_range, decide_eq_true_eq]
    omega
  have hbeyond : ∀ j ∈ ((List.range (32 - min 32 (p.n - 32 * w))).map
      (min 32 (p.n - 32 * w) + ·)).map fun i => 32 * w + i, ¬ decide (j < p.n) = true := by
    simp only [List.forall_mem_map, List.mem_range, decide_eq_true_eq]
    omega
  rw [msgWordBits, hsplit, List.map_append, List.filter_append, List.filter_eq_self.mpr hmapped,
    List.filter_eq_nil_iff.mpr hbeyond, List.append_nil]

theorem getLsbD_wordOfBits (bits : List Bool) {i : Nat} (hi : i < 32) :
    (wordOfBits bits).getLsbD i = bits.getD i false := by
  rw [wordOfBits, BitVec.getLsbD_setWidth, BitVec.getLsbD_ofBoolListLE, decide_eq_true hi, Bool.true_and]

/-- One bit after a MSG word is written: a mapped bit takes the word's bit (R149). -/
theorem msgBit_writeMsgWord (s : State) (w : Nat) (v : Word) (j : Nat) :
    (s.writeMsgWord w v).msgBit j
      = if j / 32 = w ∧ j < s.cfg.n then some (v.getLsbD (j % 32)) else s.msgBit j := by
  rw [State.msgBit, State.writeMsgWord, State.setMsg_msg, get_writeBits]
  simp only [mem_msgWordBits]
  split
  · next hj => rw [show j - 32 * w = j % 32 by omega]
  · rfl

/-- A MSG word whose mapped bits are written is read whole. -/
theorem readMsgWord_ok {s : State} {w : Nat} {m : Nat → Bool}
    (h : ∀ i, i < 32 → 32 * w + i < s.cfg.n → s.msgBit (32 * w + i) = some (m i)) :
    s.readMsgWord w = .ok (wordOfBits ((List.range (min 32 (s.cfg.n - 32 * w))).map m)) := by
  have hread : ∀ j ∈ msgWordBits s.cfg w, s.readBit j = .ok (m (j - 32 * w)) := by
    intro j hj
    obtain ⟨hw, hn⟩ := mem_msgWordBits.mp hj
    have hbit := h (j - 32 * w) (by omega) (by omega)
    rw [show 32 * w + (j - 32 * w) = j by omega] at hbit
    rw [State.readBit, hbit]
  rw [State.readMsgWord, readEach_ok hread, msgWordBits_eq, List.map_map]
  simp [Function.comp_def]

/-- A MSG word is not read beyond its first unwritten bit (log 6). -/
theorem readMsgWord_unwritten {s : State} {w i : Nat} (hi : i < 32) (hn : 32 * w + i < s.cfg.n)
    (hwritten : ∀ i', i' < i → (s.msgBit (32 * w + i')).isSome = true)
    (hnone : s.msgBit (32 * w + i) = none) : s.readMsgWord w = .error (.bit (32 * w + i)) := by
  have hread : readEach s.readBit (msgWordBits s.cfg w) = .error (.bit (32 * w + i)) := by
    rw [msgWordBits_eq]
    refine readEach_range_error (j := i) (by omega) (fun i' hi' => ?_) (by rw [State.readBit, hnone])
    obtain ⟨b, hb⟩ := Option.isSome_iff_exists.mp (hwritten i' hi')
    exact ⟨b, by rw [State.readBit, hb]⟩
  rw [State.readMsgWord, hread]

/-- The MSG words from MSGW to 31 are unmapped (R26, R140). -/
theorem mapOffset_msg_unmapped {p : Params} {w : Nat} (hw : p.msgw ≤ w) (hlt : w < 32) :
    mapOffset p (Target.msg w).offset = none := by
  have hword : (0x200 + 4 * w - 0x200) / 4 = w := by omega
  rw [Target.offset, mapOffset, if_neg (by omega), if_pos (by omega), hword, if_neg (by omega)]

/-- An access at an unmapped offset of the window is a bus error. -/
theorem hostAccess_unmapped {s : State} {a : Access} {off : Nat} (hoff : off < windowBytes)
    (ha : a.addr = s.cfg.unitBase + off) (hmap : mapOffset s.cfg off = none) :
    hostAccess a s = s.setAnswer (.busError off) := by
  rw [hostAccess_inside hoff ha, windowAccess_unmapped hmap]

end Sys2Proof.Machine

section

open Sys2Proof Sys2Proof.Machine

/-- Settles O38: the word's mapped bits are written and read one by one; BUSY drops the write and frees
the read; beyond MSGW nothing is mapped. -/
theorem msgWindowReadsAndWrites : Obligations.MsgWindowReadsAndWrites := by
  intro s w hl
  have hp := Params.bounds hl
  refine ⟨fun hidle hw => ⟨fun v => ?write, fun m hm => ?read, fun i hi hn hwritten hnone => ?unwritten⟩,
    fun hbusy hw => ⟨fun v => ?dropped, ?free⟩, fun hw hlt => ?beyond⟩
  case write =>
    have hwrite := hostAccess_writeOf_busyDrops hp (Target.mapped_msg.mpr hw) rfl rfl v
    rw [if_neg (by simp [hidle])] at hwrite
    rw [hwrite]
    exact ⟨rfl, msgBit_writeMsgWord s w v⟩
  case read =>
    refine ⟨_, hostAccess_readOf_ok hp (Target.mapped_msg.mpr hw) hidle (readMsgWord_ok hm),
      fun i hi => ?_⟩
    rw [getLsbD_wordOfBits _ hi, getD_map_range]
    by_cases hn : 32 * w + i < s.cfg.n
    · rw [if_pos (by omega), decide_eq_true hn, Bool.true_and]
    · rw [if_neg (by omega), decide_eq_false hn, Bool.false_and]
  case unwritten =>
    exact hostAccess_readOf_error hp (Target.mapped_msg.mpr hw) hidle
      (readMsgWord_unwritten hi hn hwritten hnone)
  case dropped =>
    rw [hostAccess_writeOf_busyDrops hp (Target.mapped_msg.mpr hw) rfl rfl, if_pos hbusy]
  case free => exact hostAccess_readOf_busy hp (Target.mapped_msg.mpr hw) hbusy rfl
  case beyond =>
    have hoff : (Target.msg w).offset < windowBytes := by rw [Target.offset, windowBytes]; omega
    have hmap := mapOffset_msg_unmapped hw hlt
    exact ⟨hostAccess_unmapped hoff rfl hmap, fun _ => hostAccess_unmapped hoff rfl hmap⟩

end

/-! ### What a pending command reads (44_host_access R142, R143, 20_memory section 5) -/

namespace Sys2Proof.Machine

/-- From `s` to `t` everything that a pending command reads, and the latch and CMD, are as they were. -/
def KeepsInputs (s t : State) : Prop :=
  t.cells = s.cells ∧ t.msg = s.msg ∧ t.arg = s.arg ∧ t.layout = s.layout
    ∧ t.pending = s.pending ∧ t.cmd = s.cmd ∧ t.cfg = s.cfg ∧ t.draws = s.draws

theorem hostRead_keepsInputs (s : State) (t : Target) : KeepsInputs s (s.hostRead t) := by
  rw [State.hostRead]
  split
  · exact ⟨rfl, rfl, rfl, rfl, rfl, rfl, rfl, rfl⟩
  · split <;> exact ⟨rfl, rfl, rfl, rfl, rfl, rfl, rfl, rfl⟩

/-- A CTRL write without SRST writes flags only (R148). -/
theorem writeCtrl_keepsInputs {v : Word} (hsrst : v.getLsbD 31 = false) (s : State) :
    KeepsInputs s (s.writeCtrl v) := by
  rw [writeCtrl_eq, if_neg (by rw [hsrst]; exact Bool.false_ne_true)]
  split <;> exact ⟨rfl, rfl, rfl, rfl, rfl, rfl, rfl, rfl⟩

/-- While BUSY a mapped write but CTRL's is refused or dropped. -/
theorem hostWrite_busy_keepsInputs {s : State} (hbusy : s.pending.isSome = true) {t : Target}
    (h : t.busyDrops = true) (off : Nat) (v : Word) : KeepsInputs s (s.hostWrite off t v) := by
  rw [State.hostWrite]
  split
  · exact ⟨rfl, rfl, rfl, rfl, rfl, rfl, rfl, rfl⟩
  · rw [if_pos (by rw [State.busy, hbusy, h]; rfl)]
    exact ⟨rfl, rfl, rfl, rfl, rfl, rfl, rfl, rfl⟩

theorem busyDrops_of_ne_ctrl {t : Target} (h : t ≠ .reg .ctrl) : t.busyDrops = true := by
  cases t with
  | reg r =>
    cases r with
    | ctrl => exact absurd rfl h
    | _ => rfl
  | msg | pmem | pmems => rfl

/-- While BUSY no host access but a CTRL write with SRST changes what the command reads. -/
theorem hostAccess_busy_keepsInputs {s : State} (hp : s.cfg.Bounds) (hbusy : s.pending.isSome = true)
    {a : Access} (hsrst : ∀ v, a = writeOf s.cfg (.reg .ctrl) v → v.getLsbD 31 = false) :
    KeepsInputs s (hostAccess a s) := by
  obtain ⟨t, ht, rfl⟩ | ⟨t, v, ht, rfl⟩ | hacc | ⟨off, hacc⟩ := hostAccess_cases a s
  · rw [hostAccess_readOf hp ht]
    exact hostRead_keepsInputs s t
  · by_cases hctrl : t = .reg .ctrl
    · subst hctrl
      rw [hostAccess_writeOf_ctrl hp]
      exact writeCtrl_keepsInputs (hsrst v rfl) s
    · rw [hostAccess_writeOf hp ht]
      exact hostWrite_busy_keepsInputs hbusy (busyDrops_of_ne_ctrl hctrl) _ v
  · rw [hacc]
    exact ⟨rfl, rfl, rfl, rfl, rfl, rfl, rfl, rfl⟩
  · rw [hacc]
    exact ⟨rfl, rfl, rfl, rfl, rfl, rfl, rfl, rfl⟩

end Sys2Proof.Machine

section

open Sys2Proof Sys2Proof.Machine

/-- Settles O46: while BUSY every access is answered without effect, or is a CTRL write, which writes
flags only. -/
theorem busyAccessesKeepTheInputs : Obligations.BusyAccessesKeepTheInputs := fun _ _ hl hbusy hsrst =>
  hostAccess_busy_keepsInputs (Params.bounds hl) hbusy fun v ha => hsrst 4 0xF#4 v ha

end

/-! ### A pending command is performed (70_reset R186, 20_memory section 5) -/

namespace Sys2Proof.Machine

theorem AccessEffect.bus_eq {s t : State} (h : AccessEffect s t) : t.bus = s.bus := by
  cases h with
  | written t v =>
    cases t with
    | reg r =>
      cases r with
      | ctrl =>
        rw [State.setAnswer_bus, State.writeTarget, State.writeReg, State.writeCtrl]
        split
        · rfl
        · split <;> rfl
      | _ => rfl
    | msg | pmem | pmems => rfl
  | outside | busError | data | busyRead | unwritten | dropped => rfl

/-- After the unit step the latch is empty, and the bus is as it was. -/
theorem unitStep_bus_pending {s t : State} (h : unitStep s = .next t) :
    t.bus = s.bus ∧ t.pending = none := by
  obtain ⟨hp, rfl⟩ | ⟨_, _, -, -, hexec⟩ | ⟨_, _, -, -, rfl⟩ := unitStep_next h
  · exact ⟨rfl, hp⟩
  · obtain ⟨-, -, -, -, -, hpending, hbus, -⟩ := exec_keepsHostSide hexec
    exact ⟨hbus, hpending⟩
  · exact ⟨rfl, rfl⟩

/-- A step consumes the oldest event of the bus. -/
theorem step_bus {s t : State} (h : step s = .next t) : t.bus = s.bus.tail := by
  obtain ⟨-, ⟨hbus, hunit⟩ | ⟨_, -, hunit⟩ | ⟨a, _, -, rfl⟩ | ⟨_, -, rfl⟩⟩ := step_next h
  · rw [(unitStep_bus_pending hunit).1, hbus, List.tail_nil]
  · exact (unitStep_bus_pending hunit).1
  · exact (hostAccess_effect a s.dropEvent).bus_eq
  · rfl

/-- A run over all events of the bus, and one step more, leaves nothing pending. -/
theorem run_empties_latch {s : State} (hl : s.cfg.legal = true)
    (hreset : ∀ a, BusEvent.hostInReset a ∉ s.bus) :
    ∃ t, core.run (s.bus.length + 1) s = .next t ∧ t.pending = none ∧ t.bus = [] := by
  generalize hbus : s.bus = events
  induction events generalizing s with
  | nil =>
    obtain ⟨t, hstep⟩ := unitStep_answers s.dropEvent
    obtain ⟨htbus, hpending⟩ := unitStep_bus_pending hstep
    rw [← step_of_unitTurn hl (.inl hbus)] at hstep
    refine ⟨t, (core_run_succ 0 hstep).trans (core_run_zero t), hpending, ?_⟩
    rw [htbus, State.dropEvent_bus, hbus, List.tail_nil]
  | cons e rest ih =>
    obtain ⟨t, hstep⟩ | ⟨a, _, hhead, -⟩ := (stepStopsOnlyInResetOrIllegalConfig.2 s).1 hl
    · have htbus : t.bus = rest := by rw [step_bus hstep, hbus, List.tail_cons]
      obtain ⟨hcfg, -, -⟩ := stepsNeverTakeBack s t hstep
      have hlater : ∀ a, BusEvent.hostInReset a ∉ t.bus := fun a ha =>
        hreset a (hbus ▸ List.mem_cons_of_mem e (htbus ▸ ha))
      obtain ⟨u, hrun, hu⟩ := ih (hcfg ▸ hl) hlater htbus
      exact ⟨u, (core_run_succ _ hstep).trans hrun, hu⟩
    · exact absurd (hhead ▸ List.mem_cons_self) (hreset a)

/-- A run over host accesses, none of them a CTRL write with SRST, keeps a pending command and what it
reads. -/
theorem run_hosts_keepsInputs {before rest : List BusEvent} {s : State} (hl : s.cfg.legal = true)
    (hbusy : s.pending.isSome = true) (hbus : s.bus = before ++ rest)
    (hhosts : ∀ e ∈ before, ∃ a, e = .host a
      ∧ ∀ v, a = writeOf s.cfg (.reg .ctrl) v → v.getLsbD 31 = false) :
    ∃ u, core.run before.length s = .next u ∧ u.bus = rest ∧ KeepsInputs s u := by
  induction before generalizing s with
  | nil => exact ⟨s, rfl, hbus, rfl, rfl, rfl, rfl, rfl, rfl, rfl, rfl⟩
  | cons e before ih =>
    obtain ⟨⟨a, rfl, hsrst⟩, hlater⟩ := List.forall_mem_cons.mp hhosts
    have hstep := step_of_host hl hbus
    have kept : KeepsInputs s (hostAccess a s.dropEvent) :=
      hostAccess_busy_keepsInputs (s := s.dropEvent) (Params.bounds hl) hbusy hsrst
    obtain ⟨hcells, hmsg, harg, hlayout, hpending, hcmd, hcfg, hdraws⟩ := kept
    have htbus : (hostAccess a s.dropEvent).bus = before ++ rest := by
      rw [step_bus hstep, hbus, List.cons_append, List.tail_cons]
    obtain ⟨u, hrun, hubus, hucells, humsg, huarg, hulayout, hupending, hucmd, hucfg, hudraws⟩ :=
      ih (hcfg ▸ hl) (hpending ▸ hbusy) htbus (hcfg ▸ hlater)
    exact ⟨u, (core_run_succ _ hstep).trans hrun, hubus, hucells.trans hcells, humsg.trans hmsg,
      huarg.trans harg, hulayout.trans hlayout, hupending.trans hpending, hucmd.trans hcmd,
      hucfg.trans hcfg, hudraws.trans hdraws⟩

end Sys2Proof.Machine

section

open Sys2Proof Sys2Proof.Machine

/-- Settles O53: host accesses before the unit's turn keep the command and its inputs, and the turn
performs it; a run to the end of the events and one step more empties the latch. -/
theorem pendingCommandIsPerformed : Obligations.PendingCommandIsPerformed := by
  intro s hl
  refine ⟨fun w before rest hpending hbus hturn hhosts => ?_, run_empties_latch hl⟩
  obtain ⟨u, hrun, hubus, hcells, hmsg, harg, hlayout, hupending, -, hcfg, hdraws⟩ :=
    run_hosts_keepsInputs hl (Option.isSome_of_eq_some hpending) hbus hhosts
  have hlu : u.cfg.legal = true := hcfg ▸ hl
  have hpu : u.pending = some w := hupending.trans hpending
  have hunit : u.unitTurn := by simpa only [State.unitTurn, hubus] using hturn
  refine ⟨u, hrun, ⟨hpu, hubus, hcells, hmsg, harg, hlayout, hcfg, hdraws⟩, fun i hi => ?_, fun e he => ?_⟩
  · rw [(stepRunsTheDecodedCommand u hlu hunit).1 w i hpu hi, hubus]
  · rw [step_of_decode_error hlu hunit hpu he, hubus]

end

/-! ### The engines' checks (43_pke R127, R128)

What each engine comes to when its runs fit and its outputs are apart: KEYGEN writes, ENCRYPT and DECRYPT
read. -/

namespace Sys2Proof.Machine

/-- The runs of KEYGEN fit, and they are apart. -/
structure KeygenChecks (s : State) : Prop where
  fitsA : s.layout.abase.toNat + s.cfg.k * s.cfg.k ≤ s.cfg.nslot
  fitsT : s.layout.tbase.toNat + s.cfg.k ≤ s.cfg.nslot
  fitsS : s.layout.sbase.toNat + s.cfg.k ≤ s.cfg.nslot
  apartAT : ¬ runsMeet s.layout.abase.toNat (s.cfg.k * s.cfg.k) s.layout.tbase.toNat s.cfg.k
  apartAS : ¬ runsMeet s.layout.abase.toNat (s.cfg.k * s.cfg.k) s.layout.sbase.toNat s.cfg.k
  apartTS : ¬ runsMeet s.layout.tbase.toNat s.cfg.k s.layout.sbase.toNat s.cfg.k

/-- The runs of ENCRYPT fit. -/
structure EncryptFits (s : State) : Prop where
  fitsA : s.layout.abase.toNat + s.cfg.k * s.cfg.k ≤ s.cfg.nslot
  fitsT : s.layout.tbase.toNat + s.cfg.k ≤ s.cfg.nslot
  fitsU : s.layout.ubase.toNat + s.cfg.k ≤ s.cfg.nslot
  fitsV : s.layout.vslot.toNat < s.cfg.nslot

/-- The runs of ENCRYPT fit, and its output runs are apart. -/
structure EncryptChecks (s : State) : Prop extends EncryptFits s where
  apartUV : ¬ runsMeet s.layout.ubase.toNat s.cfg.k s.layout.vslot.toNat 1

/-- The runs of DECRYPT fit. -/
structure DecryptChecks (s : State) : Prop where
  fitsS : s.layout.sbase.toNat + s.cfg.k ≤ s.cfg.nslot
  fitsU : s.layout.ubase.toNat + s.cfg.k ≤ s.cfg.nslot
  fitsV : s.layout.vslot.toNat < s.cfg.nslot

theorem disjoint_iff_not_meet {a b : SlotRun} :
    a.disjoint b = true ↔ ¬ runsMeet a.base a.len b.base b.len :=
  SlotRun.disjoint_iff.trans not_exists.symm

theorem pairwiseDisjoint_pair {a b : SlotRun} :
    pairwiseDisjoint [a, b] = true ↔ ¬ runsMeet a.base a.len b.base b.len := by
  simp [pairwiseDisjoint, disjoint_iff_not_meet]

theorem pairwiseDisjoint_triple {a b c : SlotRun} : pairwiseDisjoint [a, b, c] = true ↔
    ¬ (runsMeet a.base a.len b.base b.len ∨ runsMeet a.base a.len c.base c.len
      ∨ runsMeet b.base b.len c.base c.len) := by
  simp [pairwiseDisjoint, disjoint_iff_not_meet, and_assoc]

/-- KEYGEN, with its checks met, writes and completes: it reads nothing. -/
theorem exec_keygen_checked {s : State} (h : KeygenChecks s) :
    exec .keygen s = .next (s.afterKeygen.setDone true) := by
  have hfits : ∀ r ∈ [s.runA, s.runT, s.runS], r.base + r.len ≤ s.cfg.nslot := by
    simp only [List.forall_mem_cons]
    exact ⟨h.fitsA, h.fitsT, h.fitsS, List.forall_mem_nil _⟩
  have hapart : pairwiseDisjoint [s.runA, s.runT, s.runS] = true :=
    pairwiseDisjoint_triple.mpr (not_or.mpr ⟨h.apartAT, not_or.mpr ⟨h.apartAS, h.apartTS⟩⟩)
  exact (requireRuns_ok hfits).trans (requireDisjoint_ok hapart)

/-- ENCRYPT, with its runs in range, goes on to the check of its outputs. -/
theorem exec_encrypt_fits {s : State} (h : EncryptFits s) :
    exec .encrypt s = requireDisjoint s [s.runU, s.runV] (withSlots s s.runA.slots fun A =>
      withSlots s s.runT.slots fun t => withMsg s fun m => complete (s.afterEncrypt A t m)) := by
  refine requireRuns_ok ?_
  simp only [List.forall_mem_cons]
  exact ⟨h.fitsA, h.fitsT, h.fitsU, h.fitsV, List.forall_mem_nil _⟩

/-- ENCRYPT, with its checks met, goes on to its reads. -/
theorem exec_encrypt_checked {s : State} (h : EncryptChecks s) :
    exec .encrypt s = withSlots s s.runA.slots fun A => withSlots s s.runT.slots fun t =>
      withMsg s fun m => complete (s.afterEncrypt A t m) :=
  (exec_encrypt_fits h.toEncryptFits).trans (requireDisjoint_ok (pairwiseDisjoint_pair.mpr h.apartUV))

/-- DECRYPT, with its runs in range, goes on to its reads. -/
theorem exec_decrypt_checked {s : State} (h : DecryptChecks s) :
    exec .decrypt s = withRead s (readEach s.readPair s.decryptPairs) fun su =>
      withSlot s s.runV.base fun v => complete (s.writeMsg (decodeBlock s.cfg
        (plainD s.cfg (su.map Prod.fst) (su.map Prod.snd) v))) := by
  refine requireRuns_ok ?_
  simp only [List.forall_mem_cons]
  exact ⟨h.fitsS, h.fitsU, h.fitsV, List.forall_mem_nil _⟩

/-! #### Commands past their checks report no error -/

/-- The result is a next state with the error flags of `s` and, if `P` asks for it, more. -/
def EndsWithoutError (s : State) (P : State → Prop) (r : Result) : Prop :=
  ∃ t, r = .next t ∧ t.err = s.err ∧ t.errcode = s.errcode ∧ P t

/-- A read reports no error: it goes on, or records a fault. -/
theorem endsWithoutError_withRead {α : Type} {s : State} {P : State → Prop} {r : Except Uninit α}
    {k : α → Result} (hfault : ∀ w, P (s.recordFault w)) (h : ∀ a, EndsWithoutError s P (k a)) :
    EndsWithoutError s P (withRead s r k) := by
  cases r with
  | ok a => exact h a
  | error w => exact ⟨_, rfl, rfl, rfl, hfault w⟩

/-- ENCRYPT's writes leave the error flags alone. -/
theorem endsWithoutError_afterEncrypt (s : State) (A tv : List Elt) (m : List Bool) :
    EndsWithoutError s (fun _ => True) (complete (s.afterEncrypt A tv m)) := by
  have hcompleted := completed_afterEncrypt s A tv m
  rw [Completed] at hcompleted
  exact ⟨_, rfl, by rw [hcompleted], by rw [hcompleted], trivial⟩

end Sys2Proof.Machine

section

open Sys2Proof Sys2Proof.Machine

/-- Settles O28: the check of the output runs stands before every read, and what follows it reports no
error. -/
theorem overlappingOutputsAreReported : Obligations.OverlappingOutputsAreReported := by
  intro s
  refine ⟨fun hA hT hS hmeet => ?keygen, fun hA hT hU hV hmeet => ?encrypt,
    fun hA hT hU hV hapart => ?encryptOk, fun hS hU hV => ?decryptOk⟩
  case keygen =>
    have hfits : ∀ r ∈ [s.runA, s.runT, s.runS], r.base + r.len ≤ s.cfg.nslot := by
      simp only [List.forall_mem_cons]
      exact ⟨hA, hT, hS, List.forall_mem_nil _⟩
    have hnot : pairwiseDisjoint [s.runA, s.runT, s.runS] = false :=
      Bool.eq_false_iff.mpr fun hd => pairwiseDisjoint_triple.mp hd hmeet
    exact (requireRuns_ok hfits).trans (requireDisjoint_fail hnot)
  case encrypt =>
    have hnot : pairwiseDisjoint [s.runU, s.runV] = false :=
      Bool.eq_false_iff.mpr fun hd => pairwiseDisjoint_pair.mp hd hmeet
    exact (exec_encrypt_fits ⟨hA, hT, hU, hV⟩).trans (requireDisjoint_fail hnot)
  case encryptOk =>
    have hends : EndsWithoutError s (fun _ => True) (exec .encrypt s) := by
      rw [exec_encrypt_checked ⟨⟨hA, hT, hU, hV⟩, hapart⟩]
      exact endsWithoutError_withRead (fun _ => trivial) fun A =>
        endsWithoutError_withRead (fun _ => trivial) fun tv =>
        endsWithoutError_withRead (fun _ => trivial) fun m => endsWithoutError_afterEncrypt s A tv m
    obtain ⟨t, hexec, herr, hcode, -⟩ := hends
    exact ⟨t, hexec, herr, hcode⟩
  case decryptOk =>
    have hends : EndsWithoutError s (fun t => t.cells = s.cells) (exec .decrypt s) := by
      rw [exec_decrypt_checked ⟨hS, hU, hV⟩]
      exact endsWithoutError_withRead (fun _ => rfl) fun _ =>
        endsWithoutError_withRead (fun _ => rfl) fun _ => ⟨_, rfl, rfl, rfl, rfl⟩
    exact hends

end

/-! ### The first unwritten place of a command (60_exceptions R159; log 6) -/

namespace Sys2Proof.Machine

/-- A command whose first source is RS1 faults at its first unwritten coefficient. -/
theorem firstSource_unwritten {s : State} {slots : List Nat} {rs1 j : Nat} {k : Elt → Result}
    (hslots : ∀ i ∈ slots, i < s.cfg.nslot) (hu : s.FirstUnwritten rs1 j) :
    requireSlots s slots (withSlot s rs1 k) = .next (s.recordFault (.cell rs1 j)) := by
  rw [requireSlots_ok hslots, withSlot_unwritten hu]

/-- A command of two sources, RS1 being written, faults at the first unwritten coefficient of RS2. -/
theorem secondSource_unwritten {s : State} {slots : List Nat} {rs1 rs2 j : Nat}
    {k : Elt → Elt → Result} (hslots : ∀ i ∈ slots, i < s.cfg.nslot) (hw : s.SlotWritten rs1)
    (hu : s.FirstUnwritten rs2 j) :
    requireSlots s slots (withSlot s rs1 fun a => withSlot s rs2 (k a))
      = .next (s.recordFault (.cell rs2 j)) := by
  obtain ⟨a, ha⟩ := hw.holds
  rw [requireSlots_ok hslots, withSlot_holds ha, withSlot_unwritten hu]

section

variable {s : State} (h : EncryptChecks s)

include h

theorem encrypt_unwritten_A {i j : Nat} (hi : i < s.cfg.k * s.cfg.k)
    (hw : s.RunWritten s.layout.abase.toNat i) (hu : s.FirstUnwritten (s.layout.abase.toNat + i) j) :
    exec .encrypt s = .next (s.recordFault (.cell (s.layout.abase.toNat + i) j)) :=
  (exec_encrypt_checked h).trans (withSlots_unwritten hi hw hu)

theorem encrypt_unwritten_T {i j : Nat} (hi : i < s.cfg.k)
    (hA : s.RunWritten s.layout.abase.toNat (s.cfg.k * s.cfg.k))
    (hw : s.RunWritten s.layout.tbase.toNat i) (hu : s.FirstUnwritten (s.layout.tbase.toNat + i) j) :
    exec .encrypt s = .next (s.recordFault (.cell (s.layout.tbase.toNat + i) j)) := by
  obtain ⟨A, hA⟩ := hA.holds
  exact (exec_encrypt_checked h).trans ((withSlots_holds hA).trans (withSlots_unwritten hi hw hu))

theorem encrypt_unwritten_msg {j : Nat} (hA : s.RunWritten s.layout.abase.toNat (s.cfg.k * s.cfg.k))
    (hT : s.RunWritten s.layout.tbase.toNat s.cfg.k) (hu : s.FirstUnwrittenBit j) :
    exec .encrypt s = .next (s.recordFault (.bit j)) := by
  obtain ⟨A, hA⟩ := hA.holds
  obtain ⟨T, hT⟩ := hT.holds
  exact (exec_encrypt_checked h).trans
    ((withSlots_holds hA).trans ((withSlots_holds hT).trans (withMsg_unwritten hu)))

end

section

variable {s : State} (h : DecryptChecks s)

include h

/-- DECRYPT faults at the first of its slot pairs that cannot be read. -/
theorem decrypt_unwritten_pair {i : Nat} {w : Uninit} (hi : i < s.cfg.k)
    (hS : s.RunWritten s.layout.sbase.toNat i) (hU : s.RunWritten s.layout.ubase.toNat i)
    (hw : s.readPair (s.layout.sbase.toNat + i, s.layout.ubase.toNat + i) = .error w) :
    exec .decrypt s = .next (s.recordFault w) := by
  rw [exec_decrypt_checked h, State.readPairs_unwritten hi hS hU hw, withRead_error]

theorem decrypt_unwritten_V {j : Nat} (hS : s.RunWritten s.layout.sbase.toNat s.cfg.k)
    (hU : s.RunWritten s.layout.ubase.toNat s.cfg.k) (hu : s.FirstUnwritten s.layout.vslot.toNat j) :
    exec .decrypt s = .next (s.recordFault (.cell s.layout.vslot.toNat j)) := by
  obtain ⟨S, hS⟩ := hS.holds
  obtain ⟨U, hU⟩ := hU.holds
  rw [exec_decrypt_checked h, State.readPairs_holds hS hU, withRead_ok]
  exact withSlot_unwritten hu

end

end Sys2Proof.Machine

section

open Sys2Proof Sys2Proof.Machine

/-- Settles O29: each command's reads stand in the statement's order, and the first that fails ends it. -/
theorem unwrittenSourceIsRecorded : Obligations.UnwrittenSourceIsRecorded := by
  refine ⟨fun s rd rs1 rs2 j hrd hrs1 hrs2 hu => ?first, fun s rd rs1 rs2 j hrd hrs1 hrs2 hw hu => ?second,
    fun s rd j hrd hu => ?cenc, fun s => ?encrypt, fun s => ?decrypt⟩
  case first =>
    have fault {slots : List Nat} {k : Elt → Result} (hslots : ∀ i ∈ slots, i < s.cfg.nslot) :
        requireSlots s slots (withSlot s rs1 k) = .next (s.recordFault (.cell rs1 j)) :=
      firstSource_unwritten hslots hu
    have h2 : ∀ i ∈ [rd, rs1], i < s.cfg.nslot := by simp [hrd, hrs1]
    have h3 : ∀ i ∈ [rd, rs1, rs2], i < s.cfg.nslot := by simp [hrd, hrs1, hrs2]
    simp only [List.forall_mem_cons]
    exact ⟨fault h2, fault h3, fault h3, fault h2, fault h2, fault h3,
      fault (slots := [rs1, rs2]) (by simp [hrs1, hrs2]), fault (slots := [rs1]) (by simp [hrs1]),
      List.forall_mem_nil _⟩
  case second =>
    have fault {slots : List Nat} {k : Elt → Elt → Result} (hslots : ∀ i ∈ slots, i < s.cfg.nslot) :
        requireSlots s slots (withSlot s rs1 fun a => withSlot s rs2 (k a))
          = .next (s.recordFault (.cell rs2 j)) :=
      secondSource_unwritten hslots hw hu
    have h3 : ∀ i ∈ [rd, rs1, rs2], i < s.cfg.nslot := by simp [hrd, hrs1, hrs2]
    simp only [List.forall_mem_cons]
    exact ⟨fault h3, fault h3, fault h3, fault (slots := [rs1, rs2]) (by simp [hrs1, hrs2]),
      List.forall_mem_nil _⟩
  case cenc =>
    exact (requireSlots_ok (l := [rd]) (by simp [hrd])).trans (withMsg_unwritten hu)
  case encrypt =>
    intro p ab tb ub vs hA hT hU hV hapart
    have h : EncryptChecks s := ⟨⟨hA, hT, hU, hV⟩, hapart⟩
    exact ⟨fun i j => encrypt_unwritten_A h, fun i j => encrypt_unwritten_T h,
      fun j => encrypt_unwritten_msg h⟩
  case decrypt =>
    intro p sb ub vs hS hU hV
    have h : DecryptChecks s := ⟨hS, hU, hV⟩
    refine ⟨fun i j hi hwS hwU hu => decrypt_unwritten_pair h hi hwS hwU ?_,
      fun i j hi hwS hwU hu => ?_, fun j => decrypt_unwritten_V h⟩
    · exact State.readPair_fst (State.readSlot_unwritten hu)
    · obtain ⟨a, ha⟩ := hwS.read (Nat.lt_succ_self i)
      have hwS' : s.RunWritten sb i := fun i' hi' => hwS i' (Nat.lt_succ_of_lt hi')
      exact decrypt_unwritten_pair h hi hwS' hwU
        (State.readPair_snd ha (State.readSlot_unwritten hu))

end

/-! ### Sums of residues (40_ring R86, 43_pke R125) -/

namespace Sys2Proof.Machine

/-- Two integers have the same residue when they are equal mod Q. -/
theorem zmod_eq_of_cast {q : Nat} {x y : Int} (h : (x : ZMod q) = (y : ZMod q)) :
    zmod q x = zmod q y :=
  zmod_eq_of_emod ((ZMod.intCast_eq_intCast_iff' x y q).mp h)

/-- A number reduced mod Q is the residue of every integer equal to it mod Q. -/
theorem mod_eq_zmod {q c : Nat} {x : Int} (h : (c : ZMod q) = (x : ZMod q)) : c % q = zmod q x := by
  rw [← zmod_natCast]
  exact zmod_eq_of_cast (by rw [Int.cast_natCast, h])

/-- The element has the coefficients `f`. -/
def HasCoeffs (p : Params) (a : Elt) (f : Nat → Nat) : Prop := ∀ j, j < p.n → coef a j = f j

theorem hasCoeffs_eltFrom (p : Params) (f : Nat → Nat) : HasCoeffs p (eltFrom p f) f :=
  fun _ => coef_eltFrom_of_lt

theorem HasCoeffs.rmul {p : Params} {a b : Elt} {f g : Nat → Nat} (ha : HasCoeffs p a f)
    (hb : HasCoeffs p b g) : HasCoeffs p (rmul p a b) fun m => zmod p.q (negacyclic p.n f g m) :=
  fun m hm => by rw [rmul_eq_negacyclic, coef_eltOf, if_pos hm, negacyclic_congr ha hb]

/-- A sum of K products: the coefficients are summed as integers and reduced once. -/
theorem coef_rsum_rmul {p : Params} (hq : 0 < p.q) {a b : Nat → Elt} {f g : Nat → Nat → Nat}
    (ha : ∀ i, i < p.k → HasCoeffs p (a i) (f i)) (hb : ∀ i, i < p.k → HasCoeffs p (b i) (g i)) {m : Nat}
    (hm : m < p.n) : coef (rsum p fun i => rmul p (a i) (b i)) m
      = zmod p.q (∑ i ∈ Finset.range p.k, negacyclic p.n (f i) (g i) m) := by
  rw [coef_rsum _ hm]
  refine mod_eq_zmod ?_
  rw [Nat.cast_sum, Int.cast_sum]
  refine Finset.sum_congr rfl fun i hi => ?_
  have hi := Finset.mem_range.mp hi
  rw [(ha i hi).rmul (hb i hi) m hm, zmod_cast hq]

theorem zmod_add_mod {q : Nat} (hq : 0 < q) (x : Int) (c : Nat) : (zmod q x + c) % q = zmod q (x + c) :=
  mod_eq_zmod (by rw [Nat.cast_add, zmod_cast hq, Int.cast_add, Int.cast_natCast])

theorem zmod_sub_zmod {q : Nat} (hq : 0 < q) (c : Nat) (x : Int) :
    zmod q ((c : Int) - zmod q x) = zmod q ((c : Int) - x) :=
  zmod_eq_of_cast (by rw [Int.cast_sub, Int.cast_natCast, Int.cast_natCast, zmod_cast hq, Int.cast_sub,
    Int.cast_natCast])

end Sys2Proof.Machine

/-! ### The vectors of the engines (43_pke R125, R130, R132) -/

namespace Sys2Proof.Machine

theorem vecAt_noiseElts {p : Params} {coin : Nat → Bool} {c m i : Nat} (h : i < m) :
    vecAt (noiseElts p coin c m) i = noiseElt p coin (c + i * noiseCoins p) := by
  rw [vecAt, noiseElts, getD_map_range, if_pos h]

theorem vecAt_eltsFrom {p : Params} {m : Nat} {A : Nat → Nat → Nat} {i : Nat} (h : i < m) :
    vecAt (eltsFrom p m A) i = eltFrom p (A i) :=
  getD_eltsFrom p m A h

/-- A noise element of the machine's coins has the coefficients of R109. -/
theorem hasCoeffs_noise {p : Params} {c m i : Nat} (h : i < m) :
    HasCoeffs p (vecAt (noiseElts p Config.freeCoin c m) i) (noiseCoef p (c + i * noiseCoins p)) := by
  rw [vecAt_noiseElts h]
  exact fun _ => coef_noiseElt_freeCoin

theorem hasCoeffs_eltsFrom {p : Params} {m i : Nat} (h : i < m) (A : Nat → Nat → Nat) :
    HasCoeffs p (vecAt (eltsFrom p m A) i) (A i) := by
  rw [vecAt_eltsFrom h]
  exact hasCoeffs_eltFrom p (A i)

/-- The place of `A[i][j]` in a row-major matrix lies in its run. -/
theorem rowMajor_lt {k i j : Nat} (hi : i < k) (hj : j < k) : i * k + j < k * k :=
  calc i * k + j < i * k + k := by omega
    _ = (i + 1) * k := by ring
    _ ≤ k * k := Nat.mul_le_mul_right k hi

/-- The matrix that KEYGEN draws, element by element (R130). -/
theorem hasCoeffs_keyA (s : State) {i : Nat} (h : i < s.cfg.k * s.cfg.k) :
    HasCoeffs s.cfg (s.keyA.getD i []) (uniformCoef s.cfg (s.draws + i * s.cfg.n)) := by
  rw [State.keyA, uniformElts, getD_map_range, if_pos h]
  exact fun _ => coef_uniformElt_freeUniform

theorem length_keyA (s : State) : s.keyA.length = s.cfg.k * s.cfg.k := length_uniformElts ..

theorem length_keyS (s : State) : s.keyS.length = s.cfg.k := length_noiseElts ..

theorem length_keyT (p : Params) (A v e : List Elt) : (keyT p A v e).length = p.k := length_vadd ..

theorem length_cipherU (p : Params) (A r e1 : List Elt) : (cipherU p A r e1).length = p.k :=
  length_vadd ..

/-- The coefficients of `A s + e`, for a matrix and vectors given by their coefficients (R131). -/
theorem coef_keyT {p : Params} (hq : 0 < p.q) {A v e : List Elt} {fA : Nat → Nat → Nat → Nat}
    {fv fe : Nat → Nat → Nat} {i m : Nat} (hi : i < p.k) (hm : m < p.n)
    (hA : ∀ j, j < p.k → HasCoeffs p (matAt p A i j) (fA i j))
    (hv : ∀ j, j < p.k → HasCoeffs p (vecAt v j) (fv j)) (he : HasCoeffs p (vecAt e i) (fe i)) :
    coef (vecAt (keyT p A v e) i) m
      = zmod p.q (∑ j ∈ Finset.range p.k, negacyclic p.n (fA i j) (fv j) m + fe i m) := by
  rw [keyT, vecAt_vadd hi, coef_radd hm, vecAt_matvec hi, coef_rsum_rmul hq hA hv hm, he m hm,
    zmod_add_mod hq]

/-- The coefficients of `A^T r + e1` (R133). -/
theorem coef_cipherU {p : Params} (hq : 0 < p.q) {A r e1 : List Elt} {fA : Nat → Nat → Nat → Nat}
    {fr fe : Nat → Nat → Nat} {i m : Nat} (hi : i < p.k) (hm : m < p.n)
    (hA : ∀ j, j < p.k → HasCoeffs p (matAt p A j i) (fA j i))
    (hr : ∀ j, j < p.k → HasCoeffs p (vecAt r j) (fr j)) (he : HasCoeffs p (vecAt e1 i) (fe i)) :
    coef (vecAt (cipherU p A r e1) i) m
      = zmod p.q (∑ j ∈ Finset.range p.k, negacyclic p.n (fA j i) (fr j) m + fe i m) := by
  rw [cipherU, vecAt_vadd hi, coef_radd hm, vecAt_matTvec hi, coef_rsum_rmul hq hA hr hm, he m hm,
    zmod_add_mod hq]

/-- The coefficients of `t r + e2 + encode(m)` (R133). -/
theorem coef_cipherV {p : Params} (hq : 0 < p.q) {tv r : List Elt} {e2 : Elt} {ft fr : Nat → Nat → Nat}
    {fe : Nat → Nat} (bits : Nat → Bool) {m : Nat} (hm : m < p.n)
    (ht : ∀ i, i < p.k → HasCoeffs p (vecAt tv i) (ft i))
    (hr : ∀ i, i < p.k → HasCoeffs p (vecAt r i) (fr i)) (he : HasCoeffs p e2 fe) :
    coef (cipherV p tv r e2 (blockFrom p bits)) m
      = zmod p.q (∑ i ∈ Finset.range p.k, negacyclic p.n (ft i) (fr i) m + fe m
          + (if bits m = true then (p.q / 2 : Nat) else 0 : Nat)) := by
  rw [cipherV, coef_radd hm, coef_radd hm, dot, coef_rsum_rmul hq ht hr hm, he m hm, zmod_add_mod hq,
    coef_encodeBlock hm, blockBit_blockFrom hm, zmod_add_mod hq, Params.half]

/-- The coefficients of `v - s u` (R134). -/
theorem coef_plainD {p : Params} (hq : 0 < p.q) {sv u : List Elt} {v : Elt} {fs fu : Nat → Nat → Nat}
    {fv : Nat → Nat} {m : Nat} (hm : m < p.n) (hs : ∀ i, i < p.k → HasCoeffs p (vecAt sv i) (fs i))
    (hu : ∀ i, i < p.k → HasCoeffs p (vecAt u i) (fu i)) (hv : HasCoeffs p v fv) :
    coef (plainD p sv u v) m
      = zmod p.q ((fv m : Int) - ∑ i ∈ Finset.range p.k, negacyclic p.n (fs i) (fu i) m) := by
  rw [plainD, coef_rsub hm, hv m hm, dot, coef_rsum_rmul hq hs hu hm, zmod_sub_zmod hq]

end Sys2Proof.Machine

/-! ### What the engines write, cell by cell (43_pke R131, R133, R134) -/

namespace Sys2Proof.Machine

/-- One cell after a whole run is written: the run is given by its length. -/
theorem State.cell_writeRun_of_length (s : State) (base : Nat) {es : List Elt} {len : Nat}
    (hlen : es.length = len) (x m : Nat) : (s.writeRun base es).cell x m
      = if (base ≤ x ∧ x < base + len) ∧ m < s.cfg.n then some (coef (vecAt es (x - base)) m)
        else s.cell x m := by
  rw [State.cell_writeRun, hlen, vecAt]
  simp only [and_assoc]

/-- A cell after KEYGEN: of RS, else of RT, else of RA, else as before. -/
theorem cell_afterKeygen (s : State) (x m : Nat) : (s.afterKeygen.setDone true).cell x m =
    if (s.layout.sbase.toNat ≤ x ∧ x < s.layout.sbase.toNat + s.cfg.k) ∧ m < s.cfg.n then
      some (coef (vecAt s.keyS (x - s.layout.sbase.toNat)) m)
    else if (s.layout.tbase.toNat ≤ x ∧ x < s.layout.tbase.toNat + s.cfg.k) ∧ m < s.cfg.n then
      some (coef (vecAt (keyT s.cfg s.keyA s.keyS s.keyE) (x - s.layout.tbase.toNat)) m)
    else if (s.layout.abase.toNat ≤ x ∧ x < s.layout.abase.toNat + s.cfg.k * s.cfg.k) ∧ m < s.cfg.n then
      some (coef (vecAt s.keyA (x - s.layout.abase.toNat)) m)
    else s.cell x m := by
  rw [State.setDone_cell, State.afterKeygen, State.takeDraws_cell,
    State.cell_writeRun_of_length _ _ (length_keyS s), State.cell_writeRun_of_length _ _ (length_keyT ..),
    State.cell_writeRun_of_length _ _ (length_keyA s)]
  simp only [State.writeRun_cfg]
  rfl

/-- A cell after ENCRYPT: of RV, else of RU, else as before. -/
theorem cell_afterEncrypt (s : State) (A tv : List Elt) (b : List Bool) (x m : Nat) :
    ((s.afterEncrypt A tv b).setDone true).cell x m =
    if s.layout.vslot.toNat = x ∧ m < s.cfg.n then some (coef (cipherV s.cfg tv s.encR s.encE2 b) m)
    else if (s.layout.ubase.toNat ≤ x ∧ x < s.layout.ubase.toNat + s.cfg.k) ∧ m < s.cfg.n then
      some (coef (vecAt (cipherU s.cfg A s.encR s.encE1) (x - s.layout.ubase.toNat)) m)
    else s.cell x m := by
  rw [State.setDone_cell, State.afterEncrypt, State.takeDraws_cell, State.cell_writeSlot,
    State.cell_writeRun_of_length _ _ (length_cipherU ..), State.writeRun_cfg]
  rfl

/-- KEYGEN leaves every cell outside its runs alone. -/
theorem cell_afterKeygen_outside {s : State} {x m : Nat} (hout : s.cfg.n ≤ m ∨
      ¬ ((s.layout.abase.toNat ≤ x ∧ x < s.layout.abase.toNat + s.cfg.k * s.cfg.k)
        ∨ (s.layout.tbase.toNat ≤ x ∧ x < s.layout.tbase.toNat + s.cfg.k)
        ∨ (s.layout.sbase.toNat ≤ x ∧ x < s.layout.sbase.toNat + s.cfg.k))) :
    (s.afterKeygen.setDone true).cell x m = s.cell x m := by
  rw [cell_afterKeygen, if_neg (by omega), if_neg (by omega), if_neg (by omega)]

/-- ENCRYPT leaves every cell outside its output runs alone. -/
theorem cell_afterEncrypt_outside {s : State} (A tv : List Elt) (b : List Bool) {x m : Nat}
    (hout : s.cfg.n ≤ m ∨ ¬ ((s.layout.ubase.toNat ≤ x ∧ x < s.layout.ubase.toNat + s.cfg.k)
      ∨ x = s.layout.vslot.toNat)) :
    ((s.afterEncrypt A tv b).setDone true).cell x m = s.cell x m := by
  rw [cell_afterEncrypt, if_neg (by omega), if_neg (by omega)]

/-- Of two runs that do not meet no slot lies in both. -/
theorem not_mem_of_not_meet {b1 l1 b2 l2 x : Nat} (h : ¬ runsMeet b1 l1 b2 l2) (hx : b1 ≤ x ∧ x < b1 + l1) :
    ¬ (b2 ≤ x ∧ x < b2 + l2) :=
  fun hx' => h ⟨x, hx, hx'⟩

theorem cell_afterKeygen_S {s : State} {m : Nat} (hm : m < s.cfg.n) {i : Nat} (hi : i < s.cfg.k) :
    (s.afterKeygen.setDone true).cell (s.layout.sbase.toNat + i) m = some (coef (vecAt s.keyS i) m) := by
  rw [cell_afterKeygen, if_pos ⟨by omega, hm⟩, Nat.add_sub_cancel_left]

section

variable {s : State} (h : KeygenChecks s) {m : Nat} (hm : m < s.cfg.n)

include h hm

theorem cell_afterKeygen_A {i : Nat} (hi : i < s.cfg.k * s.cfg.k) :
    (s.afterKeygen.setDone true).cell (s.layout.abase.toNat + i) m = some (coef (vecAt s.keyA i) m) := by
  have hx : s.layout.abase.toNat ≤ s.layout.abase.toNat + i
      ∧ s.layout.abase.toNat + i < s.layout.abase.toNat + s.cfg.k * s.cfg.k := by omega
  rw [cell_afterKeygen, if_neg fun hS => not_mem_of_not_meet h.apartAS hx hS.1,
    if_neg fun hT => not_mem_of_not_meet h.apartAT hx hT.1, if_pos ⟨hx, hm⟩, Nat.add_sub_cancel_left]

theorem cell_afterKeygen_T {i : Nat} (hi : i < s.cfg.k) :
    (s.afterKeygen.setDone true).cell (s.layout.tbase.toNat + i) m
      = some (coef (vecAt (keyT s.cfg s.keyA s.keyS s.keyE) i) m) := by
  have hx : s.layout.tbase.toNat ≤ s.layout.tbase.toNat + i
      ∧ s.layout.tbase.toNat + i < s.layout.tbase.toNat + s.cfg.k := by omega
  rw [cell_afterKeygen, if_neg fun hS => not_mem_of_not_meet h.apartTS hx hS.1, if_pos ⟨hx, hm⟩,
    Nat.add_sub_cancel_left]

end

theorem cell_afterEncrypt_V {s : State} (A tv : List Elt) (b : List Bool) {m : Nat} (hm : m < s.cfg.n) :
    ((s.afterEncrypt A tv b).setDone true).cell s.layout.vslot.toNat m
      = some (coef (cipherV s.cfg tv s.encR s.encE2 b) m) := by
  rw [cell_afterEncrypt, if_pos ⟨rfl, hm⟩]

theorem cell_afterEncrypt_U {s : State} (h : EncryptChecks s) (A tv : List Elt) (b : List Bool) {m : Nat}
    (hm : m < s.cfg.n) {i : Nat} (hi : i < s.cfg.k) :
    ((s.afterEncrypt A tv b).setDone true).cell (s.layout.ubase.toNat + i) m
      = some (coef (vecAt (cipherU s.cfg A s.encR s.encE1) i) m) := by
  have hx : s.layout.ubase.toNat ≤ s.layout.ubase.toNat + i
      ∧ s.layout.ubase.toNat + i < s.layout.ubase.toNat + s.cfg.k := by omega
  have hV := not_mem_of_not_meet h.apartUV hx
  rw [cell_afterEncrypt, if_neg fun hv => hV (by omega), if_pos ⟨hx, hm⟩, Nat.add_sub_cancel_left]

/-- ENCRYPT, with its checks met and its inputs written, writes what its rule says of them. -/
theorem exec_encrypt_holds {s : State} (h : EncryptChecks s) {A T : Nat → Nat → Nat} {msg : Nat → Bool}
    (hA : s.RunHolds s.layout.abase.toNat (s.cfg.k * s.cfg.k) A)
    (hT : s.RunHolds s.layout.tbase.toNat s.cfg.k T) (hm : s.MsgHolds msg) :
    exec .encrypt s = .next ((s.afterEncrypt (eltsFrom s.cfg (s.cfg.k * s.cfg.k) A)
      (eltsFrom s.cfg s.cfg.k T) (blockFrom s.cfg msg)).setDone true) :=
  (exec_encrypt_checked h).trans ((withSlots_holds hA).trans ((withSlots_holds hT).trans (withMsg_holds hm)))

/-- DECRYPT, with its runs in range and its inputs written, decodes their difference. -/
theorem exec_decrypt_holds {s : State} (h : DecryptChecks s) {S U : Nat → Nat → Nat} {v : Nat → Nat}
    (hS : s.RunHolds s.layout.sbase.toNat s.cfg.k S) (hU : s.RunHolds s.layout.ubase.toNat s.cfg.k U)
    (hv : s.SlotHolds s.layout.vslot.toNat v) :
    exec .decrypt s = .next ((s.writeMsg (decodeBlock s.cfg (plainD s.cfg (eltsFrom s.cfg s.cfg.k S)
      (eltsFrom s.cfg s.cfg.k U) (eltFrom s.cfg v)))).setDone true) := by
  rw [exec_decrypt_checked h, State.readPairs_holds hS hU, withRead_ok, List.map_map, List.map_map]
  exact withSlot_holds hv

end Sys2Proof.Machine

section

open Sys2Proof Sys2Proof.Machine

/-- Settles O22: the three runs are apart, so each holds what KEYGEN wrote into it. -/
theorem keygenWritesAKeyPair : Obligations.KeygenWritesAKeyPair := by
  intro s hl p ab tb sb noise A S E hfitsA hfitsT hfitsS hAT hAS hTS
  have hq := (Params.bounds hl).prime.pos
  have h : KeygenChecks s := ⟨hfitsA, hfitsT, hfitsS, hAT, hAS, hTS⟩
  have hA {i j : Nat} (hi : i < p.k) (hj : j < p.k) : HasCoeffs p (matAt p s.keyA i j) (A i j) :=
    hasCoeffs_keyA s (rowMajor_lt hi hj)
  have hS {j : Nat} (hj : j < p.k) : HasCoeffs p (vecAt s.keyS j) (S j) := hasCoeffs_noise hj
  have hE {i : Nat} (hi : i < p.k) : HasCoeffs p (vecAt s.keyE i) (E i) := hasCoeffs_noise hi
  refine ⟨_, exec_keygen_checked h, afterKeygen_frame s, fun i j m hi hj hm => ?A, fun i m hi hm => ?T,
    fun j m hj hm => ?S, fun x m hout => ?frame⟩
  case A =>
    rw [Nat.add_assoc, cell_afterKeygen_A h hm (rowMajor_lt hi hj)]
    exact congrArg some (hA hi hj m hm)
  case T =>
    rw [cell_afterKeygen_T h hm hi, coef_keyT hq hi hm (fun j => hA hi) (fun j => hS) (hE hi)]
    rfl
  case S => rw [cell_afterKeygen_S hm hj, hS hj m hm]
  case frame => exact cell_afterKeygen_outside hout

/-- Settles O23: the inputs are read before anything is written, and the two output runs are apart. -/
theorem encryptWritesACiphertext : Obligations.EncryptWritesACiphertext := by
  intro s A T msg hl p ab tb ub vs noise R E1 E2 hfitsA hfitsT hfitsU hfitsV hUV hA hT hmsg
  have hq := (Params.bounds hl).prime.pos
  have h : EncryptChecks s := ⟨⟨hfitsA, hfitsT, hfitsU, hfitsV⟩, hUV⟩
  have hR {j : Nat} (hj : j < p.k) : HasCoeffs p (vecAt s.encR j) (R j) := hasCoeffs_noise hj
  have hE1 {i : Nat} (hi : i < p.k) : HasCoeffs p (vecAt s.encE1 i) (E1 i) := hasCoeffs_noise hi
  have hE2 : HasCoeffs p s.encE2 E2 := fun m hm => by
    have hcount : s.draws + p.k * noise + p.k * noise = s.draws + 2 * p.k * noise := by ring
    exact (coef_noiseElt_freeCoin hm).trans (congrArg (noiseCoef p · m) hcount)
  refine ⟨_, exec_encrypt_holds h hA hT hmsg, afterEncrypt_frame s _ _ _, fun i m hi hm => ?U,
    fun m hm => ?V, fun x m hout => ?frame⟩
  case U =>
    rw [cell_afterEncrypt_U h _ _ _ hm hi, coef_cipherU (fA := fun j i => A (j * p.k + i)) hq hi hm
      (fun j hj => hasCoeffs_eltsFrom (rowMajor_lt hj hi) A) (fun j => hR) (hE1 hi)]
    rfl
  case V =>
    rw [cell_afterEncrypt_V _ _ _ hm, coef_cipherV hq msg hm (fun i hi => hasCoeffs_eltsFrom hi T)
      (fun i => hR) hE2]
    rfl
  case frame => exact cell_afterEncrypt_outside _ _ _ hout

/-- Settles O24: the difference's coefficients, each decoded by R114. -/
theorem decryptWritesTheDecodedDifference : Obligations.DecryptWritesTheDecodedDifference := by
  intro s S U v hl p hfitsS hfitsU hfitsV hS hU hv
  have hq := (Params.bounds hl).prime.pos
  refine ⟨_, exec_decrypt_holds ⟨hfitsS, hfitsU, hfitsV⟩ hS hU hv, wroteMsg_writeMsg fun m hm => ?_⟩
  rw [blockBit_decodeBlock hm, coef_plainD hq hm (fun i hi => hasCoeffs_eltsFrom hi S)
    (fun i hi => hasCoeffs_eltsFrom hi U) (hasCoeffs_eltFrom _ v), decbit_eq_decodedBit]
  rfl

/-- Settles O25: both machines write what O23 says, in which only what they agree on occurs. -/
theorem ciphertextIgnoresTheSecretSlots : Obligations.CiphertextIgnoresTheSecretSlots := by
  intro s1 s2 A T msg hl hcfg hlayout hdraws p ab tb ub vs hfitsA hfitsT hfitsU hfitsV hUV hA1 hA2 hT1 hT2
    hm1 hm2
  have wrote2 := encryptWritesACiphertext s2 A T msg (hcfg ▸ hl)
  simp only [← hcfg, ← hlayout, ← hdraws] at wrote2
  obtain ⟨t1, hexec1, -, hu1, hv1, -⟩ :=
    encryptWritesACiphertext s1 A T msg hl hfitsA hfitsT hfitsU hfitsV hUV hA1 hT1 hm1
  obtain ⟨t2, hexec2, -, hu2, hv2, -⟩ := wrote2 hfitsA hfitsT hfitsU hfitsV hUV hA2 hT2 hm2
  exact ⟨t1, t2, hexec1, hexec2, fun i m hi hm => (hu1 i m hi hm).trans (hu2 i m hi hm).symm,
    fun m hm => (hv1 m hm).trans (hv2 m hm).symm⟩

/-- Settles O59: the difference of the shifted ciphertext is the shifted difference, by O24. -/
theorem shiftedCiphertextShiftsTheDifference : Obligations.ShiftedCiphertextShiftsTheDifference := by
  intro s S U v D hl p d hfitsS hfitsU hfitsV hS hU hv
  have hq := (Params.bounds hl).prime.pos
  have hshift (m : Nat) : zmod p.q (((v m + D m) % p.q : Nat)
      - ∑ i ∈ Finset.range p.k, negacyclic p.n (S i) (U i) m) = (d m + D m) % p.q := by
    refine .trans (zmod_eq_of_cast ?_) (zmod_add_mod hq _ (D m)).symm
    push_cast
    ring
  obtain ⟨t, hexec, hwrote⟩ :=
    decryptWritesTheDecodedDifference s S U _ hl hfitsS hfitsU hfitsV hS hU hv
  refine ⟨t, hexec, ?_⟩
  simp only [← hshift]
  exact hwrote

end

/-! ### Small residues (43_pke R135)

A residue is small when an integer near 0 has it. Noise is small, and what the machine computes from noise
by sums and products stays small, with a bound that adds up. -/

namespace Sys2Proof.Machine

/-- The residue of an integer of absolute value at most `B`. -/
def IsSmall {q : Nat} (B : Nat) (c : ZMod q) : Prop := ∃ x : Int, |x| ≤ B ∧ c = x

theorem isSmall_zero {q : Nat} : IsSmall 0 (0 : ZMod q) := ⟨0, by simp, by simp⟩

theorem IsSmall.neg {q B : Nat} {c : ZMod q} (h : IsSmall B c) : IsSmall B (-c) := by
  obtain ⟨x, hx, rfl⟩ := h
  exact ⟨-x, by rwa [abs_neg], by push_cast; rfl⟩

theorem IsSmall.add {q B B' : Nat} {c c' : ZMod q} (h : IsSmall B c) (h' : IsSmall B' c') :
    IsSmall (B + B') (c + c') := by
  obtain ⟨x, hx, rfl⟩ := h
  obtain ⟨y, hy, rfl⟩ := h'
  exact ⟨x + y, (abs_add_le x y).trans (by push_cast; omega), by push_cast; rfl⟩

theorem IsSmall.sub {q B B' : Nat} {c c' : ZMod q} (h : IsSmall B c) (h' : IsSmall B' c') :
    IsSmall (B + B') (c - c') :=
  sub_eq_add_neg c c' ▸ h.add h'.neg

theorem IsSmall.mul {q B B' : Nat} {c c' : ZMod q} (h : IsSmall B c) (h' : IsSmall B' c') :
    IsSmall (B * B') (c * c') := by
  obtain ⟨x, hx, rfl⟩ := h
  obtain ⟨y, hy, rfl⟩ := h'
  refine ⟨x * y, ?_, by push_cast; rfl⟩
  rw [abs_mul, Nat.cast_mul]
  exact mul_le_mul hx hy (abs_nonneg y) (Nat.cast_nonneg B)

theorem isSmall_sum {q B : Nat} {m : Nat} {f : Nat → ZMod q} (h : ∀ i, i < m → IsSmall B (f i)) :
    IsSmall (m * B) (∑ i ∈ Finset.range m, f i) := by
  induction m with
  | zero => simpa using isSmall_zero
  | succ m ih =>
    rw [Finset.sum_range_succ, Nat.succ_mul]
    exact (ih fun i hi => h i (Nat.lt_succ_of_lt hi)).add (h m (Nat.lt_succ_self m))

/-- A coefficient of a noise element is small. -/
theorem IsNoise.isSmall {p : Params} (hq : 0 < p.q) {a : Elt} (ha : IsNoise p a) {j : Nat} (hj : j < p.n) :
    IsSmall p.eta (coef a j : ZMod p.q) := by
  obtain ⟨x, hlo, hhi, hx⟩ := ha.2 j hj
  exact ⟨x, abs_le.mpr ⟨hlo, hhi⟩, by rw [hx, zmod_cast hq]⟩

/-- Coefficient `m` of a product has one term for each coefficient of the first factor: the second
factor's coefficient is the one that makes up the degree `m`, or `m + n` with a minus sign (40_ring R86). -/
theorem negacyclic_eq_sum {n : Nat} (a b : Nat → Nat) {m : Nat} (hm : m < n) :
    negacyclic n a b m = ∑ i ∈ Finset.range n,
      (a i : Int) * if i ≤ m then (b (m - i) : Int) else -(b (m + n - i) : Int) := by
  rw [negacyclic, ← Finset.sum_sub_distrib]
  refine Finset.sum_congr rfl fun i hi => ?_
  have hi := Finset.mem_range.mp hi
  by_cases him : i ≤ m
  · have hfold : ∀ j ∈ Finset.range n, (if i + j = m + n then (a i : Int) * b j else 0) = 0 :=
      fun j hj => if_neg (by have := Finset.mem_range.mp hj; omega)
    rw [Finset.sum_eq_zero hfold, Finset.sum_eq_single_of_mem (m - i) (Finset.mem_range.mpr (by omega)),
      if_pos (by omega), if_pos him, sub_zero]
    exact fun j _ hj => if_neg (by omega)
  · have hplain : ∀ j ∈ Finset.range n, (if i + j = m then (a i : Int) * b j else 0) = 0 :=
      fun j _ => if_neg (by omega)
    rw [Finset.sum_eq_zero hplain,
      Finset.sum_eq_single_of_mem (m + n - i) (Finset.mem_range.mpr (by omega)), if_pos (by omega),
      if_neg him, zero_sub, mul_neg]
    exact fun j _ hj => if_neg (by omega)

/-- The product of two noise elements is small. -/
theorem isSmall_rmul {p : Params} (hq : 0 < p.q) {a b : Elt} (ha : IsNoise p a) (hb : IsNoise p b) {m : Nat}
    (hm : m < p.n) : IsSmall (p.n * (p.eta * p.eta)) (coef (rmul p a b) m : ZMod p.q) := by
  rw [rmul_eq_negacyclic, coef_eltOf, if_pos hm, zmod_cast hq, negacyclic_eq_sum _ _ hm, Int.cast_sum]
  refine isSmall_sum fun i hi => ?_
  rw [Int.cast_mul, Int.cast_natCast]
  refine (ha.isSmall hq hi).mul ?_
  split
  · rw [Int.cast_natCast]
    exact hb.isSmall hq (by omega)
  · rw [Int.cast_neg, Int.cast_natCast]
    exact (hb.isSmall hq (by omega)).neg

/-! #### The coefficients of the ring functions, mod Q -/

theorem cast_coef_radd {p : Params} (a b : Elt) {j : Nat} (hj : j < p.n) :
    (coef (radd p a b) j : ZMod p.q) = coef a j + coef b j := by
  rw [coef_radd hj, ZMod.natCast_mod, Nat.cast_add]

theorem cast_coef_rsub {p : Params} (hq : 0 < p.q) (a b : Elt) {j : Nat} (hj : j < p.n) :
    (coef (rsub p a b) j : ZMod p.q) = coef a j - coef b j := by
  rw [coef_rsub hj, zmod_cast hq, Int.cast_sub, Int.cast_natCast, Int.cast_natCast]

/-- The dot product of two vectors of noise is small. -/
theorem isSmall_dot {p : Params} (hq : 0 < p.q) {a b : List Elt} (ha : ∀ i, i < p.k → IsNoise p (vecAt a i))
    (hb : ∀ i, i < p.k → IsNoise p (vecAt b i)) {m : Nat} (hm : m < p.n) :
    IsSmall (p.k * (p.n * (p.eta * p.eta))) (coef (dot p a b) m : ZMod p.q) := by
  rw [dot, coef_rsum _ hm, ZMod.natCast_mod, Nat.cast_sum]
  exact isSmall_sum fun i hi => isSmall_rmul hq (ha i hi) (hb i hi) hm

end Sys2Proof.Machine

/-! ### The difference that DECRYPT decodes (43_pke R135) -/

namespace Sys2Proof.Machine

theorem toRing_rsum {p : Params} (hq : 0 < p.q) (f : Nat → Elt) :
    toRing p (rsum p f) = ∑ i ∈ Finset.range p.k, toRing p (f i) := by
  have partialSum (k : Nat) : toRing p (((List.range k).map f).foldl (radd p) (rzero p))
      = ∑ i ∈ Finset.range k, toRing p (f i) := by
    induction k with
    | zero => exact toRing_rzero hq
    | succ k ih =>
      rw [List.range_succ, List.map_append, List.foldl_append, Finset.sum_range_succ, ← ih]
      exact toRing_radd hq _ _
  exact partialSum p.k

theorem toRing_dot {p : Params} (hq : 0 < p.q) (a b : List Elt) :
    toRing p (dot p a b) = ∑ i ∈ Finset.range p.k, toRing p (vecAt a i) * toRing p (vecAt b i) := by
  rw [dot, toRing_rsum hq]
  exact Finset.sum_congr rfl fun i _ => toRing_rmul hq _ _

theorem toRing_keyT {p : Params} (hq : 0 < p.q) (A sv e : List Elt) {i : Nat} (hi : i < p.k) :
    toRing p (vecAt (keyT p A sv e) i)
      = ∑ j ∈ Finset.range p.k, toRing p (matAt p A i j) * toRing p (vecAt sv j) + toRing p (vecAt e i) := by
  rw [keyT, vecAt_vadd hi, toRing_radd hq, vecAt_matvec hi, toRing_rsum hq]
  exact congrArg (· + _) (Finset.sum_congr rfl fun j _ => toRing_rmul hq _ _)

theorem toRing_cipherU {p : Params} (hq : 0 < p.q) (A r e1 : List Elt) {i : Nat} (hi : i < p.k) :
    toRing p (vecAt (cipherU p A r e1) i)
      = ∑ j ∈ Finset.range p.k, toRing p (matAt p A j i) * toRing p (vecAt r j) + toRing p (vecAt e1 i) := by
  rw [cipherU, vecAt_vadd hi, toRing_radd hq, vecAt_matTvec hi, toRing_rsum hq]
  exact congrArg (· + _) (Finset.sum_congr rfl fun j _ => toRing_rmul hq _ _)

/-- `(A s + e) r - s (A^T r + e1) = e r - s e1` in every commutative ring: the matrix drops out. -/
theorem matrix_cancels {R : Type} [CommRing R] (k : Nat) (A : Nat → Nat → R) (sv e r e1 : Nat → R) :
    ∑ i ∈ Finset.range k, (∑ j ∈ Finset.range k, A i j * sv j + e i) * r i
        - ∑ i ∈ Finset.range k, sv i * (∑ j ∈ Finset.range k, A j i * r j + e1 i)
      = ∑ i ∈ Finset.range k, e i * r i - ∑ i ∈ Finset.range k, sv i * e1 i := by
  have hmatrix : ∑ i ∈ Finset.range k, (∑ j ∈ Finset.range k, A i j * sv j) * r i
      = ∑ i ∈ Finset.range k, sv i * ∑ j ∈ Finset.range k, A j i * r j := by
    simp only [Finset.sum_mul, Finset.mul_sum]
    rw [Finset.sum_comm]
    exact Finset.sum_congr rfl fun i _ => Finset.sum_congr rfl fun j _ => by ring
  simp only [add_mul, mul_add, Finset.sum_add_distrib, hmatrix]
  ring

/-- The difference of a ciphertext under its own key is the encoded message and noise. -/
theorem plainD_eq_noise_add {p : Params} (hp : p.Bounds) (A sv e r e1 : List Elt) (e2 : Elt)
    (bits : List Bool) : plainD p sv (cipherU p A r e1) (cipherV p (keyT p A sv e) r e2 bits)
      = radd p (radd p (rsub p (dot p e r) (dot p sv e1)) e2) (encodeBlock p bits) := by
  have hq := hp.prime.pos
  have hT : ∑ i ∈ Finset.range p.k, toRing p (vecAt (keyT p A sv e) i) * toRing p (vecAt r i)
      = ∑ i ∈ Finset.range p.k, (∑ j ∈ Finset.range p.k, toRing p (matAt p A i j) * toRing p (vecAt sv j)
          + toRing p (vecAt e i)) * toRing p (vecAt r i) :=
    Finset.sum_congr rfl fun i hi => by rw [toRing_keyT hq _ _ _ (Finset.mem_range.mp hi)]
  have hU : ∑ i ∈ Finset.range p.k, toRing p (vecAt sv i) * toRing p (vecAt (cipherU p A r e1) i)
      = ∑ i ∈ Finset.range p.k, toRing p (vecAt sv i) * (∑ j ∈ Finset.range p.k,
          toRing p (matAt p A j i) * toRing p (vecAt r j) + toRing p (vecAt e1 i)) :=
    Finset.sum_congr rfl fun i hi => by rw [toRing_cipherU hq _ _ _ (Finset.mem_range.mp hi)]
  refine elt_eq_of_toRing_eq hp (isElt_rsub hq _ _) (isElt_radd hq _ _) ?_
  rw [plainD, cipherV, toRing_rsub hq, toRing_radd hq, toRing_radd hq, toRing_dot hq, toRing_dot hq, hT, hU,
    toRing_radd hq, toRing_radd hq, toRing_rsub hq, toRing_dot hq, toRing_dot hq,
    ← matrix_cancels p.k fun i j => toRing p (matAt p A i j)]
  ring

/-- With noise below the margin of R135 the difference decodes to the message, whatever the draws were. -/
theorem decodeBlock_plainD {p : Params} (hp : p.Bounds)
    (hmargin : 4 * (2 * p.k * p.n * p.eta ^ 2 + p.eta) + 2 < p.q) (A : List Elt) {sv e r e1 : List Elt}
    {e2 : Elt} (hs : ∀ i, i < p.k → IsNoise p (vecAt sv i)) (he : ∀ i, i < p.k → IsNoise p (vecAt e i))
    (hr : ∀ i, i < p.k → IsNoise p (vecAt r i)) (he1 : ∀ i, i < p.k → IsNoise p (vecAt e1 i))
    (he2 : IsNoise p e2) (bits : List Bool) {m : Nat} (hm : m < p.n) :
    blockBit (decodeBlock p (plainD p sv (cipherU p A r e1) (cipherV p (keyT p A sv e) r e2 bits))) m
      = blockBit bits m := by
  have hq := hp.prime.pos
  obtain ⟨x, hx, hnoise⟩ : IsSmall (2 * p.k * p.n * p.eta ^ 2 + p.eta)
      (coef (radd p (rsub p (dot p e r) (dot p sv e1)) e2) m : ZMod p.q) := by
    rw [cast_coef_radd _ _ hm, cast_coef_rsub hq _ _ hm, show 2 * p.k * p.n * p.eta ^ 2
      = p.k * (p.n * (p.eta * p.eta)) + p.k * (p.n * (p.eta * p.eta)) by ring]
    exact ((isSmall_dot hq he hr hm).sub (isSmall_dot hq hs he1 hm)).add (he2.isSmall hq hm)
  have hcoef : coef (radd p (radd p (rsub p (dot p e r) (dot p sv e1)) e2) (encodeBlock p bits)) m
      = zmod p.q ((if blockBit bits m = true then p.half else 0 : Nat) + x) := by
    rw [coef_radd hm, coef_encodeBlock hm]
    refine mod_eq_zmod ?_
    rw [Nat.cast_add, hnoise, Int.cast_add, Int.cast_natCast, add_comm]
  rw [blockBit_decodeBlock hm, plainD_eq_noise_add hp, hcoef]
  exact decbit_encodedBit_add hp _ (by omega)

end Sys2Proof.Machine

/-! ### A key, a ciphertext and a message on the machine (43_pke R135) -/

namespace Sys2Proof.Machine

/-- The run of slots from `base` up holds the vector `es` of ring elements. -/
structure State.HoldsElts (s : State) (base : Nat) (es : List Elt) : Prop where
  length_eq : ∀ a ∈ es, a.length = s.cfg.n
  cells : s.RunHolds base es.length fun i => coef (vecAt es i)

theorem eltFrom_coef {p : Params} {a : Elt} (ha : a.length = p.n) : eltFrom p (coef a) = a :=
  elt_ext (length_eltFrom p _) ha fun _ => coef_eltFrom_of_lt

/-- A vector is given by the coefficients of its elements. -/
theorem eltsFrom_coef {p : Params} {es : List Elt} (hes : ∀ a ∈ es, a.length = p.n) :
    eltsFrom p es.length (fun i => coef (vecAt es i)) = es := by
  refine List.ext_getElem (by simp [eltsFrom]) fun i hi hi' => ?_
  have helt : vecAt es i = es[i] := List.getD_eq_getElem es [] hi'
  rw [← List.getD_eq_getElem _ [] hi, getD_eltsFrom _ _ _ hi', helt,
    eltFrom_coef (hes _ (List.getElem_mem hi'))]

/-- A run that holds a vector is read as that vector. -/
theorem withSlots_holdsElts {s : State} {base len : Nat} {es : List Elt} {k : List Elt → Result}
    (h : s.HoldsElts base es) (hlen : es.length = len) : withSlots s (SlotRun.slots ⟨base, len⟩) k = k es := by
  subst hlen
  rw [withSlots_holds h.cells, eltsFrom_coef h.length_eq]

/-- From `s` to `t` the configuration, the layout and ERR are as they were. -/
structure SameSetup (s t : State) : Prop where
  cfg : t.cfg = s.cfg
  layout : t.layout = s.layout
  err : t.err = s.err

theorem isElt_keyT {p : Params} (hq : 0 < p.q) (A sv e : List Elt) : ∀ a ∈ keyT p A sv e, IsElt p a :=
  forall_isElt_map fun _ => isElt_radd hq _ _

theorem isElt_cipherU {p : Params} (hq : 0 < p.q) (A r e1 : List Elt) :
    ∀ a ∈ cipherU p A r e1, IsElt p a :=
  forall_isElt_map fun _ => isElt_radd hq _ _

theorem isNoise_noiseElts {p : Params} {coin : Nat → Bool} {c m : Nat} :
    ∀ i, i < m → IsNoise p (vecAt (noiseElts p coin c m) i) := fun i hi => by
  rw [vecAt_noiseElts hi]
  exact isNoise_noiseElt p coin _

theorem Completed.sameSetup {s t : State} (h : Completed s t) : SameSetup s t := by
  rw [Completed] at h
  exact ⟨by rw [h], by rw [h], by rw [h]⟩

/-- KEYGEN leaves a public key and its secret in its runs, and the message alone. -/
theorem exec_keygen_holds {s : State} (hq : 0 < s.cfg.q) (h : KeygenChecks s) :
    ∃ t, exec .keygen s = .next t ∧ SameSetup s t ∧ t.msg = s.msg
      ∧ t.HoldsElts s.layout.abase.toNat s.keyA
      ∧ t.HoldsElts s.layout.tbase.toNat (keyT s.cfg s.keyA s.keyS s.keyE)
      ∧ t.HoldsElts s.layout.sbase.toNat s.keyS := by
  have hsame := (completed_afterKeygen s).sameSetup
  have hn := congrArg Params.n hsame.cfg
  have hA : ∀ a ∈ s.keyA, IsElt s.cfg a := forall_isElt_map fun _ => isElt_uniformElt hq _ _
  have hT := isElt_keyT hq s.keyA s.keyS s.keyE
  have hS : ∀ a ∈ s.keyS, IsElt s.cfg a := forall_isElt_map fun _ => isElt_noiseElt hq _ _
  exact ⟨_, exec_keygen_checked h, hsame, by rw [afterKeygen_frame],
    ⟨fun a ha => (hA a ha).1.trans hn.symm, fun _ hi _ hm =>
      cell_afterKeygen_A h (hm.trans_eq hn) (hi.trans_eq (length_keyA s))⟩,
    ⟨fun a ha => (hT a ha).1.trans hn.symm, fun _ hi _ hm =>
      cell_afterKeygen_T h (hm.trans_eq hn) (hi.trans_eq (length_keyT ..))⟩,
    ⟨fun a ha => (hS a ha).1.trans hn.symm, fun _ hi _ hm =>
      cell_afterKeygen_S (hm.trans_eq hn) (hi.trans_eq (length_keyS s))⟩⟩

/-- ENCRYPT leaves a ciphertext of the message under the key it read, and every other slot alone. -/
theorem exec_encrypt_holdsElts {s : State} (hq : 0 < s.cfg.q) (h : EncryptChecks s) {A tv : List Elt}
    {msg : Nat → Bool} (hA : s.HoldsElts s.layout.abase.toNat A) (hAlen : A.length = s.cfg.k * s.cfg.k)
    (hT : s.HoldsElts s.layout.tbase.toNat tv) (hTlen : tv.length = s.cfg.k) (hm : s.MsgHolds msg) :
    ∃ t, exec .encrypt s = .next t ∧ SameSetup s t
      ∧ t.HoldsElts s.layout.ubase.toNat (cipherU s.cfg A s.encR s.encE1)
      ∧ t.SlotHolds s.layout.vslot.toNat (coef (cipherV s.cfg tv s.encR s.encE2 (blockFrom s.cfg msg)))
      ∧ ∀ x m, ¬ ((s.layout.ubase.toNat ≤ x ∧ x < s.layout.ubase.toNat + s.cfg.k)
          ∨ x = s.layout.vslot.toNat) → t.cell x m = s.cell x m := by
  have hsame := (completed_afterEncrypt s A tv (blockFrom s.cfg msg)).sameSetup
  have hn := congrArg Params.n hsame.cfg
  have hU := isElt_cipherU hq A s.encR s.encE1
  exact ⟨_, (exec_encrypt_checked h).trans ((withSlots_holdsElts hA hAlen).trans
      ((withSlots_holdsElts hT hTlen).trans (withMsg_holds hm))), hsame,
    ⟨fun a ha => (hU a ha).1.trans hn.symm, fun _ hi _ hm =>
      cell_afterEncrypt_U h A tv _ (hm.trans_eq hn) (hi.trans_eq (length_cipherU ..))⟩,
    fun _ hm => cell_afterEncrypt_V A tv _ (hm.trans_eq hn),
    fun x m hx => cell_afterEncrypt_outside A tv _ (.inr hx)⟩

/-- DECRYPT decodes the difference of the ciphertext and the secret it reads. -/
theorem exec_decrypt_holdsElts {s : State} (h : DecryptChecks s) {sv u : List Elt} {v : Elt}
    (hS : s.HoldsElts s.layout.sbase.toNat sv) (hSlen : sv.length = s.cfg.k)
    (hU : s.HoldsElts s.layout.ubase.toNat u) (hUlen : u.length = s.cfg.k)
    (hV : s.SlotHolds s.layout.vslot.toNat (coef v)) (hvlen : v.length = s.cfg.n) :
    exec .decrypt s
      = .next ((s.writeMsg (decodeBlock s.cfg (plainD s.cfg sv u v))).setDone true) := by
  have hSelts := eltsFrom_coef hS.length_eq
  have hUelts := eltsFrom_coef hU.length_eq
  have hScells := hS.cells
  have hUcells := hU.cells
  rw [hSlen] at hSelts hScells
  rw [hUlen] at hUelts hUcells
  rw [exec_decrypt_holds h hScells hUcells hV, hSelts, hUelts, eltFrom_coef hvlen]

/-- The checks of ENCRYPT read the configuration and the layout only. -/
theorem EncryptChecks.congr {s t : State} (h : EncryptChecks s) (hst : SameSetup s t) : EncryptChecks t where
  fitsA := by rw [hst.cfg, hst.layout]; exact h.fitsA
  fitsT := by rw [hst.cfg, hst.layout]; exact h.fitsT
  fitsU := by rw [hst.cfg, hst.layout]; exact h.fitsU
  fitsV := by rw [hst.cfg, hst.layout]; exact h.fitsV
  apartUV := by rw [hst.cfg, hst.layout]; exact h.apartUV

/-- The checks of DECRYPT read the configuration and the layout only. -/
theorem DecryptChecks.congr {s t : State} (h : DecryptChecks s) (hst : SameSetup s t) : DecryptChecks t where
  fitsS := by rw [hst.cfg, hst.layout]; exact h.fitsS
  fitsU := by rw [hst.cfg, hst.layout]; exact h.fitsU
  fitsV := by rw [hst.cfg, hst.layout]; exact h.fitsV

theorem SameSetup.trans {s t u : State} (h : SameSetup s t) (h' : SameSetup t u) : SameSetup s u :=
  ⟨h'.cfg.trans h.cfg, h'.layout.trans h.layout, h'.err.trans h.err⟩

/-- ENCRYPT leaves the secret alone where the ciphertext does not overwrite it. -/
theorem holdsElts_kept {s t : State} {es : List Elt} {base ub vs k : Nat} (hsame : SameSetup s t)
    (hkept : ∀ x m, ¬ ((ub ≤ x ∧ x < ub + k) ∨ x = vs) → t.cell x m = s.cell x m)
    (hU : ¬ runsMeet ub k base es.length) (hV : ¬ runsMeet vs 1 base es.length)
    (h : s.HoldsElts base es) : t.HoldsElts base es := by
  have hn := congrArg Params.n hsame.cfg
  refine ⟨fun a ha => (h.length_eq a ha).trans hn.symm, fun i hi m hm => ?_⟩
  have hapart : ¬ ((ub ≤ base + i ∧ base + i < ub + k) ∨ base + i = vs) := by
    rintro (hu | hv)
    · exact hU ⟨base + i, hu, by omega⟩
    · exact hV ⟨base + i, by omega, by omega⟩
  rw [hkept _ m hapart]
  exact h.cells i hi m (hm.trans_eq hn)

/-- A machine that holds a key pair: ENCRYPT, then DECRYPT, give the message back. -/
theorem decrypt_encrypt_holds {s : State} {A sv e : List Elt} {msg : Nat → Bool} (hp : s.cfg.Bounds)
    (hmargin : 4 * (2 * s.cfg.k * s.cfg.n * s.cfg.eta ^ 2 + s.cfg.eta) + 2 < s.cfg.q)
    (henc : EncryptChecks s) (hdec : DecryptChecks s)
    (hUS : ¬ runsMeet s.layout.ubase.toNat s.cfg.k s.layout.sbase.toNat s.cfg.k)
    (hVS : ¬ runsMeet s.layout.vslot.toNat 1 s.layout.sbase.toNat s.cfg.k)
    (hA : s.HoldsElts s.layout.abase.toNat A) (hAlen : A.length = s.cfg.k * s.cfg.k)
    (hT : s.HoldsElts s.layout.tbase.toNat (keyT s.cfg A sv e))
    (hS : s.HoldsElts s.layout.sbase.toNat sv) (hSlen : sv.length = s.cfg.k)
    (hnoiseS : ∀ i, i < s.cfg.k → IsNoise s.cfg (vecAt sv i))
    (hnoiseE : ∀ i, i < s.cfg.k → IsNoise s.cfg (vecAt e i)) (hmsg : s.MsgHolds msg) :
    ∃ t u, exec .encrypt s = .next t ∧ exec .decrypt t = .next u ∧ u.MsgHolds msg ∧ u.done = true
      ∧ u.err = s.err := by
  have hq := hp.prime.pos
  obtain ⟨t, hencrypt, hsame, hU, hV, hkept⟩ :=
    exec_encrypt_holdsElts hq henc hA hAlen hT (length_keyT ..) hmsg
  have hn := congrArg Params.n hsame.cfg
  have hS := holdsElts_kept hsame hkept (by rwa [hSlen]) (by rwa [hSlen]) hS
  have hdecrypt := exec_decrypt_holdsElts (hdec.congr hsame) (by rw [hsame.layout]; exact hS)
    (by rw [hSlen, hsame.cfg]) (by rw [hsame.layout]; exact hU) (by rw [length_cipherU, hsame.cfg])
    (by rw [hsame.layout]; exact hV) ((isElt_radd hq _ _).1.trans hn.symm)
  have hbit : ∀ m, m < t.cfg.n → blockBit (decodeBlock t.cfg (plainD t.cfg sv
      (cipherU s.cfg A s.encR s.encE1)
      (cipherV s.cfg (keyT s.cfg A sv e) s.encR s.encE2 (blockFrom s.cfg msg)))) m = msg m := by
    rw [hsame.cfg]
    intro m hm
    exact (decodeBlock_plainD hp hmargin A hnoiseS hnoiseE (r := s.encR) (e1 := s.encE1)
      isNoise_noiseElts isNoise_noiseElts (isNoise_noiseElt ..) _ hm).trans (blockBit_blockFrom hm)
  obtain ⟨-, hbits, -⟩ := wroteMsg_writeMsg hbit
  exact ⟨t, _, hencrypt, hdecrypt, hbits, rfl, hsame.err⟩

end Sys2Proof.Machine

section

open Sys2Proof Sys2Proof.Machine

/-- Settles O58: KEYGEN leaves a key pair, so that ENCRYPT and DECRYPT give the message back. -/
theorem decryptReturnsTheEncryptedMessage : Obligations.DecryptReturnsTheEncryptedMessage := by
  intro s msg hl hmsg p ab tb sb ub vs hmargin hA hT hS hU hV hAT hAS hTS hUV hUS hVS
  have hp := Params.bounds hl
  have henc : EncryptChecks s := ⟨⟨hA, hT, hU, hV⟩, hUV⟩
  have hdec : DecryptChecks s := ⟨hS, hU, hV⟩
  obtain ⟨t1, hkeygen, hsame, hmsg1, hA1, hT1, hS1⟩ :=
    exec_keygen_holds hp.prime.pos ⟨hA, hT, hS, hAT, hAS, hTS⟩
  have hm1 : t1.MsgHolds msg := fun j hj => by
    rw [State.msgBit, hmsg1]
    exact hmsg j (hj.trans_eq (congrArg Params.n hsame.cfg))
  rw [← hsame.layout] at hA1 hT1 hS1
  rw [← hsame.cfg] at hT1
  obtain ⟨t2, t3, hencrypt, hdecrypt, hbits, hdone, herr⟩ := decrypt_encrypt_holds
    (hsame.cfg ▸ hp) (by rw [hsame.cfg]; exact hmargin) (henc.congr hsame) (hdec.congr hsame)
    (by rw [hsame.cfg, hsame.layout]; exact hUS) (by rw [hsame.cfg, hsame.layout]; exact hVS) hA1
    (by rw [hsame.cfg]; exact length_keyA s) hT1 hS1 (by rw [hsame.cfg]; exact length_keyS s)
    (by rw [hsame.cfg]; exact isNoise_noiseElts) (by rw [hsame.cfg]; exact isNoise_noiseElts) hm1
  exact ⟨t1, t2, t3, hkeygen, hencrypt, hdecrypt, hbits, hdone, herr.trans hsame.err⟩

end

/-! ### The message-level codec of a host (42_codec R122, R124) -/

namespace Sys2Proof.Machine

/-- The place of an item in a concatenation of lists of one length. -/
theorem getD_flatten_of_length {α : Type} {n : Nat} {ls : List (List α)} (h : ∀ l ∈ ls, l.length = n)
    (b : Nat) {i : Nat} (hi : i < n) (d : α) :
    ls.flatten.getD (b * n + i) d = (ls.getD b []).getD i d := by
  induction ls generalizing b with
  | nil => rfl
  | cons l ls ih =>
    obtain ⟨hl, hls⟩ := List.forall_mem_cons.mp h
    rw [List.flatten_cons]
    cases b with
    | zero => rw [Nat.zero_mul, Nat.zero_add, List.getD_append _ _ _ _ (hl ▸ hi), List.getD_cons_zero]
    | succ b =>
      have hplace : (b + 1) * n + i = l.length + (b * n + i) := by rw [hl]; ring
      rw [hplace, List.getD_append_right _ _ _ _ (Nat.le_add_right ..), Nat.add_sub_cancel_left, ih hls,
        List.getD_cons_succ]

/-- A byte is the sum of its bits' values (R124). -/
theorem byteOfBits_getLsbD (b : Byte) : byteOfBits (fun q => b.getLsbD q) = b := by
  revert b
  decide

/-- A byte is made of eight bits. -/
theorem byteOfBits_congr {f g : Nat → Bool} (h : ∀ q, q < 8 → f q = g q) : byteOfBits f = byteOfBits g := by
  have hbits : ((List.range 8).map fun q => (f q).toNat * 2 ^ q)
      = (List.range 8).map fun q => (g q).toNat * 2 ^ q :=
    List.map_congr_left fun q hq => by rw [h q (List.mem_range.mp hq)]
  rw [byteOfBits, byteOfBits, hbits]

/-- Bit `q` of byte `i` stands at `8*i + q` of the bit string (R122). -/
theorem messageBits_getD {bytes : List Byte} {i q : Nat} (hi : i < bytes.length) (hq : q < 8) :
    (messageBits bytes).getD (8 * i + q) false = bytes[i].getLsbD q := by
  have hlen : ∀ l ∈ bytes.map fun b => (List.range 8).map fun q => b.getLsbD q, l.length = 8 := by
    simp
  rw [messageBits, List.flatMap_def, Nat.mul_comm, getD_flatten_of_length hlen i hq]
  simp [hi, hq]

/-- The blocks of a message, one after the other, hold its bit string. -/
theorem splitMessage_getD {p : Params} (hn : 1 ≤ p.n) {bytes : List Byte} {k : Nat}
    (hk : k < 8 * bytes.length) :
    (splitMessage p bytes).flatten.getD k false = (messageBits bytes).getD k false := by
  have hlen : ∀ l ∈ splitMessage p bytes, l.length = p.n := by
    simp [splitMessage, messageBlock]
  have hblock : k / p.n < blockCount p bytes.length := by
    have hle := Nat.div_mul_le_self k p.n
    refine (Nat.le_div_iff_mul_le hn).mpr ?_
    rw [Nat.succ_mul]
    omega
  have hplace : k / p.n * p.n + k % p.n = k := Nat.div_add_mod' k p.n
  have hflat := getD_flatten_of_length hlen (k / p.n) (Nat.mod_lt k hn) false
  rw [hplace] at hflat
  rw [hflat, splitMessage, getD_map_range, if_pos hblock, messageBlock, getD_map_range,
    if_pos (Nat.mod_lt k hn), hplace]

end Sys2Proof.Machine

section

open Sys2Proof Sys2Proof.Machine

/-- Settles O60: the blocks cover the bit string, so that the bits of each byte are rejoined. -/
theorem joinOfSplitIsTheMessage : Obligations.JoinOfSplitIsTheMessage := by
  intro p bytes hn
  refine List.ext_getElem (by simp [joinMessage]) fun i hi hi' => ?_
  have hbits : ∀ q, q < 8 →
      (splitMessage p bytes).flatten.getD (8 * i + q) false = bytes[i].getLsbD q := fun q hq => by
    rw [splitMessage_getD hn (by omega), messageBits_getD hi' hq]
  simp only [joinMessage, List.getElem_map, List.getElem_range]
  rw [byteOfBits_congr hbits, byteOfBits_getLsbD]

end
